-- ==== Sys2Proof/Word.lean ====
section
/-! DEFINITION. The word types of the BME (spec/00_scope.md R6, R8, R9, R10). -/

namespace Sys2Proof

/-- A 32-bit unsigned value: every CSR, operand and host-port word (R6, R60). -/
abbrev Word := BitVec 32

/-- A 64-bit unsigned value, `u64` of R8: one word of a block. -/
abbrev U64 := BitVec 64

/-- One byte of LMEM or of a byte string (R9, R35). -/
abbrev Byte := BitVec 8

/-- A byte string: byte 0 first (R9). -/
abbrev Bytes := List Byte

/-- A block: `w[0] … w[127]`, each a u64 (R10). -/
abbrev Block := Vector U64 128

end Sys2Proof
end

