-- ==== Sys2Proof/Syntax.lean ====
section
/-! DEFINITION. The commands of the BME: one constructor for each row of spec/opcode_table.json (R92).
No command word carries an operand (R96): a command's operands are the ARG registers latched when it is accepted. -/

namespace Sys2Proof

/-- The fourteen commands of R92, in the order of the table. -/
inductive Instr where
  /-- NOP, opcode 0x00 (R120). -/
  | nop
  /-- CONFIG, opcode 0x01 (R121). -/
  | config
  /-- ZEROIZE, opcode 0x02 (R125). -/
  | zeroize
  /-- HASH, opcode 0x10 (R175). -/
  | hash
  /-- HPRIME, opcode 0x11 (R178). -/
  | hprime
  /-- G, opcode 0x20 (R200). -/
  | g
  /-- GX, opcode 0x21 (R201). -/
  | gx
  /-- PERM, opcode 0x22 (R202). -/
  | perm
  /-- REFIDX, opcode 0x30 (R240). -/
  | refidx
  /-- ADDRGEN, opcode 0x31 (R241). -/
  | addrgen
  /-- SEED, opcode 0x40 (R290). -/
  | seed
  /-- FILLSEG, opcode 0x41 (R291). -/
  | fillseg
  /-- FILL, opcode 0x42 (R292). -/
  | fill
  /-- FINAL, opcode 0x43 (R293). -/
  | final
  deriving DecidableEq, Repr

end Sys2Proof
end

