-- ==== Sys2Proof/WellFormed.lean ====
section
/-! DEFINITION. Which command words are legal (spec/30_encoding.md R91, R94, R95).
The check is written from R94's list of reserved opcodes, not from the decoder's table, so that the two can be held
against each other. -/

namespace Sys2Proof

/-- An `Instr` has no operand (R96: no command word carries an immediate, all operands are in the ARG registers), so
every term of the type is well-formed; what can be ill-formed is a command word. -/
def Instr.wf (_ : Instr) : Bool := true

/-- RSV, bits 31:8 of a command word, must be 0 (R91). -/
def rsvIsZero (w : Word) : Bool := w.extractLsb' 8 24 == 0#24

/-- The reserved opcodes of R94: 0x03–0x0F, 0x12–0x1F, 0x23–0x2F, 0x32–0x3F and 0x44–0xFF. -/
def reservedOpcode (o : BitVec 8) : Bool :=
  (0x03#8 ≤ o && o ≤ 0x0F#8) || (0x12#8 ≤ o && o ≤ 0x1F#8) || (0x23#8 ≤ o && o ≤ 0x2F#8)
    || (0x32#8 ≤ o && o ≤ 0x3F#8) || (0x44#8 ≤ o && o ≤ 0xFF#8)

/-- A command word is legal when RSV is 0 and OPC (bits 7:0) is not reserved (R94). -/
def commandWordWf (w : Word) : Bool := rsvIsZero w && !reservedOpcode (w.extractLsb' 0 8)

end Sys2Proof
end

