-- ==== Sys2Proof/Decode.lean ====
section
/-! DEFINITION. The decoder and the encoder of command words (spec/30_encoding.md R90–R97). -/

namespace Sys2Proof

/-- OPC, bits 7:0 of a command word (R91). -/
def opcField (w : Word) : BitVec 8 := w.extractLsb' 0 8

/-- RSV, bits 31:8 of a command word (R91). -/
def rsvField (w : Word) : BitVec 24 := w.extractLsb' 8 24

/-- The opcode map of R92; `none` is ILLEGAL, every byte that is not one of the fourteen. -/
def opcodeTable (o : BitVec 8) : Option Instr :=
  match o.toNat with
  | 0x00 => some .nop
  | 0x01 => some .config
  | 0x02 => some .zeroize
  | 0x10 => some .hash
  | 0x11 => some .hprime
  | 0x20 => some .g
  | 0x21 => some .gx
  | 0x22 => some .perm
  | 0x30 => some .refidx
  | 0x31 => some .addrgen
  | 0x40 => some .seed
  | 0x41 => some .fillseg
  | 0x42 => some .fill
  | 0x43 => some .final
  | _ => none

/-- `decode(v)` of R97, total on all 2^32 words: ILLEGAL (`none`) if RSV is not 0, otherwise the opcode table. -/
def decode (w : Word) : Option Instr :=
  if rsvField w = 0#24 then opcodeTable (opcField w) else none

/-- The OPC byte of each command, from the column OPC of R92. -/
def opcodeOf : Instr → BitVec 8
  | .nop => 0x00#8
  | .config => 0x01#8
  | .zeroize => 0x02#8
  | .hash => 0x10#8
  | .hprime => 0x11#8
  | .g => 0x20#8
  | .gx => 0x21#8
  | .perm => 0x22#8
  | .refidx => 0x30#8
  | .addrgen => 0x31#8
  | .seed => 0x40#8
  | .fillseg => 0x41#8
  | .fill => 0x42#8
  | .final => 0x43#8

/-- The command word of a command: RSV = 0 above its OPC byte (R91, R92). -/
def encode (i : Instr) : Word := 0#24 ++ opcodeOf i

/-- The instruction the decoder reads from the bits `w` of an opcode-table row of `nbits` bits. A command is one whole
32-bit word (R90), so the bits above `nbits` are 0. -/
def decodeTableWord (nbits w : Nat) : Option Instr := decode (BitVec.ofNat 32 (w % 2 ^ nbits))

end Sys2Proof
end

