-- ==== Sys2Proof/Config.lean ====
section
/-! DEFINITION. The implementation parameters of spec/00_scope.md R5 and the free values of the spec.
`LMEM_BLOCKS` is a parameter with a legal range: the State carries it (the CAP register), so a claim about every state
is a claim about every capacity; the value here is only the one State.reset has. -/

namespace Sys2Proof.Config

/-- The default capacity in 1024-byte blocks (R5, D4): the value of CAP in `State.reset`. -/
def lmemBlocks : Nat := 32768

/-- The smallest legal LMEM_BLOCKS (R5). -/
def lmemBlocksMin : Nat := 16

/-- The largest legal LMEM_BLOCKS (R5). -/
def lmemBlocksMax : Nat := 2 ^ 21

/-- P_MAX, the largest accepted parallelism (R5, R123). -/
def pMax : Nat := 2 ^ 24 - 1

/-- CSR_BASE, the host address of the CSR window (R5, R61). -/
def csrBase : Nat := 0x00000000

/-- The CSR window has 256 bytes, 64 word slots (R24). -/
def csrBytes : Nat := 0x100

/-- LMEM_BASE, the host address of LMEM byte 0 (R5, R61). -/
def lmemBase : Nat := 0x80000000

/-- ID_VALUE, the constant the ID register reads (R26). -/
def idValue : Word := 0x42324D58#32

/-- ARGON2_VERSION (R2, R5). -/
def argon2Version : Nat := 0x13

/-- ARGON2_TYPE, the type code y of Argon2id (R2, R5). -/
def argon2Type : Nat := 2

/-- The constant the VERSION register reads (R27): SPEC_REV 7, type 2, version 0x13. -/
def versionValue : Word := 0x00070213#32

/-- FREE VALUE (log entry 1): the byte that draw number `n` gives LMEM byte `a`. Draw 0 is the power-up contents (R47,
U1); a reset that abandons a command takes a new draw for the bytes of its write set (R342, U3). It has no body, so no
proof can know a value of it. -/
opaque lmemDraw : Nat → Nat → BitVec 8

end Sys2Proof.Config
end

