-- ==== Sys2Proof/Machine/State.lean ====
section
/-! DEFINITION. The state of the BME (spec/10_state.md R20–R48), as plain data, and its value after power-up reset.
ID and VERSION are hard-wired constants (R26, R27) and stand in Config; every other CSR, the latched command record and
LMEM stand here. Three fields are the model's own and not the spec's: `inputs`, `reads` and `draws`. -/

namespace Sys2Proof.Machine

/-- The error codes of R300. Codes 6–15 are never produced, so they are no values of the type. -/
inductive ErrCode where
  | none
  | invalidParams
  | resourceExhausted
  | illegalCmd
  | range
  | notConfigured
  deriving DecidableEq, Repr

/-- The fields of STATUS (R29) but BUSY, which is 1 exactly while the engine holds a latched command record (R40): see
`State.busy`. Reserved bits have no storage: they read 0. -/
structure Status where
  done : Bool
  err : Bool
  errcode : ErrCode
  cfgok : Bool
  ovr : Bool
  hbe : Bool
  deriving DecidableEq, Repr

/-- IRQEN (R31): bit 0 is DONE_IE, bit 1 is ERR_IE; the reserved bits have no storage. -/
structure IrqEn where
  doneIe : Bool
  errIe : Bool
  deriving DecidableEq, Repr

/-- Six 32-bit operand registers: ARG0–ARG5 (R21), and their latched copies (R23). -/
structure Args where
  arg0 : Word
  arg1 : Word
  arg2 : Word
  arg3 : Word
  arg4 : Word
  arg5 : Word
  deriving DecidableEq, Repr

/-- RES0–RES3 (R22). -/
structure Res where
  res0 : Word
  res1 : Word
  res2 : Word
  res3 : Word
  deriving DecidableEq, Repr

/-- The CFG registers CFG_P, CFG_M, CFG_T, CFG_MP, CFG_Q, CFG_SL (R32). -/
structure Cfg where
  p : Word
  m : Word
  t : Word
  mp : Word
  q : Word
  sl : Word
  deriving DecidableEq, Repr

/-- The latched command record `{word, argl}` of the running command (R40). -/
structure Latch where
  word : Word
  args : Args
  deriving DecidableEq, Repr

/-- What the unlisted bytes of a memory read as: 0 after a ZEROIZE (R125), or the bytes of a draw (R47, R342). -/
inductive Background where
  | zero
  | draw (n : Nat)
  deriving DecidableEq, Repr

/-- LMEM (R35): the listed bytes by LMEM byte offset, and what every other byte reads as. -/
structure Memory where
  background : Background
  cells : List Host.Cell
  deriving DecidableEq, Repr

/-- One host-port access: a read, or a write of one 32-bit word, at a 32-bit host byte address (R60). -/
inductive Access where
  | read (a : Word)
  | write (a v : Word)
  deriving DecidableEq, Repr

/-- One input of the machine: a host access (R60), a step of the command sequencer SEQ (R13, R356), or the reset input
RST (R340). -/
inductive Input where
  | host (x : Access)
  | seq
  | rst
  deriving DecidableEq, Repr

/-- The state of the BME. -/
structure State where
  /-- CMD (R28): the last accepted command word. -/
  cmd : Word
  /-- STATUS (R29). -/
  status : Status
  /-- IRQEN (R31). -/
  irqen : IrqEn
  /-- ARG0–ARG5 (R21). -/
  args : Args
  /-- RES0–RES3 (R22). -/
  res : Res
  /-- CFG_P, CFG_M, CFG_T, CFG_MP, CFG_Q, CFG_SL (R32). -/
  cfg : Cfg
  /-- CAP (R33): LMEM_BLOCKS, the capacity parameter of R5; no step changes it (log entry 6). -/
  cap : Word
  /-- The latched command record (R40): present exactly while BUSY = 1 (log entry 8). -/
  latch : Option Latch
  /-- LMEM (R35). -/
  lmem : Memory
  /-- THE MODEL'S OWN: the inputs still to come, next first: which agent moves next, and with what (R13, R356; log
  entry 3, DESIGN CHOICE). -/
  inputs : List Input
  /-- THE MODEL'S OWN: the words the host port has returned, latest first (log entry 9, DESIGN CHOICE). -/
  reads : List Word
  /-- THE MODEL'S OWN: the number of the next free draw of LMEM bytes (`Config.lmemDraw`; log entry 1). -/
  draws : Nat
  deriving DecidableEq, Repr

/-- The machine never stops with a fault: every error is a completion status (R302), every bad host access sets HBE
(R306), and no BME state is a hang (spec/93_implementation_defined.md). So the type has no constructor. -/
inductive Fault where
  deriving DecidableEq, Repr

/-- Why a step has no meaning. -/
inductive Refusal where
  /-- An instruction with no meaning yet (raised in exec's arms only; no arm raises it). Safe: the run stops. -/
  | notModelled (mnemonic : String)
  /-- A host access to the LMEM window while BUSY = 1 (raised by the host port; R69, R350, U2: the value read and the
  effect of the write are unspecified, and a model refuses such a run). Safe: the run stops. -/
  | hostLmemAccessWhileBusy (a : Word)
  deriving DecidableEq, Repr

/-- All six operand registers 0. -/
def Args.zero : Args := ⟨0, 0, 0, 0, 0, 0⟩

/-- All four result registers 0. -/
def Res.zero : Res := ⟨0, 0, 0, 0⟩

/-- All six CFG registers 0. -/
def Cfg.zero : Cfg := ⟨0, 0, 0, 0, 0, 0⟩

/-- The machine right after a power-up reset (R46, R341): every register 0, no command running, CAP = LMEM_BLOCKS, and
every LMEM byte a draw (R47). No input is pending: the engine is idle and waits for a CMD write (R344). The values of
`cap`, `inputs`, `reads` and `draws` are DESIGN CHOICEs (log entries 6, 3, 9 and 1). -/
def State.reset : State where
  cmd := 0
  status := ⟨false, false, .none, false, false, false⟩
  irqen := ⟨false, false⟩
  args := Args.zero
  res := Res.zero
  cfg := Cfg.zero
  cap := BitVec.ofNat 32 Config.lmemBlocks
  latch := none
  lmem := ⟨.draw 0, []⟩
  inputs := []
  reads := []
  draws := 1

end Sys2Proof.Machine
end

