-- ==== Sys2Proof/Machine/Bytes.lean ====
section
/-! DEFINITION. Bit fields, rotations, byte order and blocks (spec/00_scope.md R7–R10, spec/41_keyexpander.md R154). -/

namespace Sys2Proof.Machine

/-- `lo32(x) = x[31:0]` (R8). -/
def lo32 (x : U64) : Word := x.extractLsb' 0 32

/-- `hi32(x) = x[63:32]` (R8). -/
def hi32 (x : U64) : Word := x.extractLsb' 32 32

/-- `rotr64(x, n)` for 0 < n < 64 (R8). -/
def rotr64 (x : U64) (n : Nat) : U64 := (x >>> n) ||| (x <<< (64 - n))

/-- `LE32(v)`, the four bytes of `v`, least significant first (R9). -/
def le32 (v : Word) : Bytes :=
  [v.extractLsb' 0 8, v.extractLsb' 8 8, v.extractLsb' 16 8, v.extractLsb' 24 8]

/-- `LE64(v)`, the eight bytes of `v`, least significant first (R9). -/
def le64 (v : U64) : Bytes := (List.range 8).map fun j => v.extractLsb' (8 * j) 8

/-- The number a byte string denotes, little-endian: `Σ_j S[j] · 2^(8j)` (R10, R62, R154). -/
def leNat : Bytes → Nat
  | [] => 0
  | b :: bs => b.toNat + 2 ^ 8 * leNat bs

/-- The first `n` little-endian u64 words of a byte string: word k is bytes 8k … 8k+7 (R10, R154). -/
def leWords (n : Nat) (S : Bytes) : Vector U64 n :=
  Vector.ofFn fun k => BitVec.ofNat 64 (leNat ((S.drop (8 * k)).take 8))

/-- `blockOf(S)` for a 1024-byte string (R10). -/
def blockOf (S : Bytes) : Block := leWords 128 S

/-- The bytes of a list of words, each little-endian. -/
def leBytes (ws : List U64) : Bytes := ws.flatMap le64

/-- `bytesOf(B)`, the inverse of `blockOf` (R10). -/
def bytesOf (B : Block) : Bytes := leBytes B.toList

/-- `B ⊕ C`, word by word (R10). -/
def xorBlock (B C : Block) : Block := Vector.ofFn fun k : Fin 128 => B[k] ^^^ C[k]

/-- `ZERO`, the block with every word 0 (R10). -/
def zeroBlock : Block := Vector.replicate 128 0

/-- `zeros(n)`, n bytes of 0x00 (R9). -/
def zeros (n : Nat) : Bytes := List.replicate n 0

/-- Four u64 words a mixing function works on. -/
structure Quad where
  a : U64
  b : U64
  c : U64
  d : U64
  deriving DecidableEq, Repr

/-- A mixing function applied in place to words i, j, k, l of a 16-word vector (R152, R192). -/
def onQuad (f : Quad → Quad) (v : Vector U64 16) (i j k l : Fin 16) : Vector U64 16 :=
  let r := f ⟨v[i], v[j], v[k], v[l]⟩
  (((v.set i r.a).set j r.b).set k r.c).set l r.d

end Sys2Proof.Machine
end

