-- ==== Sys2Proof/Machine/Ops.lean ====
section
/-! DEFINITION. The named operations over LMEM and the registers (spec/00_scope.md R11), and the state transitions every
command shares: acceptance, successful completion, completion with an error, and the acknowledgement of a completion
(spec/60_exceptions.md R303, R304). -/

namespace Sys2Proof.Machine

/-! LMEM -/

/-- What an address that is not listed reads as: the one definition of it. -/
def Background.value : Background → Nat → Byte
  | .zero, _ => 0
  | .draw n, a => Config.lmemDraw n a

/-- A byte the canonical form does not list: over a zero background, the byte 0. Over a draw the value of an unlisted
byte is free, so every byte that was written is listed (log entry 2). -/
def Background.redundant : Background → Byte → Bool
  | .zero, v => v == 0
  | .draw _, _ => false

/-- The canonical form: addresses strictly rising, no entry equal to what an unlisted address is known to read as. -/
def Memory.wf (m : Memory) : Bool :=
  decide (m.cells.Pairwise fun x y => x.1 < y.1) && m.cells.all fun c => !m.background.redundant c.2

/-- Every listed byte is a byte of an LMEM of `n` bytes (R35). -/
def Memory.inside (m : Memory) (n : Nat) : Bool := m.cells.all fun c => decide (c.1 < n)

/-- The byte at LMEM byte offset `a`. -/
def Memory.readByte (m : Memory) (a : Nat) : Byte :=
  (m.cells.lookup a).getD (m.background.value a)

/-- The listed bytes of the range (a, n), over the same background. -/
def Memory.window (m : Memory) (a n : Nat) : Memory :=
  { m with cells := m.cells.filter fun c => decide (a ≤ c.1) && decide (c.1 < a + n) }

/-- The cells of a byte string laid out from offset `a`. -/
def cellsAt : Nat → Bytes → List Host.Cell
  | _, [] => []
  | a, b :: bs => (a, b) :: cellsAt (a + 1) bs

/-- `MemRead(a, n)` (R11). The bytes are looked up in the window of the range, which is short; each is the byte
`readByte` gives (`Memory.readBytes_eq` in Laws/Memory.lean). -/
def Memory.readBytes (m : Memory) (a n : Nat) : Bytes := (List.range' a n).map (m.window a n).readByte

/-- `MemWrite(a, len(S), S)` (R11): the cells below, the new bytes the canonical form lists, the cells above. -/
def Memory.writeBytes (m : Memory) (a : Nat) (S : Bytes) : Memory :=
  { m with
    cells := (m.cells.filter fun c => decide (c.1 < a))
      ++ ((cellsAt a S).filter fun c => !m.background.redundant c.2)
      ++ (m.cells.filter fun c => decide (a + S.length ≤ c.1)) }

/-- `BlockRead(b)` (R11). -/
def Memory.readBlock (m : Memory) (b : Nat) : Block := blockOf (m.readBytes (1024 * b) 1024)

/-- `BlockWrite(b, B)` (R11). -/
def Memory.writeBlock (m : Memory) (b : Nat) (B : Block) : Memory := m.writeBytes (1024 * b) (bytesOf B)

/-- Every byte 0 (R125). -/
def Memory.allZero : Memory := ⟨.zero, []⟩

/-- Every byte that of draw `n` (R47). -/
def Memory.allDraw (n : Nat) : Memory := ⟨.draw n, []⟩

/-- The `n` bytes from offset `a` become those of draw `d`; the others stay (R342). -/
def Memory.drawBytes (m : Memory) (d a n : Nat) : Memory :=
  m.writeBytes a ((List.range' a n).map (Config.lmemDraw d))

/-- LMEM_BLOCKS of this machine: what CAP reads (R33). -/
def State.lmemBlocks (s : State) : Nat := s.cap.toNat

/-- LMEM_BYTES (R5, R35). -/
def State.lmemBytes (s : State) : Nat := 1024 * s.lmemBlocks

/-! Registers -/

/-- Operand register k of a set of six. -/
def Args.get (x : Args) (k : Fin 6) : Word :=
  match k with
  | 0 => x.arg0
  | 1 => x.arg1
  | 2 => x.arg2
  | 3 => x.arg3
  | 4 => x.arg4
  | 5 => x.arg5

/-- Operand register k replaced: a host write stores all 32 bits (R21). -/
def Args.put (x : Args) (k : Fin 6) (v : Word) : Args :=
  match k with
  | 0 => { x with arg0 := v }
  | 1 => { x with arg1 := v }
  | 2 => { x with arg2 := v }
  | 3 => { x with arg3 := v }
  | 4 => { x with arg4 := v }
  | 5 => { x with arg5 := v }

/-- Result register k (R22). -/
def Res.get (x : Res) (k : Fin 4) : Word :=
  match k with
  | 0 => x.res0
  | 1 => x.res1
  | 2 => x.res2
  | 3 => x.res3

/-- STATUS.BUSY: 1 exactly while a latched command record is held (R29, R40). -/
def State.busy (s : State) : Bool := s.latch.isSome

/-- The latched copies of ARG0–ARG5 (R23, R40); with no command running the record is empty and they are 0 (R40 gives the
record no meaning then, and no step uses it; DESIGN CHOICE, log entry 8). -/
def State.argl (s : State) : Args :=
  match s.latch with
  | some r => r.args
  | none => Args.zero

/-! Acceptance and completion (R303). The BME has no traps (R302): completing with an error is what another machine's
taking of an exception is here, and the host's acknowledgement is the return from it (R304). -/

/-- Acceptance of command word `v` (R303): CMD and the record are latched, BUSY is 1, DONE, ERR and ERRCODE are cleared. -/
def State.accept (s : State) (v : Word) : State :=
  { s with
    cmd := v
    latch := some ⟨v, s.args⟩
    status := { s.status with done := false, err := false, errcode := .none } }

/-- `complete()` (R12, R303): BUSY is 0 and DONE is 1. -/
def State.complete (s : State) : State :=
  { s with latch := none, status := { s.status with done := true } }

/-- `raise Error(code)` (R12, R303): BUSY is 0, DONE is 1, ERR is 1 and ERRCODE is the code. -/
def State.raiseError (s : State) (e : ErrCode) : State :=
  { s with latch := none, status := { s.status with done := true, err := true, errcode := e } }

/-- A host write of `v` to STATUS (R29, R304): each W1C field whose bit of `v` is 1 is cleared, and ERRCODE with ERR;
every other bit of `v` is ignored. -/
def Status.acknowledge (x : Status) (v : Word) : Status :=
  { x with
    done := x.done && !v.getLsbD 1
    err := x.err && !v.getLsbD 2
    errcode := if v.getLsbD 2 then .none else x.errcode
    ovr := x.ovr && !v.getLsbD 9
    hbe := x.hbe && !v.getLsbD 10 }

/-- A CMD write while BUSY = 1: the write is dropped and OVR is set (R305). -/
def State.overrun (s : State) : State := { s with status := { s.status with ovr := true } }

/-- A misaligned or unmapped host access: HBE is set (R306). -/
def State.hostBusError (s : State) : State := { s with status := { s.status with hbe := true } }

/-- The word `v` is what the host port returns for a read. -/
def State.returned (s : State) (v : Word) : State := { s with reads := v :: s.reads }

/-- LMEM replaced. -/
def State.withLmem (s : State) (m : Memory) : State := { s with lmem := m }

/-- RES0–RES3 replaced. -/
def State.withRes (s : State) (x : Res) : State := { s with res := x }

/-- STATUS.CFGOK set to `b` (R121, R124). -/
def State.withCfgok (s : State) (b : Bool) : State := { s with status := { s.status with cfgok := b } }

/-- The CFG registers replaced (R32). -/
def State.withCfg (s : State) (c : Cfg) : State := { s with cfg := c }

end Sys2Proof.Machine
end

