-- ==== Sys2Proof/Machine/Operands.lean ====
section
/-! DEFINITION. The operands of the commands (spec/30_encoding.md R93, R96) and the range checks on them
(spec/20_memory.md R65). Every operand is the full 32-bit value of a latched ARG register, read as unsigned. -/

namespace Sys2Proof.Machine

/-- `ARG[k]`: the latched copy of operand register k, as an unsigned number (R11, R23, R96). -/
def State.operand (s : State) (k : Fin 6) : Nat := (s.argl.get k).toNat

/-- The byte range (a, n) is in range iff `a + n ≤ LMEM_BYTES`, on mathematical integers (R65). -/
def State.rangeOk (s : State) (a n : Nat) : Bool := decide (a + n ≤ s.lmemBytes)

/-- Block index b is in range iff `b < LMEM_BLOCKS` (R65). -/
def State.blockOk (s : State) (b : Nat) : Bool := decide (b < s.lmemBlocks)

end Sys2Proof.Machine
end

