-- ==== Sys2Proof/Machine/BlockMixer.lean ====
section
/-! DEFINITION. The compression function G, its permutation P and its mixing function GB, and the commands G, GX and PERM
(spec/42_blockmixer.md R190–R202). -/

namespace Sys2Proof.Machine

/-- fBlaMka(x, y) = (x + y + 2 · lo32(x) · lo32(y)) mod 2^64 (R190). -/
def fBlaMka (x y : U64) : U64 := x + y + 2 * ((lo32 x).setWidth 64 * (lo32 y).setWidth 64)

/-- GB on its four words (R191). -/
def gb (q : Quad) : Quad :=
  let a := fBlaMka q.a q.b
  let d := rotr64 (q.d ^^^ a) 32
  let c := fBlaMka q.c d
  let b := rotr64 (q.b ^^^ c) 24
  let a := fBlaMka a b
  let d := rotr64 (d ^^^ a) 16
  let c := fBlaMka c d
  let b := rotr64 (b ^^^ c) 63
  ⟨a, b, c, d⟩

/-- P, the permutation of 16 words: the column step, then the diagonal step (R192). -/
def permP (v : Vector U64 16) : Vector U64 16 :=
  let v := onQuad gb v 0 4 8 12
  let v := onQuad gb v 1 5 9 13
  let v := onQuad gb v 2 6 10 14
  let v := onQuad gb v 3 7 11 15
  let v := onQuad gb v 0 5 10 15
  let v := onQuad gb v 1 6 11 12
  let v := onQuad gb v 2 7 8 13
  onQuad gb v 3 4 9 14

/-- The 16 words of row i of the grid: w[16i] … w[16i + 15] (R193, R194). -/
def gridRow (B : Block) (i : Fin 8) : Vector U64 16 :=
  Vector.ofFn fun k : Fin 16 => B[16 * i.val + k.val]

/-- The 16 words of column j of the grid: words 16k + 2j and 16k + 2j + 1 for k = 0 … 7 (R193, R195). -/
def gridColumn (B : Block) (j : Fin 8) : Vector U64 16 :=
  Vector.ofFn fun k : Fin 16 => B[16 * (k.val / 2) + 2 * j.val + k.val % 2]

/-- The row step: P on each of the eight rows, written back to the same words (R194). -/
def rowStep (B : Block) : Block :=
  let rows := Vector.ofFn fun i : Fin 8 => permP (gridRow B i)
  Vector.ofFn fun w : Fin 128 => (rows[w.val / 16])[w.val % 16]

/-- The column step: P on each of the eight columns, written back to the same words (R195). -/
def columnStep (B : Block) : Block :=
  let cols := Vector.ofFn fun j : Fin 8 => permP (gridColumn B j)
  Vector.ofFn fun w : Fin 128 => (cols[w.val % 16 / 2])[2 * (w.val / 16) + w.val % 2]

/-- Perm(R): rows first, then columns (R196). -/
def permute (R : Block) : Block := columnStep (rowStep R)

/-- G(X, Y): R ⊕ Perm(R) with R = X ⊕ Y (R197). -/
def compress (X Y : Block) : Block :=
  let R := xorBlock X Y
  xorBlock R (permute R)

/-- G (R200). -/
def execG (s : State) : Host.Outcome State Fault Refusal :=
  let x := s.operand 0
  let y := s.operand 1
  let d := s.operand 2
  if !(s.blockOk x && s.blockOk y && s.blockOk d) then .next (s.raiseError .range)
  else .next (s.withLmem (s.lmem.writeBlock d (compress (s.lmem.readBlock x) (s.lmem.readBlock y)))).complete

/-- GX (R201). -/
def execGx (s : State) : Host.Outcome State Fault Refusal :=
  let x := s.operand 0
  let y := s.operand 1
  let d := s.operand 2
  if !(s.blockOk x && s.blockOk y && s.blockOk d) then .next (s.raiseError .range)
  else
    .next (s.withLmem (s.lmem.writeBlock d
      (xorBlock (s.lmem.readBlock d) (compress (s.lmem.readBlock x) (s.lmem.readBlock y))))).complete

/-- PERM (R202); ARG1 is unused. -/
def execPerm (s : State) : Host.Outcome State Fault Refusal :=
  let x := s.operand 0
  let d := s.operand 2
  if !(s.blockOk x && s.blockOk d) then .next (s.raiseError .range)
  else .next (s.withLmem (s.lmem.writeBlock d (permute (s.lmem.readBlock x)))).complete

end Sys2Proof.Machine
end

