-- ==== Sys2Proof/Machine/Addressing.lean ====
section
/-! DEFINITION. The addressing rule: the reference-index function, address blocks, and the commands REFIDX and ADDRGEN
(spec/43_addressing.md R220–R241). A position is (r, s, l, i): pass, slice, lane and index within the segment. -/

namespace Sys2Proof.Machine

/-- Data-independent addressing: pass 0, slices 0 and 1 (R220). -/
def dataIndependent (r s : Nat) : Bool := decide (r = 0) && decide (s < 2)

/-- The address input block Zin(r, l, s, k): the words r, l, s, m′, t, 2, k, then zeros; each zero-extended (R223). -/
def addrInput (c : Cfg) (r s l k : Nat) : Block :=
  let ws : Vector U64 7 := #v[BitVec.ofNat 64 r, BitVec.ofNat 64 l, BitVec.ofNat 64 s, c.mp.setWidth 64,
    c.t.setWidth 64, BitVec.ofNat 64 Config.argon2Type, BitVec.ofNat 64 k]
  Vector.ofFn fun w : Fin 128 => if h : w.val < 7 then ws[w.val] else 0

/-- AddrBlock(r, l, s, k) = G(ZERO, G(ZERO, Zin(r, l, s, k))) (R224). -/
def addrBlock (c : Cfg) (r s l k : Nat) : Block :=
  compress zeroBlock (compress zeroBlock (addrInput c r s l k))

/-- The J of a data-independent position: word i mod 128 of the address block with counter floor(i/128) + 1 (R225). -/
def independentWord (c : Cfg) (r s l i : Nat) : U64 :=
  (addrBlock c r s l (i / 128 + 1))[i % 128]

/-- The reference lane: J2 mod p, but the current lane in slice 0 of pass 0 (R226). -/
def refLane (c : Cfg) (r s l J2 : Nat) : Nat := if r = 0 ∧ s = 0 then l else J2 % c.p.toNat

/-- The reference area size W (R228). -/
def refArea (c : Cfg) (r s i : Nat) (same : Bool) : Nat :=
  let first := if i = 0 then 1 else 0
  if r = 0 then
    if s = 0 then i - 1
    else if same then s * c.sl.toNat + i - 1 else s * c.sl.toNat - first
  else
    if same then c.q.toNat - c.sl.toNat + i - 1 else c.q.toNat - c.sl.toNat - first

/-- The relative position z of J1 in an area of W columns (R229). -/
def refRelative (W J1 : Nat) : Nat :=
  let x := J1 * J1 / 2 ^ 32
  let y := W * x / 2 ^ 32
  W - 1 - y

/-- The start position (R230). -/
def refStart (c : Cfg) (r s : Nat) : Nat := if r = 0 ∨ s = 3 then 0 else (s + 1) * c.sl.toNat

/-- What RefIndex returns: the reference lane and column, W and the start position (R232). -/
structure RefResult where
  lane : Nat
  column : Nat
  area : Nat
  start : Nat
  deriving DecidableEq, Repr

/-- RefIndex(r, s, l, i, J1, J2) (R226–R232). -/
def refIndex (c : Cfg) (r s l i J1 J2 : Nat) : RefResult :=
  let rl := refLane c r s l J2
  let W := refArea c r s i (decide (rl = l))
  let st := refStart c r s
  ⟨rl, (st + refRelative W J1) % c.q.toNat, W, st⟩

/-- The domain of RefIndex (R232): s < 4, l < p, i < SL, and i ≥ 2 in slice 0 of pass 0. -/
def positionOk (c : Cfg) (r s l i : Nat) : Bool :=
  decide (s < 4) && decide (l < c.p.toNat) && decide (i < c.sl.toNat) && !(decide (r = 0) && decide (s = 0) && decide (i < 2))

/-- REFIDX (R240). -/
def execRefidx (s : State) : Host.Outcome State Fault Refusal :=
  if !s.status.cfgok then .next (s.raiseError .notConfigured)
  else if !positionOk s.cfg (s.operand 0) (s.operand 1) (s.operand 2) (s.operand 3) then
    .next (s.raiseError .invalidParams)
  else
    let x := refIndex s.cfg (s.operand 0) (s.operand 1) (s.operand 2) (s.operand 3) (s.operand 4) (s.operand 5)
    .next (s.withRes ⟨BitVec.ofNat 32 x.lane, BitVec.ofNat 32 x.column, BitVec.ofNat 32 x.area,
      BitVec.ofNat 32 x.start⟩).complete

/-- ADDRGEN (R241); r, s, l and k are not range-checked. -/
def execAddrgen (s : State) : Host.Outcome State Fault Refusal :=
  let d := s.operand 4
  if !s.status.cfgok then .next (s.raiseError .notConfigured)
  else if !s.blockOk d then .next (s.raiseError .range)
  else
    .next (s.withLmem (s.lmem.writeBlock d
      (addrBlock s.cfg (s.operand 0) (s.operand 1) (s.operand 2) (s.operand 3)))).complete

end Sys2Proof.Machine
end

