-- ==== Sys2Proof/Machine/Control.lean ====
section
/-! DEFINITION. NOP, CONFIG and ZEROIZE (spec/40_control.md R120–R126). -/

namespace Sys2Proof.Machine

/-- NOP (R120): `complete()`. -/
def execNop (s : State) : Host.Outcome State Fault Refusal := .next s.complete

/-- The parameter bounds of CONFIG (R121, R123): p ≥ 1, p ≤ P_MAX, t ≥ 1 and m ≥ 8p. -/
def paramsOk (p m t : Nat) : Bool :=
  decide (1 ≤ p) && decide (p ≤ Config.pMax) && decide (1 ≤ t) && decide (8 * p ≤ m)

/-- m′ = 4p · floor(m / 4p) (R122). -/
def roundedBlocks (p m : Nat) : Nat := 4 * p * (m / (4 * p))

/-- What a successful CONFIG latches (R121): p, m and t as given, m′, q = m′/p and SL = m′/4p. -/
def configured (p m t : Word) : Cfg :=
  let mp := roundedBlocks p.toNat m.toNat
  { p := p
    m := m
    t := t
    mp := BitVec.ofNat 32 mp
    q := BitVec.ofNat 32 (mp / p.toNat)
    sl := BitVec.ofNat 32 (mp / (4 * p.toNat)) }

/-- CONFIG (R121–R124). -/
def execConfig (s : State) : Host.Outcome State Fault Refusal :=
  if !paramsOk (s.operand 0) (s.operand 1) (s.operand 2) then
    .next ((s.withCfgok false).raiseError .invalidParams)
  else if s.lmemBlocks < roundedBlocks (s.operand 0) (s.operand 1) then
    .next ((s.withCfgok false).raiseError .resourceExhausted)
  else
    .next (((s.withCfg (configured (s.argl.get 0) (s.argl.get 1) (s.argl.get 2))).withCfgok true).complete)

/-- ZEROIZE (R125, R126): every LMEM byte and RES0–RES3 become 0. -/
def execZeroize (s : State) : Host.Outcome State Fault Refusal :=
  .next ((s.withLmem Memory.allZero).withRes Res.zero).complete

end Sys2Proof.Machine
end

