-- ==== Sys2Proof/Machine/KeyExpander.lean ====
section
/-! DEFINITION. BLAKE2b, the variable-length hash H′, and the commands HASH and HPRIME
(spec/41_keyexpander.md R150–R178). -/

namespace Sys2Proof.Machine

/-- The BLAKE2b initialisation vector (R150). -/
def blakeIv : Vector U64 8 :=
  #v[0x6A09E667F3BCC908, 0xBB67AE8584CAA73B, 0x3C6EF372FE94F82B, 0xA54FF53A5F1D36F1,
     0x510E527FADE682D1, 0x9B05688C2B3E6C1F, 0x1F83D9ABFB41BD6B, 0x5BE0CD19137E2179]

/-- The ten rows of the message schedule SIGMA (R151). -/
def blakeSigma : Vector (Vector (Fin 16) 16) 10 :=
  #v[#v[0, 1, 2, 3, 4, 5, 6, 7, 8, 9, 10, 11, 12, 13, 14, 15],
     #v[14, 10, 4, 8, 9, 15, 13, 6, 1, 12, 0, 2, 11, 7, 5, 3],
     #v[11, 8, 12, 0, 5, 2, 15, 13, 10, 14, 3, 6, 7, 1, 9, 4],
     #v[7, 9, 3, 1, 13, 12, 11, 14, 2, 6, 5, 10, 4, 0, 15, 8],
     #v[9, 0, 5, 7, 2, 4, 10, 15, 14, 1, 11, 12, 6, 8, 3, 13],
     #v[2, 12, 6, 10, 0, 11, 8, 3, 4, 13, 7, 5, 15, 14, 1, 9],
     #v[12, 5, 1, 15, 14, 13, 4, 10, 0, 7, 6, 3, 9, 2, 8, 11],
     #v[13, 11, 7, 14, 12, 1, 3, 9, 5, 0, 15, 4, 8, 6, 2, 10],
     #v[6, 15, 14, 9, 11, 3, 0, 8, 12, 2, 13, 7, 1, 4, 10, 5],
     #v[10, 2, 8, 4, 7, 6, 1, 5, 15, 11, 9, 14, 3, 12, 13, 0]]

/-- B2G on its four words, with message words x and y (R152). -/
def b2g (x y : U64) (q : Quad) : Quad :=
  let a := q.a + q.b + x
  let d := rotr64 (q.d ^^^ a) 32
  let c := q.c + d
  let b := rotr64 (q.b ^^^ c) 24
  let a := a + b + y
  let d := rotr64 (d ^^^ a) 16
  let c := c + d
  let b := rotr64 (b ^^^ c) 63
  ⟨a, b, c, d⟩

/-- One round of the compression function: the eight calls of B2G with schedule row `σ` (R153). -/
def blakeRound (m : Vector U64 16) (v : Vector U64 16) (σ : Vector (Fin 16) 16) : Vector U64 16 :=
  let v := onQuad (b2g m[σ[0]] m[σ[1]]) v 0 4 8 12
  let v := onQuad (b2g m[σ[2]] m[σ[3]]) v 1 5 9 13
  let v := onQuad (b2g m[σ[4]] m[σ[5]]) v 2 6 10 14
  let v := onQuad (b2g m[σ[6]] m[σ[7]]) v 3 7 11 15
  let v := onQuad (b2g m[σ[8]] m[σ[9]]) v 0 5 10 15
  let v := onQuad (b2g m[σ[10]] m[σ[11]]) v 1 6 11 12
  let v := onQuad (b2g m[σ[12]] m[σ[13]]) v 2 7 8 13
  onQuad (b2g m[σ[14]] m[σ[15]]) v 3 4 9 14

/-- The working vector before the first round: h, then IV, with the byte counter t and the final flag f (R153). -/
def blakeInit (h : Vector U64 8) (t : Nat) (f : Bool) : Vector U64 16 :=
  let v : Vector U64 16 := h ++ blakeIv
  let v := v.set 12 (v[12] ^^^ BitVec.ofNat 64 t)
  let v := v.set 13 (v[13] ^^^ BitVec.ofNat 64 (t / 2 ^ 64))
  if f then v.set 14 (v[14] ^^^ 0xFFFFFFFFFFFFFFFF#64) else v

/-- The compression function F(h, m, t, f): twelve rounds, round i with row i mod 10 (R151, R153). -/
def blakeF (h : Vector U64 8) (m : Vector U64 16) (t : Nat) (f : Bool) : Vector U64 8 :=
  let v := (List.range 12).foldl
    (fun v i => blakeRound m v (blakeSigma[i % 10]'(Nat.mod_lt _ (by decide)))) (blakeInit h t f)
  Vector.ofFn fun i : Fin 8 => h[i] ^^^ v[i.val] ^^^ v[i.val + 8]

/-- The chaining value before the first block: IV with the parameter block in word 0 (R155). -/
def blakeStart (nn : Nat) : Vector U64 8 :=
  blakeIv.set 0 (blakeIv[0] ^^^ 0x0000000001010000#64 ^^^ BitVec.ofNat 64 nn)

/-- The number of 128-byte blocks of a message of `ll` bytes; the empty message has one (R155). -/
def blakeBlocks (ll : Nat) : Nat := max 1 ((ll + 127) / 128)

/-- BLAKE2b(nn, M): the unkeyed hash with digest length nn, 1 ≤ nn ≤ 64 (R155, R156). -/
def blake2b (nn : Nat) (M : Bytes) : Bytes :=
  let ll := M.length
  let dd := blakeBlocks ll
  let h := (List.range (dd - 1)).foldl
    (fun h i => blakeF h (leWords 16 ((M.drop (128 * i)).take 128)) (128 * (i + 1)) false) (blakeStart nn)
  let last := M.drop (128 * (dd - 1)) ++ zeros (128 * dd - ll)
  (leBytes (blakeF h (leWords 16 last) ll true).toList).take nn

/-- The output of the H′ chain from the value V on, `k` more 64-byte values being chained after it: the first half of
each, then the final hash of digest length `last` (R166). -/
def hprimeChain (last : Nat) : Nat → Bytes → Bytes
  | 0, V => V.take 32 ++ blake2b last V
  | k + 1, V => V.take 32 ++ hprimeChain last k (blake2b 64 V)

/-- Hprime(τ, X) (R165 for τ ≤ 64, R166 for τ > 64). -/
def hprime (τ : Nat) (X : Bytes) : Bytes :=
  let A := le32 (BitVec.ofNat 32 τ) ++ X
  if τ ≤ 64 then blake2b τ A
  else
    let r := (τ + 31) / 32 - 2
    hprimeChain (τ - 32 * r) (r - 1) (blake2b 64 A)

/-- HASH (R175). -/
def execHash (s : State) : Host.Outcome State Fault Refusal :=
  let src := s.operand 0
  let len := s.operand 1
  let dst := s.operand 2
  let nn := s.operand 3
  if nn < 1 || 64 < nn then .next (s.raiseError .invalidParams)
  else if !(s.rangeOk src len && s.rangeOk dst nn) then .next (s.raiseError .range)
  else .next (s.withLmem (s.lmem.writeBytes dst (blake2b nn (s.lmem.readBytes src len)))).complete

/-- HPRIME (R178). -/
def execHprime (s : State) : Host.Outcome State Fault Refusal :=
  let src := s.operand 0
  let len := s.operand 1
  let dst := s.operand 2
  let tau := s.operand 3
  if tau = 0 then .next (s.raiseError .invalidParams)
  else if !(s.rangeOk src len && s.rangeOk dst tau) then .next (s.raiseError .range)
  else .next (s.withLmem (s.lmem.writeBytes dst (hprime tau (s.lmem.readBytes src len)))).complete

end Sys2Proof.Machine
end

