-- ==== Sys2Proof/Machine/Fill.lean ====
section
/-! DEFINITION. Seeding, the segment, slice and pass fill, the final XOR, and the commands SEED, FILLSEG, FILL and FINAL
(spec/44_fill.md R260–R293). -/

namespace Sys2Proof.Machine

/-- Matrix block (l, c) is LMEM block l·q + c (R260). -/
def matrixBlock (c : Cfg) (l col : Nat) : Nat := l * c.q.toNat + col

/-- The previous column: c − 1, and q − 1 before column 0 (R271). -/
def prevColumn (c : Cfg) (col : Nat) : Nat := if col = 0 then c.q.toNat - 1 else col - 1

/-- The pseudo-random word J of position (r, s, l, i): the address block's word in a data-independent segment,
otherwise word 0 of the previous block (R220, R221, R225, R272). -/
def positionWord (c : Cfg) (r s l i : Nat) (prev : Block) : U64 :=
  if dataIndependent r s then independentWord c r s l i else prev[0]

/-- The new block at position (r, s, l, i) over the matrix in `m`, written to its place (R272). -/
def fillPosition (c : Cfg) (r s l i : Nat) (m : Memory) : Memory :=
  let col := s * c.sl.toNat + i
  let prev := m.readBlock (matrixBlock c l (prevColumn c col))
  let J := positionWord c r s l i prev
  let ref := refIndex c r s l i (lo32 J).toNat (hi32 J).toNat
  let N := compress prev (m.readBlock (matrixBlock c ref.lane ref.column))
  let N := if 0 < r then xorBlock N (m.readBlock (matrixBlock c l col)) else N
  m.writeBlock (matrixBlock c l col) N

/-- The first index a segment computes: 2 in slice 0 of pass 0, whose first two columns are the seeds (R274). -/
def fillStart (r s : Nat) : Nat := if r = 0 ∧ s = 0 then 2 else 0

/-- FillSeg(r, s, l): the positions of the segment in ascending order, each seeing the writes before it (R273). -/
def fillSegment (c : Cfg) (r s l : Nat) (m : Memory) : Memory :=
  (List.range' (fillStart r s) (c.sl.toNat - fillStart r s)).foldl (fun m i => fillPosition c r s l i m) m

/-- The segments of slice s of pass r, the lanes in the order given (R275, R277). -/
def fillSlice (c : Cfg) (r s : Nat) (order : List Nat) (m : Memory) : Memory :=
  order.foldl (fun m l => fillSegment c r s l m) m

/-- One pass: slices 0 to 3, each completed before the next begins (R275, R276). -/
def fillPass (c : Cfg) (r : Nat) (m : Memory) : Memory :=
  (List.range 4).foldl (fun m s => fillSlice c r s (List.range c.p.toNat) m) m

/-- Fill(): all passes, the lanes of a slice in ascending order as one agent (R13, R275, R277; log entry 10). -/
def fillAll (c : Cfg) (m : Memory) : Memory :=
  (List.range c.t.toNat).foldl (fun m r => fillPass c r m) m

/-- Seed block (l, col) of an H0: H′(1024, H0 ‖ LE32(col) ‖ LE32(l)) read as a block (R270). -/
def seedBlock (H0 : Bytes) (l col : Nat) : Block :=
  blockOf (hprime 1024 (H0 ++ le32 (BitVec.ofNat 32 col) ++ le32 (BitVec.ofNat 32 l)))

/-- The two seed blocks of one lane (R270, R290). -/
def seedLane (c : Cfg) (H0 : Bytes) (m : Memory) (l : Nat) : Memory :=
  (List.range 2).foldl (fun m col => m.writeBlock (matrixBlock c l col) (seedBlock H0 l col)) m

/-- The seed blocks of every lane (R290). -/
def seedAll (c : Cfg) (H0 : Bytes) (m : Memory) : Memory :=
  (List.range c.p.toNat).foldl (seedLane c H0) m

/-- The pre-key: the XOR of the last column's block across all lanes (R279, R293). -/
def preKey (c : Cfg) (m : Memory) : Block :=
  (List.range c.p.toNat).foldl
    (fun C l => xorBlock C (m.readBlock (matrixBlock c l (c.q.toNat - 1)))) zeroBlock

/-- SEED (R290): H0 is latched before any write. -/
def execSeed (s : State) : Host.Outcome State Fault Refusal :=
  let h := s.operand 0
  if !s.status.cfgok then .next (s.raiseError .notConfigured)
  else if !s.rangeOk h 64 then .next (s.raiseError .range)
  else .next (s.withLmem (seedAll s.cfg (s.lmem.readBytes h 64) s.lmem)).complete

/-- FILLSEG (R291). -/
def execFillseg (s : State) : Host.Outcome State Fault Refusal :=
  let r := s.operand 0
  let sl := s.operand 1
  let l := s.operand 2
  if !s.status.cfgok then .next (s.raiseError .notConfigured)
  else if s.cfg.t.toNat ≤ r || 3 < sl || s.cfg.p.toNat ≤ l then .next (s.raiseError .invalidParams)
  else .next (s.withLmem (fillSegment s.cfg r sl l s.lmem)).complete

/-- FILL (R292). -/
def execFill (s : State) : Host.Outcome State Fault Refusal :=
  if !s.status.cfgok then .next (s.raiseError .notConfigured)
  else .next (s.withLmem (fillAll s.cfg s.lmem)).complete

/-- FINAL (R293). -/
def execFinal (s : State) : Host.Outcome State Fault Refusal :=
  let d := s.operand 0
  if !s.status.cfgok then .next (s.raiseError .notConfigured)
  else if !s.blockOk d then .next (s.raiseError .range)
  else .next (s.withLmem (s.lmem.writeBlock d (preKey s.cfg s.lmem))).complete

end Sys2Proof.Machine
end

