-- ==== Sys2Proof/Machine/Dispatch.lean ====
section
/-! DEFINITION. The meaning of each command: its execution and its completion (spec/60_exceptions.md R303). -/

namespace Sys2Proof.Machine

def exec (i : Instr) (s : State) : Host.Outcome State Fault Refusal :=
  match i with
  | .nop => Sys2Proof.Machine.execNop s
  | .config => Sys2Proof.Machine.execConfig s
  | .zeroize => Sys2Proof.Machine.execZeroize s
  | .hash => Sys2Proof.Machine.execHash s
  | .hprime => Sys2Proof.Machine.execHprime s
  | .g => Sys2Proof.Machine.execG s
  | .gx => Sys2Proof.Machine.execGx s
  | .perm => Sys2Proof.Machine.execPerm s
  | .refidx => Sys2Proof.Machine.execRefidx s
  | .addrgen => Sys2Proof.Machine.execAddrgen s
  | .seed => Sys2Proof.Machine.execSeed s
  | .fillseg => Sys2Proof.Machine.execFillseg s
  | .fill => Sys2Proof.Machine.execFill s
  | .final => Sys2Proof.Machine.execFinal s

end Sys2Proof.Machine
end

