-- ==== Sys2Proof/Machine/Flags.lean ====
section
/-! DEFINITION. The flags as the host sees them: the STATUS and IRQEN words and the IRQ output
(spec/10_state.md R29, R31, R45, R48). The transitions that set and clear the flags are in Ops. -/

namespace Sys2Proof.Machine

/-- The four-bit code of R300. -/
def ErrCode.code : ErrCode → BitVec 4
  | .none => 0
  | .invalidParams => 1
  | .resourceExhausted => 2
  | .illegalCmd => 3
  | .range => 4
  | .notConfigured => 5

/-- The STATUS word a host read returns, field by field from bit 31 down to bit 0 (R29). -/
def State.statusWord (s : State) : Word :=
  0#21 ++ BitVec.ofBool s.status.hbe ++ BitVec.ofBool s.status.ovr ++ BitVec.ofBool s.status.cfgok
    ++ s.status.errcode.code ++ 0#1 ++ BitVec.ofBool s.status.err ++ BitVec.ofBool s.status.done
    ++ BitVec.ofBool s.busy

/-- The IRQEN word a host read returns (R31). -/
def IrqEn.word (x : IrqEn) : Word := 0#30 ++ BitVec.ofBool x.errIe ++ BitVec.ofBool x.doneIe

/-- What a host write of `v` leaves in IRQEN: bits 0 and 1; bits 31:2 are ignored (R31). -/
def IrqEn.ofWord (v : Word) : IrqEn := ⟨v.getLsbD 0, v.getLsbD 1⟩

/-- The IRQ output, a function of STATUS and IRQEN (R45, R307, R308). -/
def State.irq (s : State) : Bool :=
  (s.status.done && s.irqen.doneIe) || (s.status.err && s.irqen.errIe)

end Sys2Proof.Machine
end

