-- ==== Sys2Proof/Machine/HostPort.lean ====
section
/-! DEFINITION. The host port: the address map, the CSR window and the LMEM window (spec/20_memory.md R60–R69,
spec/10_state.md R21–R37). -/

namespace Sys2Proof.Machine

/-- The registers of the CSR window (R24). -/
inductive Csr where
  | id
  | version
  | cmd
  | status
  | irqen
  | arg (k : Fin 6)
  | res (k : Fin 4)
  | cfgP
  | cfgM
  | cfgT
  | cfgMp
  | cfgQ
  | cfgSl
  | cap
  deriving DecidableEq, Repr

/-- The offset of a register in the CSR window (R24). -/
def Csr.offset : Csr → Nat
  | .id => 0x00
  | .version => 0x04
  | .cmd => 0x08
  | .status => 0x0C
  | .irqen => 0x10
  | .arg k => 0x20 + 4 * k.val
  | .res k => 0x40 + 4 * k.val
  | .cfgP => 0x60
  | .cfgM => 0x64
  | .cfgT => 0x68
  | .cfgMp => 0x6C
  | .cfgQ => 0x70
  | .cfgSl => 0x74
  | .cap => 0x7C

/-- Every register of the CSR window. -/
def allCsrs : List Csr :=
  [.id, .version, .cmd, .status, .irqen] ++ (List.finRange 6).map .arg ++ (List.finRange 4).map .res
    ++ [.cfgP, .cfgM, .cfgT, .cfgMp, .cfgQ, .cfgSl, .cap]

/-- The register at a word offset of the CSR window; `none` is a reserved slot (R24, R25). -/
def csrAt (o : Nat) : Option Csr := allCsrs.find? fun c => c.offset == o

/-- What a host address names (R61, R63). -/
inductive Target where
  | csr (o : Nat)
  | lmem (o : Nat)
  | misaligned
  | unmapped
  deriving DecidableEq, Repr

/-- The host address map (R61), for an LMEM of `n` bytes. An access whose address is not a multiple of 4 is misaligned
wherever it points (R63), inside the LMEM window while BUSY = 1 too (DEDUCED, log entry 5). -/
def hostTarget (n : Nat) (a : Word) : Target :=
  if a.toNat % 4 ≠ 0 then .misaligned
  else if Config.csrBase ≤ a.toNat ∧ a.toNat < Config.csrBase + Config.csrBytes then .csr (a.toNat - Config.csrBase)
  else if Config.lmemBase ≤ a.toNat ∧ a.toNat < Config.lmemBase + n then .lmem (a.toNat - Config.lmemBase)
  else .unmapped

/-- What a host read of a CSR returns; it has no side effect (R21–R33, R37). -/
def readCsr (s : State) : Csr → Word
  | .id => Config.idValue
  | .version => Config.versionValue
  | .cmd => s.cmd
  | .status => s.statusWord
  | .irqen => s.irqen.word
  | .arg k => s.args.get k
  | .res k => s.res.get k
  | .cfgP => s.cfg.p
  | .cfgM => s.cfg.m
  | .cfgT => s.cfg.t
  | .cfgMp => s.cfg.mp
  | .cfgQ => s.cfg.q
  | .cfgSl => s.cfg.sl
  | .cap => s.cap

/-- What a host write to a CSR does (R21, R28, R29, R31); a write to a read-only register is ignored (R37). -/
def writeCsr (s : State) (v : Word) : Csr → State
  | .cmd => if s.busy then s.overrun else s.accept v
  | .status => { s with status := s.status.acknowledge v }
  | .irqen => { s with irqen := IrqEn.ofWord v }
  | .arg k => { s with args := s.args.put k v }
  | .id | .version | .res _ | .cfgP | .cfgM | .cfgT | .cfgMp | .cfgQ | .cfgSl | .cap => s

/-- What a read of a CSR slot returns: a reserved slot reads 0 (R25). -/
def readSlot (s : State) (o : Nat) : Word :=
  match csrAt o with
  | some c => readCsr s c
  | none => 0

/-- What a write to a CSR slot does: a write to a reserved slot is ignored (R25). -/
def writeSlot (s : State) (o : Nat) (v : Word) : State :=
  match csrAt o with
  | some c => writeCsr s v c
  | none => s

/-- What a host read of the LMEM window returns (R62). -/
def readWindow (s : State) (o : Nat) : Word := BitVec.ofNat 32 (leNat (s.lmem.readBytes o 4))

/-- What a host write to the LMEM window does (R62). -/
def writeWindow (s : State) (o : Nat) (v : Word) : State := s.withLmem (s.lmem.writeBytes o (le32 v))

/-- One host access (R60–R63). An access to the LMEM window while BUSY = 1 is refused (R69). -/
def hostAccess (s : State) : Access → Host.Outcome State Fault Refusal
  | .read a =>
    match hostTarget s.lmemBytes a with
    | .csr o => .next (s.returned (readSlot s o))
    | .lmem o => if s.busy then .refused (.hostLmemAccessWhileBusy a) else .next (s.returned (readWindow s o))
    | .misaligned | .unmapped => .next (s.hostBusError.returned 0)
  | .write a v =>
    match hostTarget s.lmemBytes a with
    | .csr o => .next (writeSlot s o v)
    | .lmem o => if s.busy then .refused (.hostLmemAccessWhileBusy a) else .next (writeWindow s o v)
    | .misaligned | .unmapped => .next s.hostBusError

end Sys2Proof.Machine
end

