-- ==== Sys2Proof/Machine/Reset.lean ====
section
/-! DEFINITION. The reset input RST (spec/70_reset_and_hazards.md R340–R342). -/

namespace Sys2Proof.Machine

/-- A byte range (first offset, length). -/
abbrev ByteRange := Nat × Nat

/-- The bytes of block b. -/
def blockRange (b : Nat) : ByteRange := (1024 * b, 1024)

/-- The write sets of R342 as byte ranges, for every command but ZEROIZE, whose write set is all of LMEM. They are taken as
the table has them also where the command would have completed with an error (DEDUCED, log entry 7). -/
def writeSet (s : State) : Instr → List ByteRange
  | .nop | .config | .refidx | .zeroize => []
  | .hash | .hprime => [(s.operand 2, s.operand 3)]
  | .g | .gx | .perm => [blockRange (s.operand 2)]
  | .addrgen => [blockRange (s.operand 4)]
  | .final => [blockRange (s.operand 0)]
  | .seed => (List.range s.cfg.p.toNat).flatMap fun l =>
      [blockRange (matrixBlock s.cfg l 0), blockRange (matrixBlock s.cfg l 1)]
  | .fillseg =>
      [(1024 * matrixBlock s.cfg (s.operand 2) (s.operand 1 * s.cfg.sl.toNat), 1024 * s.cfg.sl.toNat)]
  | .fill => [(0, 1024 * s.cfg.mp.toNat)]

/-- The bytes of a range that LMEM has become those of draw `d`. -/
def drawRange (n d : Nat) (m : Memory) (x : ByteRange) : Memory := m.drawBytes d x.1 (min x.2 (n - x.1))

/-- LMEM after a reset abandons command `i`: every byte of its write set is free, the others are unchanged (R342). -/
def abandonedLmem (s : State) : Instr → Memory
  | .zeroize => Memory.allDraw s.draws
  | i => (writeSet s i).foldl (drawRange s.lmemBytes s.draws) s.lmem

/-- LMEM after RST: unchanged when no command runs (R340, R47) or the running word is illegal (R94; log entry 7). -/
def resetLmem (s : State) : Memory :=
  match s.latch with
  | none => s.lmem
  | some r =>
    match decode r.word with
    | some i => abandonedLmem s i
    | none => s.lmem

/-- RST (R340, R341): every register to its reset value, the running command abandoned with no completion; the capacity
is the hardware's and stays. -/
def rst (s : State) : State :=
  { State.reset with
    cap := s.cap
    lmem := resetLmem s
    inputs := s.inputs
    reads := s.reads
    draws := s.draws + 1 }

end Sys2Proof.Machine
end

