-- ==== Sys2Proof/Machine/Sequencer.lean ====
section
/-! DEFINITION. The step of the command sequencer SEQ, and the choice of the agent that moves
(spec/00_scope.md R13, spec/70_reset_and_hazards.md R356). -/

namespace Sys2Proof.Machine

/-- One SEQ step (R303, R356): the running command executes and completes; an illegal word completes with ILLEGAL_CMD
and changes nothing else (R94); with no command running the engine is idle (R344). -/
def seqStep (s : State) : Host.Outcome State Fault Refusal :=
  match s.latch with
  | none => .next s
  | some r =>
    match decode r.word with
    | some i => exec i s
    | none => .next (s.raiseError .illegalCmd)

/-- One input taken. -/
def takeInput (s : State) : Input → Host.Outcome State Fault Refusal
  | .host x => hostAccess s x
  | .seq => seqStep s
  | .rst => .next (rst s)

/-- The state with command word `w` latched as the running command and SEQ to move next. -/
def State.issued (s : State) (w : Word) : State := { s.accept w with inputs := .seq :: s.inputs }

end Sys2Proof.Machine
end

