-- ==== Sys2Proof/Machine/Step.lean ====
section
/-! DEFINITION. One step of the machine: the next input of the schedule is taken; with none left, SEQ moves. -/

namespace Sys2Proof.Machine

/-- One step. Which agent moves is the data of `inputs`: HOST accesses, SEQ steps and RST in any interleaving (R13, R356).
With no input left the sequencer moves, so a running command completes (R356: commands always terminate). The schedule
as data is a DESIGN CHOICE (log entry 3). -/
def step (s : State) : Host.Outcome State Fault Refusal :=
  match s.inputs with
  | [] => seqStep s
  | x :: rest => takeInput { s with inputs := rest } x

/-- `s` with the command word `w` of an opcode-table row of `nbits` bits accepted as the running command, so that the very
next step executes and completes it (log entry 4). -/
def State.withFetchWord (s : State) (nbits w : Nat) : State := s.issued (BitVec.ofNat 32 (w % 2 ^ nbits))

end Sys2Proof.Machine
end

