-- ==== Sys2Proof/Machine/Script.lean ====
section
/-! DEFINITION. The host's side of the port: host scripts and how they run (spec/30_encoding.md R110–R113), and the host
procedures that use the engine, the H0 layout and the derivation (spec/44_fill.md R281, R282). The machine calls none of
it. A script reads what the machine answers, so its run is a function of the machine's state and of when SEQ moves; what
it did is a list of inputs of the machine. -/

namespace Sys2Proof.Machine

/-! Statements -/

/-- The statements of a host script: the plain ones of R110, the command pseudo-instruction of R111 and the data
pseudo-instructions of R112. -/
inductive Stmt where
  | wr (c : Csr) (v : Word)
  | wrm (o : Nat) (v : Word)
  | rd (c : Csr)
  | rdm (o : Nat)
  | wait
  | check
  | command (i : Instr) (ops : List Word)
  | loadb (o : Nat) (S : Bytes)
  | loadw (o : Nat) (vs : List Word)
  | readb (o n : Nat)
  deriving DecidableEq, Repr

/-- The well-formed statements. LMEM offsets are multiples of 4: R110 and R112 say so of WRM, LOADB and so of LOADW, and
leave it open for RDM and READB, where it is the model's choice (DESIGN CHOICE, log entry 16). Their words have host
addresses below 2^32 (DESIGN CHOICE, log entry 15). A command has at most six operands (R111). -/
def Stmt.wf : Stmt → Bool
  | .wrm o _ | .rdm o => decide (o % 4 = 0) && decide (Config.lmemBase + o < 2 ^ 32)
  | .loadb o S => decide (o % 4 = 0) && decide (Config.lmemBase + o + S.length ≤ 2 ^ 32)
  | .loadw o vs => decide (o % 4 = 0) && decide (Config.lmemBase + o + 4 * vs.length ≤ 2 ^ 32)
  | .readb o n => decide (o % 4 = 0) && decide (Config.lmemBase + o + n ≤ 2 ^ 32)
  | .command _ ops => decide (ops.length ≤ 6)
  | .wr _ _ | .rd _ | .wait | .check => true

/-- The host address of a register (R110). -/
def csrAddress (c : Csr) : Word := BitVec.ofNat 32 (Config.csrBase + c.offset)

/-- The host address of LMEM byte offset `o` (R110). R110 gives no meaning to an `o` with LMEM_BASE + o ≥ 2^32: such a
statement is ill-formed here, and this address of it wraps modulo 2^32 (DESIGN CHOICE, log entry 15). -/
def lmemAddress (o : Nat) : Word := BitVec.ofNat 32 (Config.lmemBase + o)

/-- The writes of the words `vs` to consecutive LMEM words from offset `o`, as (address, value) pairs (R112). -/
def wordWrites (o : Nat) : List Word → List (Word × Word)
  | [] => []
  | v :: vs => (lmemAddress o, v) :: wordWrites (o + 4) vs

/-- The words of LOADB: `S` padded with zeros to a multiple of 4 bytes, little-endian (R112). -/
def paddedWords (S : Bytes) : List Word :=
  (List.range ((S.length + 3) / 4)).map fun j => BitVec.ofNat 32 (leNat (((S ++ zeros 3).drop (4 * j)).take 4))

/-- The addresses READB reads, one for each word (R112). -/
def readAddresses (o n : Nat) : List Word := (List.range ((n + 3) / 4)).map fun j => lmemAddress (o + 4 * j)

/-- The result of READB: the first `n` bytes of the words read, each least significant byte first (R112, R62). -/
def bytesRead (n : Nat) (ws : List Word) : Bytes := (ws.flatMap le32).take n

/-- The writes of a command statement: the operands given, in ARG order, then the command word (R111). There are six ARG
registers: operands above the sixth make the statement ill-formed and are not written (log entry 15). -/
def commandWrites (i : Instr) (ops : List Word) : List (Word × Word) :=
  ((List.finRange 6).zip ops).map (fun x => (csrAddress (.arg x.1), x.2)) ++ [(csrAddress .cmd, encode i)]

/-! The run of a script -/

/-- A host at work: the machine, when SEQ moves, and the inputs made so far, the first first. The schedule has one entry
for each bus transaction to come: whether SEQ moves before it; when it is used up, SEQ moves before a transaction
whenever a command runs (R356: any number of host steps may come before a completion, and a command terminates; log
entry 13). -/
structure Bus where
  machine : State
  schedule : List Bool
  trace : List Input
  deriving DecidableEq, Repr

/-- What the host gets: an answer, or the stop of the machine. -/
abbrev HostResult (α : Type) := Host.Outcome α Fault Refusal

/-- Go on with the answer. -/
def andThen {α β : Type} (x : HostResult α) (f : α → HostResult β) : HostResult β :=
  match x with
  | .next a => f a
  | .fault r => .fault r
  | .refused r => .refused r

/-- One input of the machine, added to the trace. -/
def Bus.take (b : Bus) (x : Input) : HostResult Bus :=
  andThen (takeInput b.machine x) fun t => .next { b with machine := t, trace := b.trace ++ [x] }

/-- SEQ moves before the next transaction, or not, as the schedule says. -/
def Bus.seqTurn (b : Bus) : HostResult Bus :=
  match b.schedule with
  | true :: rest => { b with schedule := rest }.take .seq
  | false :: rest => .next { b with schedule := rest }
  | [] => if b.machine.busy then b.take .seq else .next b

/-- One bus transaction (R60, R113). -/
def Bus.access (b : Bus) (x : Access) : HostResult Bus := andThen b.seqTurn fun b => b.take (.host x)

/-- One host read and the word it returns (R110). -/
def Bus.read (b : Bus) (a : Word) : HostResult (Bus × Word) :=
  andThen (b.access (.read a)) fun b => .next (b, b.machine.reads.headD 0)

/-- Host writes of (address, value) pairs, in order. -/
def Bus.writes : List (Word × Word) → Bus → HostResult Bus
  | [], b => .next b
  | x :: xs, b => andThen (b.access (.write x.1 x.2)) (Bus.writes xs)

/-- Host reads of a list of addresses, in order, and the words they return. -/
def Bus.reads : List Word → Bus → HostResult (Bus × List Word)
  | [], b => .next (b, [])
  | a :: as, b => andThen (b.read a) fun x => andThen (Bus.reads as x.1) fun y => .next (y.1, x.2 :: y.2)

/-- Reads of STATUS until bit 0 reads 0, at most `n + 1` of them. -/
def Bus.poll : Nat → Bus → HostResult Bus
  | 0, b => andThen (b.read (csrAddress .status)) fun x => .next x.1
  | n + 1, b => andThen (b.read (csrAddress .status)) fun x => if x.2.getLsbD 0 then Bus.poll n x.1 else .next x.1

/-- WAIT (R110, R113): STATUS is read until BUSY reads 0. Each read uses up one entry of the schedule, and after the last
entry a running command completes, so the bound of `poll` is never what ends it. -/
def Bus.wait (b : Bus) : HostResult Bus := Bus.poll b.schedule.length b

/-- The result of a statement: none, the word an RD or RDM read, the bytes of a READB, or the failure of a CHECK. -/
inductive StmtResult where
  | none
  | word (v : Word)
  | bytes (S : Bytes)
  | failed
  deriving DecidableEq, Repr

/-- The test of CHECK on the STATUS word read: the script fails if ERR is 1 (R110). -/
def checkPasses (status : Word) : Bool := !status.getLsbD 2

/-- CHECK (R110): STATUS is read; with ERR = 1 the script fails, otherwise DONE is cleared. -/
def Bus.check (b : Bus) : HostResult (Bus × StmtResult) :=
  andThen (b.read (csrAddress .status)) fun x =>
    if checkPasses x.2 then andThen (x.1.access (.write (csrAddress .status) 0x2#32)) fun b => .next (b, .none)
    else .next (x.1, .failed)

/-- A read as a statement. -/
def Bus.readStmt (b : Bus) (a : Word) : HostResult (Bus × StmtResult) :=
  andThen (b.read a) fun x => .next (x.1, .word x.2)

/-- Writes as a statement. -/
def Bus.writeStmt (b : Bus) (xs : List (Word × Word)) : HostResult (Bus × StmtResult) :=
  andThen (Bus.writes xs b) fun b => .next (b, .none)

/-- The run of one statement (R110–R112). -/
def Stmt.run (b : Bus) : Stmt → HostResult (Bus × StmtResult)
  | .wr c v => b.writeStmt [(csrAddress c, v)]
  | .wrm o v => b.writeStmt [(lmemAddress o, v)]
  | .rd c => b.readStmt (csrAddress c)
  | .rdm o => b.readStmt (lmemAddress o)
  | .wait => andThen b.wait fun b => .next (b, .none)
  | .check => b.check
  | .command i ops => andThen (Bus.writes (commandWrites i ops) b) fun b => andThen b.wait fun b => .next (b, .none)
  | .loadb o S => b.writeStmt (wordWrites o (paddedWords S))
  | .loadw o vs => b.writeStmt (wordWrites o vs)
  | .readb o n => andThen (Bus.reads (readAddresses o n) b) fun x => .next (x.1, .bytes (bytesRead n x.2))

/-- The run of a script, and the results of the statements run: it ends at its last statement, or at the CHECK where it
fails (R110). -/
def runScript : List Stmt → Bus → HostResult (Bus × List StmtResult)
  | [], b => .next (b, [])
  | st :: p, b => andThen (st.run b) fun x =>
    if x.2 = .failed then .next (x.1, [.failed])
    else andThen (runScript p x.1) fun y => .next (y.1, x.2 :: y.2)

/-- The script failed at a CHECK. -/
def scriptFailed (rs : List StmtResult) : Bool := rs.contains .failed

/-- The bus transactions of a trace: the encoding of the script that made it (R113). -/
def transactions (l : List Input) : List Access :=
  l.filterMap fun
    | .host x => some x
    | .seq | .rst => none

/-! The host procedures -/

/-- The H0 input string of the cost parameters, tag length, password, salt, secret and associated data (R281). LE32 takes
bits 31:0 of a length (R9). -/
def h0Input (p τ m t : Word) (P S K X : Bytes) : Bytes :=
  let field (F : Bytes) : Bytes := le32 (BitVec.ofNat 32 F.length) ++ F
  le32 p ++ le32 τ ++ le32 m ++ le32 t ++ le32 (BitVec.ofNat 32 Config.argon2Version)
    ++ le32 (BitVec.ofNat 32 Config.argon2Type) ++ field P ++ field S ++ field K ++ field X

/-- The operands of a derivation (R281, R282): the parameters and strings, and the scratch places in LMEM: the byte
offsets `a` of the H0 input, `h` of H0 and `o` of the tag, and the block `f` of the pre-key. Each place is an operand of a
command, so a 32-bit word (R6, R64). -/
structure Derivation where
  p : Word
  τ : Word
  m : Word
  t : Word
  P : Bytes
  S : Bytes
  K : Bytes
  X : Bytes
  a : Word
  h : Word
  f : Word
  o : Word
  deriving DecidableEq, Repr

/-- The matrix blocks m′ of the parameters (R122). -/
def Derivation.blocks (d : Derivation) : Nat := roundedBlocks d.p.toNat d.m.toNat

/-- The byte offset 1024·f of the pre-key (R282). It is an operand of HPRIME, so R6 bounds it as well: a derivation with
1024·f ≥ 2^32 is ill-formed, and the operand of an ill-formed one wraps modulo 2^32 (DESIGN CHOICE, log entry 17). -/
def Derivation.preKeyOffset (d : Derivation) : Nat := 1024 * d.f.toNat

/-- The duty of R282: the scratch offsets lie at or above 1024·m′. -/
def Derivation.scratchOk (d : Derivation) : Bool :=
  [d.a.toNat, d.h.toNat, d.preKeyOffset, d.o.toNat].all fun x => decide (1024 * d.blocks ≤ x)

/-- The derivation sequence (R282), from ZEROIZE to ZEROIZE, with a CHECK after each command. -/
def Derivation.script (d : Derivation) : List Stmt :=
  let H0in := h0Input d.p d.τ d.m d.t d.P d.S d.K d.X
  let w (n : Nat) : Word := BitVec.ofNat 32 n
  [.command .zeroize [], .check, .command .config [d.p, d.m, d.t], .check, .loadb d.a.toNat H0in,
   .command .hash [d.a, w H0in.length, d.h, 64], .check, .command .seed [d.h], .check, .command .fill [], .check,
   .command .final [d.f], .check, .command .hprime [w d.preKeyOffset, 1024, d.o, d.τ], .check,
   .readb d.o.toNat d.τ.toNat, .command .zeroize [], .check]

/-- A well-formed derivation: its scratch places are where R282 wants them, the operand 1024·f is a 32-bit word (log entry
17) and its statements are well-formed, which bounds the length of the H0 input as well. The engine checks none of it. -/
def Derivation.wf (d : Derivation) : Bool :=
  d.scratchOk && decide (d.preKeyOffset < 2 ^ 32) && d.script.all Stmt.wf

/-- What the host still does where a CHECK of the derivation failed, before it gives up (R282, R345). -/
def cleanupScript : List Stmt := [.command .zeroize [], .check]

/-- The tag among the results of a derivation: the bytes of its READB. -/
def tagAmong (rs : List StmtResult) : Option Bytes :=
  rs.findSome? fun
    | .bytes S => some S
    | .none | .word _ | .failed => none

/-- The derivation (R282): the tag, or none where a command completed with an error; LMEM is zeroized on both paths. -/
def Derivation.run (d : Derivation) (b : Bus) : HostResult (Bus × Option Bytes) :=
  andThen (runScript d.script b) fun x =>
    if scriptFailed x.2 then andThen (runScript cleanupScript x.1) fun y => .next (y.1, none)
    else .next (x.1, tagAmong x.2)

end Sys2Proof.Machine
end

