-- ==== Sys2Proof/Safety.lean ====
section
/-! DEFINITION. What the claims speak of: the invariant of the machine, when a run is safe, and the frame of a step. -/

namespace Sys2Proof.Machine

/-- The configuration invariant of R34, for a capacity of `n` blocks. -/
structure Cfg.Valid (c : Cfg) (n : Nat) : Prop where
  lanes_pos : 1 ≤ c.p.toNat
  lanes_le : c.p.toNat ≤ Config.pMax
  passes_pos : 1 ≤ c.t.toNat
  memory_ge : 8 * c.p.toNat ≤ c.m.toNat
  blocks_eq : c.mp.toNat = 4 * c.p.toNat * (c.m.toNat / (4 * c.p.toNat))
  blocks_ge : 8 * c.p.toNat ≤ c.mp.toNat
  blocks_le : c.mp.toNat ≤ c.m.toNat
  blocks_fit : c.mp.toNat ≤ n
  columns_eq : c.q.toNat = c.mp.toNat / c.p.toNat
  columns_mod : c.q.toNat % 4 = 0
  columns_ge : 8 ≤ c.q.toNat
  segment_eq : c.sl.toNat = c.q.toNat / 4
  segment_ge : 2 ≤ c.sl.toNat

/-- The invariant of the machine. -/
structure State.Inv (s : State) : Prop where
  /-- The capacity is a legal one (R5). -/
  capacity_ge : Config.lmemBlocksMin ≤ s.lmemBlocks
  capacity_le : s.lmemBlocks ≤ Config.lmemBlocksMax
  /-- ERRCODE is 0 exactly when ERR is 0 (R29, R300). -/
  errcode_iff : s.status.errcode = .none ↔ s.status.err = false
  /-- DONE and ERR are 0 while BUSY = 1 (R352). -/
  busy_done : s.busy = true → s.status.done = false
  busy_err : s.busy = true → s.status.err = false
  /-- CMD reads back the word of the running command (R40). -/
  latched_word : ∀ r, s.latch = some r → s.cmd = r.word
  /-- While CFGOK = 1 the CFG registers hold a valid configuration (R34). -/
  cfg_valid : s.status.cfgok = true → s.cfg.Valid s.lmemBlocks
  /-- LMEM is in its canonical form and lists no byte it does not have (R35). -/
  lmem_wf : s.lmem.wf = true
  lmem_inside : s.lmem.inside s.lmemBytes = true
  /-- The draw of the unlisted bytes has been taken, so the next one is fresh. -/
  draw_taken : ∀ n, s.lmem.background = .draw n → n < s.draws

/-- A host access reaches the LMEM window: aligned and mapped there (R61, R63). -/
def State.reachesLmem (s : State) : Access → Bool
  | .read a | .write a _ =>
    match hostTarget s.lmemBytes a with
    | .lmem _ => true
    | .csr _ | .misaligned | .unmapped => false

/-- The next input breaks the host's duty of R350: it accesses the LMEM window while BUSY = 1. -/
def State.breaksDuty (s : State) : Bool :=
  match s.inputs with
  | .host x :: _ => s.busy && s.reachesLmem x
  | .seq :: _ | .rst :: _ | [] => false

/-- A run of `k` steps is safe: it is never refused. -/
def SafeRun (k : Nat) (s : State) : Prop := ∃ t, Sys2Proof.core.run k s = .next t

/-- LMEM of `t` agrees with LMEM of `s` outside the byte range (a, n). -/
def SameOutside (s t : State) (a n : Nat) : Prop :=
  ∀ x, x < a ∨ a + n ≤ x → t.lmem.readByte x = s.lmem.readByte x

/-- Every byte of LMEM reads the same. -/
def SameLmem (s t : State) : Prop := ∀ x, t.lmem.readByte x = s.lmem.readByte x

/-- What no command changes: CMD, IRQEN, ARG0–ARG5, CAP, and the model's own fields (R303). -/
structure KeepsHost (s t : State) : Prop where
  cmd : t.cmd = s.cmd
  irqen : t.irqen = s.irqen
  args : t.args = s.args
  cap : t.cap = s.cap
  inputs : t.inputs = s.inputs
  reads : t.reads = s.reads
  draws : t.draws = s.draws

/-- A successful completion (R303): BUSY 0, DONE 1, every other field of STATUS as it was. -/
structure CompletesOk (s t : State) : Prop where
  busy : t.latch = none
  status : t.status = { s.status with done := true }

/-- A completion with error `e` (R303): BUSY 0, DONE 1, ERR 1, ERRCODE the code, the other fields as they were. -/
structure CompletesWith (e : ErrCode) (s t : State) : Prop where
  busy : t.latch = none
  status : t.status = { s.status with done := true, err := true, errcode := e }

end Sys2Proof.Machine
end

