-- ==== Sys2Proof/Certificates/Slice0/Obligations.lean ====
section
/-! DEFINITION. The statements for the provers. Each is about the machine, from the numbered rules of spec/; no statement
is about a program. A premise `s.Inv` rules out states no run reaches; `EveryStepKeepsTheInvariant` and
`ResetMeetsTheInvariant` are the statements about it. -/

open Sys2Proof Sys2Proof.Machine

/-! Encoding -/

/-- Over all 2^32 words and all commands: a word decodes to a command exactly when it is that command's encoding. No bit
of a word is dropped, and each word has one meaning (R90–R92, R97). -/
def Obligations.DecodeAndEncodeAgree : Prop :=
  ∀ (w : Word) (i : Instr), i.wf = true → (decode w = some i ↔ encode i = w)

/-- R97, with the opcode map of R92 written out: a word whose bits 31:8 are not 0 is ILLEGAL; any other word is what the
map gives its low byte, and ILLEGAL where the map gives nothing. -/
def Obligations.DecodeFollowsTheOpcodeMap : Prop :=
  ∀ w : Word,
    (w.extractLsb' 8 24 ≠ 0#24 → decode w = none) ∧
    (w.extractLsb' 8 24 = 0#24 →
      decode w = List.lookup (w.extractLsb' 0 8).toNat
        [(0x00, Instr.nop), (0x01, .config), (0x02, .zeroize), (0x10, .hash), (0x11, .hprime), (0x20, .g), (0x21, .gx),
         (0x22, .perm), (0x30, .refidx), (0x31, .addrgen), (0x40, .seed), (0x41, .fillseg), (0x42, .fill),
         (0x43, .final)])

/-- R94: the illegal words are those with RSV ≠ 0 or a reserved opcode (`commandWordWf` lists R94's ranges); such a word
is accepted like any other, completes with ILLEGAL_CMD and changes nothing else. -/
def Obligations.IllegalWordsCompleteWithIllegalCmd : Prop :=
  ∀ w : Word, (decode w = none ↔ commandWordWf w = false) ∧
    (decode w = none → ∀ (s : State) (rest : List Input),
      s.latch = none → s.inputs = .host (.write 0x00000008#32 w) :: .seq :: rest →
      Sys2Proof.core.run 2 s = .next { s with
        cmd := w
        inputs := rest
        status := { s.status with done := true, err := true, errcode := .illegalCmd } })

/-- A few words written out from R91 and R92, one of each family, and two illegal ones. -/
def Obligations.SampleWordsDecode : Prop :=
  decode 0x00000000#32 = some .nop ∧ decode 0x00000001#32 = some .config ∧ decode 0x00000011#32 = some .hprime ∧
  decode 0x00000022#32 = some .perm ∧ decode 0x00000031#32 = some .addrgen ∧ decode 0x00000043#32 = some .final ∧
  decode 0x00000100#32 = none ∧ decode 0x00000044#32 = none

/-! Steps -/

/-- A SEQ step runs the decoded command: with record `r` latched and `r.word` decoding to `i`, the step is exec of `i`,
after the SEQ input is taken if one is at the head; with no input left SEQ moves by itself (R303, R356; the schedule of
inputs is the model's choice, log entry 3). -/
def Obligations.StepRunsTheDecodedCommand : Prop :=
  ∀ (s : State) (r : Latch) (i : Instr), s.latch = some r → decode r.word = some i → i.wf = true →
    (∀ rest, s.inputs = .seq :: rest → step s = exec i { s with inputs := rest }) ∧
    (s.inputs = [] → step s = exec i s)

/-- The step after a command word is placed runs exactly that command, on the operands the ARG registers hold; placing one
is the model's own way in (log entry 4). -/
def Obligations.PlacedWordRunsNext : Prop :=
  ∀ (s : State) (i : Instr),
    step (s.withFetchWord 32 (encode i).toNat) = exec i (s.accept (encode i)) ∧
    (s.accept (encode i)).argl = s.args

/-- A step stops only where the host breaks its duty: an aligned access to the LMEM window while BUSY = 1 (R69, R350). There
it is refused, under the name of that duty; everywhere else it answers a next state. That a misaligned address in the
window is no such access is log entry 5 (DEDUCED). -/
def Obligations.StepsStopOnlyAtDutyBreaks : Prop :=
  ∀ s : State,
    (s.breaksDuty = true → ∃ a, step s = .refused (.hostLmemAccessWhileBusy a)) ∧
    (s.breaksDuty = false → ∃ t, step s = .next t)

/-! Reset -/

/-- What R46 and R341 say of the registers after reset, read through the CSR map. -/
def Sys2Proof.Machine.AtReset (s : State) : Prop :=
  readCsr s .id = 0x42324D58#32 ∧ readCsr s .version = 0x00070213#32 ∧ readCsr s .cmd = 0 ∧ readCsr s .status = 0 ∧
  readCsr s .irqen = 0 ∧ (∀ k, readCsr s (.arg k) = 0) ∧ (∀ k, readCsr s (.res k) = 0) ∧
  readCsr s .cfgP = 0 ∧ readCsr s .cfgM = 0 ∧ readCsr s .cfgT = 0 ∧ readCsr s .cfgMp = 0 ∧ readCsr s .cfgQ = 0 ∧
  readCsr s .cfgSl = 0 ∧ s.latch = none ∧ s.irq = false

/-- The state after power-up: the registers as R46 says; CAP the default LMEM_BLOCKS of R5, which is the model's choice of a
parameter (log entry 6); every LMEM byte a free value (R47), in the model's form (log entry 1). -/
def Obligations.ResetStateHasTheResetValues : Prop :=
  AtReset State.reset ∧ readCsr State.reset .cap = 32768 ∧ ∀ a, State.reset.lmem.readByte a = Config.lmemDraw 0 a

/-- RST from any state, also while a command runs: every register at its reset value, CAP kept, the running command gone
with DONE, ERR and IRQ 0; LMEM is unchanged when no command was running (R340, R341). -/
def Obligations.RstBringsTheResetValues : Prop :=
  ∀ (s : State) (rest : List Input), s.inputs = .rst :: rest →
    ∃ t, step s = .next t ∧ AtReset t ∧ readCsr t .cap = readCsr s .cap ∧ t.inputs = rest ∧ t.reads = s.reads ∧
      (s.busy = false → SameLmem s t)

/-- The rows of R342's table: LMEM byte `x` is in the write set of command `i` on the operands of record `r`. Block b is the
bytes x with x / 1024 = b. -/
def Sys2Proof.Machine.InWriteSet (s : State) (r : Latch) (x : Nat) (i : Instr) : Prop :=
  let a0 := r.args.arg0.toNat
  let a1 := r.args.arg1.toNat
  let a2 := r.args.arg2.toNat
  let a3 := r.args.arg3.toNat
  let q := s.cfg.q.toNat
  let SL := s.cfg.sl.toNat
  match i with
  | .nop | .config | .refidx => False
  | .zeroize => True
  | .hash | .hprime => a2 ≤ x ∧ x < a2 + a3
  | .g | .gx | .perm => x / 1024 = a2
  | .addrgen => x / 1024 = r.args.arg4.toNat
  | .final => x / 1024 = a0
  | .seed => ∃ l c, l < s.cfg.p.toNat ∧ c < 2 ∧ x / 1024 = l * q + c
  | .fillseg => ∃ k, k < SL ∧ x / 1024 = a2 * q + (a1 * SL + k)
  | .fill => x / 1024 < s.cfg.mp.toNat

/-- RST while command `i` runs: each LMEM byte in its row of R342's table (`InWriteSet`) becomes free, every other byte is
unchanged (log entry 1). The rows are taken as the table has them, clipped to LMEM, also for a command that would have
completed with an error (log entry 7). -/
def Obligations.RstFreesOnlyTheWriteSet : Prop :=
  ∀ (s : State) (rest : List Input) (r : Latch) (i : Instr), s.inputs = .rst :: rest → s.latch = some r →
    decode r.word = some i →
    ∃ t, step s = .next t ∧
      (∀ x, x < s.lmemBytes → InWriteSet s r x i → t.lmem.readByte x = Config.lmemDraw s.draws x) ∧
      (∀ x, ¬InWriteSet s r x i → t.lmem.readByte x = s.lmem.readByte x)

/-! The host port -/

/-- A host write to CMD with BUSY = 0 accepts the word, whatever it is: CMD and the record are latched with the operand
registers, BUSY becomes 1, DONE, ERR and ERRCODE are cleared, and nothing else changes (R28, R303 acceptance). -/
def Obligations.AcceptanceLatchesTheCommand : Prop :=
  ∀ (s : State) (v : Word) (rest : List Input), s.inputs = .host (.write 0x00000008#32 v) :: rest → s.busy = false →
    step s = .next { s with
      inputs := rest
      cmd := v
      latch := some ⟨v, s.args⟩
      status := { s.status with done := false, err := false, errcode := .none } }

/-- R305: a CMD write while BUSY = 1 is dropped and sets OVR, and nothing else; OVR then falls only at a host write to
STATUS with bit 9 set or at RST; it does not move IRQ. -/
def Obligations.CommandWriteWhileBusyIsDropped : Prop :=
  (∀ (s : State) (v : Word) (rest : List Input), s.inputs = .host (.write 0x00000008#32 v) :: rest → s.busy = true →
    step s = .next { s with inputs := rest, status := { s.status with ovr := true } } ∧
    State.irq { s with inputs := rest, status := { s.status with ovr := true } } = s.irq) ∧
  (∀ s t : State, step s = .next t → s.status.ovr = true → t.status.ovr = false →
    ∃ rest, s.inputs = .rst :: rest ∨
      ∃ v : Word, s.inputs = .host (.write 0x0000000C#32 v) :: rest ∧ v.getLsbD 9 = true)

/-- R63 and R306: an access that is misaligned, or outside both windows, sets HBE and has no other effect, a read returns 0;
HBE then falls only at a host write to STATUS with bit 10 set or at RST; it does not move IRQ. It says so of busy states
and misaligned addresses inside the LMEM window too, where reading R63 before R69 is the model's (log entry 5). -/
def Obligations.BadHostAccessOnlySetsHbe : Prop :=
  (∀ (s : State) (a v : Word) (rest : List Input),
    (a.toNat % 4 ≠ 0 ∨ (0x100 ≤ a.toNat ∧ a.toNat < 0x80000000) ∨ 0x80000000 + s.lmemBytes ≤ a.toNat) →
    (s.inputs = .host (.write a v) :: rest →
      step s = .next { s with inputs := rest, status := { s.status with hbe := true } }) ∧
    (s.inputs = .host (.read a) :: rest →
      step s = .next { s with inputs := rest, status := { s.status with hbe := true }, reads := 0 :: s.reads }) ∧
    State.irq { s with inputs := rest, status := { s.status with hbe := true } } = s.irq) ∧
  (∀ s t : State, step s = .next t → s.status.hbe = true → t.status.hbe = false →
    ∃ rest, s.inputs = .rst :: rest ∨
      ∃ v : Word, s.inputs = .host (.write 0x0000000C#32 v) :: rest ∧ v.getLsbD 10 = true)

/-- R23: acceptance copies ARG0–ARG5 into the record; a host write to ARGk while a command runs changes the register and not
the record; and a command's outcome depends on the record alone: with other values in the registers it does the same and
leaves those values. -/
def Obligations.CommandsUseTheLatchedOperands : Prop :=
  (∀ (s : State) (v : Word), (s.accept v).argl = s.args) ∧
  (∀ (s : State) (k : Fin 6) (v : Word) (rest : List Input),
    s.inputs = .host (.write (BitVec.ofNat 32 (0x20 + 4 * k.val)) v) :: rest →
    ∃ t, step s = .next t ∧ t.latch = s.latch ∧ t.args.get k = v ∧ ∀ j, j ≠ k → t.args.get j = s.args.get j) ∧
  (∀ (i : Instr) (s : State) (x : Args), s.busy = true →
    ∃ t, exec i s = .next t ∧ exec i { s with args := x } = .next { t with args := x })

/-- R29: a host write of `v` to STATUS clears DONE (bit 1), ERR (2), OVR (9) and HBE (10) where `v` has a 1 there, and ERRCODE
(7:4) with ERR; every other bit of the word stays, and no other register, no LMEM byte and no record changes. -/
def Obligations.StatusWriteClearsItsOnes : Prop :=
  ∀ (s : State) (v : Word) (rest : List Input), s.inputs = .host (.write 0x0000000C#32 v) :: rest →
    ∃ t, step s = .next t ∧
      (∀ n, n < 32 → t.statusWord.getLsbD n = (s.statusWord.getLsbD n
        && !((n == 1 || n == 2 || n == 9 || n == 10) && v.getLsbD n) && !(decide (4 ≤ n ∧ n ≤ 7) && v.getLsbD 2))) ∧
      t = { s with inputs := rest, status := t.status }

/-- R21: each of ARG0–ARG5, at its offset, holds all 32 bits written and reads back; the five others stay; no command writes
an operand register; reset clears them. -/
def Obligations.OperandRegistersHoldWhatTheHostWrites : Prop :=
  (∀ (s : State) (k : Fin 6) (v : Word) (rest : List Input),
    s.inputs = .host (.write (BitVec.ofNat 32 (0x20 + 4 * k.val)) v)
      :: .host (.read (BitVec.ofNat 32 (0x20 + 4 * k.val))) :: rest →
    ∃ t, Sys2Proof.core.run 2 s = .next t ∧ t.reads = v :: s.reads ∧ t.args.get k = v ∧
      (∀ j, j ≠ k → t.args.get j = s.args.get j) ∧ t = { s with inputs := rest, reads := t.reads, args := t.args }) ∧
  (∀ (i : Instr) (s t : State), exec i s = .next t → t.args = s.args) ∧
  (∀ k, State.reset.args.get k = 0)

/-- R37: a host write to ID, VERSION, RES0–RES3, a CFG register or CAP changes nothing, HBE included; a host write to STATUS
leaves BUSY and CFGOK, and ERRCODE unless it clears ERR; a host read of any CSR returns its value and changes nothing. -/
def Obligations.ReadOnlyRegistersIgnoreWrites : Prop :=
  (∀ (s : State) (c : Csr) (v : Word) (rest : List Input),
    c ∈ [Csr.id, .version, .res 0, .res 1, .res 2, .res 3, .cfgP, .cfgM, .cfgT, .cfgMp, .cfgQ, .cfgSl, .cap] →
    s.inputs = .host (.write (csrAddress c) v) :: rest → step s = .next { s with inputs := rest }) ∧
  (∀ (s : State) (v : Word) (rest : List Input), s.inputs = .host (.write 0x0000000C#32 v) :: rest →
    ∃ t, step s = .next t ∧ t.busy = s.busy ∧ t.status.cfgok = s.status.cfgok ∧
      (v.getLsbD 2 = false → t.status.errcode = s.status.errcode)) ∧
  (∀ (s : State) (c : Csr) (rest : List Input), s.inputs = .host (.read (csrAddress c)) :: rest →
    step s = .next { s with inputs := rest, reads := readCsr s c :: s.reads })

/-- R25: a reserved slot of the CSR window reads 0, ignores writes and does not set HBE; the reserved bits of STATUS (3 and
31:11), of IRQEN (31:2) and of VERSION (31:24) read 0 in every state, whatever was written. -/
def Obligations.ReservedSlotsAndBitsReadZero : Prop :=
  (∀ (s : State) (o : Nat) (v : Word) (rest : List Input),
    o ∈ [0x14, 0x18, 0x1C, 0x38, 0x3C, 0x50, 0x54, 0x58, 0x5C, 0x78] ∨ (0x80 ≤ o ∧ o < 0x100 ∧ o % 4 = 0) →
    (s.inputs = .host (.read (BitVec.ofNat 32 o)) :: rest →
      step s = .next { s with inputs := rest, reads := 0 :: s.reads }) ∧
    (s.inputs = .host (.write (BitVec.ofNat 32 o) v) :: rest → step s = .next { s with inputs := rest })) ∧
  (∀ (s : State) (n : Nat), n = 3 ∨ 11 ≤ n → (readCsr s .status).getLsbD n = false) ∧
  (∀ (s : State) (n : Nat), 2 ≤ n → (readCsr s .irqen).getLsbD n = false) ∧
  (∀ (s : State) (n : Nat), 24 ≤ n → (readCsr s .version).getLsbD n = false)

/-- R31 and R45: a host write of `v` to IRQEN leaves bits 1:0 of `v` there, and IRQ is then
(DONE ∧ v[0]) ∨ (ERR ∧ v[1]) at once; nothing else changes; IRQEN is 0 at reset. -/
def Obligations.IrqFollowsTheEnables : Prop :=
  (∀ (s : State) (v : Word) (rest : List Input), s.inputs = .host (.write 0x00000010#32 v) :: rest →
    ∃ t, step s = .next t ∧ readCsr t .irqen = v &&& 3#32 ∧
      t.irq = ((s.status.done && v.getLsbD 0) || (s.status.err && v.getLsbD 1)) ∧
      t = { s with inputs := rest, irqen := t.irqen }) ∧
  (∀ s : State, s.irq = ((s.statusWord.getLsbD 1 && (readCsr s .irqen).getLsbD 0)
    || (s.statusWord.getLsbD 2 && (readCsr s .irqen).getLsbD 1))) ∧
  readCsr State.reset .irqen = 0

/-- R307 and R308: IRQ rises in the step of a completion whose source is enabled, and in no command of its own accord
otherwise; it falls at acceptance, at a STATUS write of 0x6, and is 0 after RST. -/
def Obligations.IrqRisesAtCompletionAndFalls : Prop :=
  (∀ (i : Instr) (s t : State), exec i s = .next t →
    t.irq = (s.irqen.doneIe || (t.status.err && s.irqen.errIe))) ∧
  (∀ (s t : State) (v : Word) (rest : List Input), s.inputs = .host (.write 0x00000008#32 v) :: rest → s.busy = false →
    step s = .next t → t.irq = false) ∧
  (∀ (s t : State) (rest : List Input), s.inputs = .host (.write 0x0000000C#32 0x6#32) :: rest →
    step s = .next t → t.irq = false) ∧
  (∀ (s t : State) (rest : List Input), s.inputs = .rst :: rest → step s = .next t → t.irq = false)

/-- R62: with BUSY = 0, a host read at LMEM_BASE + o (o a multiple of 4, o + 4 ≤ LMEM_BYTES) returns the four bytes
little-endian and a host write stores them, and nothing else changes; so the host sees word k of block b as its low half
at offset 1024b + 8k and its high half four bytes above. -/
def Obligations.LmemWindowIsLittleEndian : Prop :=
  (∀ (s : State) (o : Nat) (v : Word) (rest : List Input), s.Inv → s.busy = false → o % 4 = 0 → o + 4 ≤ s.lmemBytes →
    (s.inputs = .host (.read (BitVec.ofNat 32 (0x80000000 + o))) :: rest →
      ∃ w : Word, step s = .next { s with inputs := rest, reads := w :: s.reads } ∧
        ∀ j, j < 4 → s.lmem.readByte (o + j) = w.extractLsb' (8 * j) 8) ∧
    (s.inputs = .host (.write (BitVec.ofNat 32 (0x80000000 + o)) v) :: rest →
      ∃ t, step s = .next t ∧ (∀ j, j < 4 → t.lmem.readByte (o + j) = v.extractLsb' (8 * j) 8) ∧
        SameOutside s t o 4 ∧ t = { s with inputs := rest, lmem := t.lmem })) ∧
  (∀ (s : State) (b k : Nat) (hk : k < 128),
    readWindow s (1024 * b + 8 * k) = lo32 ((s.lmem.readBlock b)[k]) ∧
    readWindow s (1024 * b + 8 * k + 4) = hi32 ((s.lmem.readBlock b)[k]))

/-- R68: a host read has no side effect, so the same read twice returns the same word twice and leaves everything else,
LMEM and every register, as it was; for any aligned mapped address with BUSY = 0. -/
def Obligations.ReadsAreIdempotent : Prop :=
  ∀ (s : State) (a : Word) (rest : List Input), s.busy = false → a.toNat % 4 = 0 →
    (a.toNat < 0x100 ∨ (0x80000000 ≤ a.toNat ∧ a.toNat < 0x80000000 + s.lmemBytes)) →
    s.inputs = .host (.read a) :: .host (.read a) :: rest →
    ∃ w, Sys2Proof.core.run 2 s = .next { s with inputs := rest, reads := w :: w :: s.reads }

/-- R111: the writes of a command statement with at most six operands put exactly the operands given into ARG0, ARG1, …
and then issue the command, from any idle state; and the whole statement, with its WAIT, leaves the state in which that
command has completed, on those operands, having read STATUS at least once and nothing else. -/
def Obligations.CommandStatementIssuesItsCommand : Prop :=
  (∀ (s : State) (i : Instr) (ops : List Word) (rest : List Input), s.busy = false → ops.length ≤ 6 →
    s.inputs = (commandWrites i ops).map (fun x => Input.host (.write x.1 x.2)) ++ rest →
    ∃ t, Sys2Proof.core.run (ops.length + 1) s = .next t ∧ t.inputs = rest ∧ t.cmd = encode i ∧
      t.latch = some ⟨encode i, t.args⟩ ∧
      (∀ k : Fin 6, t.args.get k = ops.getD k.val (s.args.get k)) ∧
      t.lmem = s.lmem ∧ t.res = s.res ∧ t.cfg = s.cfg ∧ t.irqen = s.irqen) ∧
  (∀ (b : Bus) (i : Instr) (ops : List Word), b.machine.busy = false → ops.length ≤ 6 →
    ∃ (b' : Bus) (x : Args) (t : State) (n : Nat), (Stmt.command i ops).run b = .next (b', .none) ∧
      (∀ k : Fin 6, x.get k = ops.getD k.val (b.machine.args.get k)) ∧
      exec i ({ b.machine with args := x }.accept (encode i)) = .next t ∧
      b'.machine = { t with reads := b'.machine.reads } ∧
      transactions b'.trace = transactions b.trace ++ (commandWrites i ops).map (fun x => Access.write x.1 x.2)
        ++ List.replicate (n + 1) (.read 0x0000000C#32))

/-! Rules of every command -/

/-- R303: every command, whatever it is and whatever it finds, completes in its SEQ step: BUSY 0 and DONE 1; CMD, IRQEN, the
ARG registers, CAP, OVR and HBE are not changed by completion, and CFGOK only by CONFIG. -/
def Obligations.EveryCommandCompletes : Prop :=
  ∀ (i : Instr) (s : State), ∃ t, exec i s = .next t ∧ t.busy = false ∧ t.status.done = true ∧ KeepsHost s t ∧
    t.status.ovr = s.status.ovr ∧ t.status.hbe = s.status.hbe ∧
    (i ≠ .config → t.status.cfgok = s.status.cfgok)

/-- R32 and R22 as rules over all commands: CONFIG writes the CFG registers and nothing else does; REFIDX and ZEROIZE write the
RES registers and nothing else does; NOP, CONFIG and REFIDX write no LMEM byte (R342's first row). Over all steps: one that
changes the CFG registers is the SEQ step of a CONFIG, or RST; ID and VERSION read the same in every state (R26, R27), and
no step changes CAP (R33). -/
def Obligations.OnlyTheNamedCommandsWriteTheirRegisters : Prop :=
  (∀ (i : Instr) (s t : State), exec i s = .next t →
    (i ≠ .config → t.cfg = s.cfg) ∧
    (i ≠ .refidx → i ≠ .zeroize → t.res = s.res) ∧
    (i = .nop ∨ i = .config ∨ i = .refidx → t.lmem = s.lmem)) ∧
  (∀ s t : State, step s = .next t →
    (t.cfg ≠ s.cfg → (∃ rest, s.inputs = .rst :: rest) ∨
      (s.inputs = [] ∨ ∃ rest, s.inputs = .seq :: rest) ∧ ∃ r, s.latch = some r ∧ decode r.word = some .config) ∧
    readCsr t .cap = readCsr s .cap) ∧
  (∀ s : State, readCsr s .id = 0x42324D58#32 ∧ readCsr s .version = 0x00070213#32)

/-- R22 over steps: RES0–RES3 stand at 0x40 … 0x4C, a host write to one is ignored, they are 0 at reset, and a step that
changes them is a SEQ step of REFIDX or ZEROIZE, or RST. -/
def Obligations.ResultRegistersChangeOnlyByRefidxAndZeroize : Prop :=
  (∀ (s : State) (k : Fin 4) (v : Word) (rest : List Input),
    (s.inputs = .host (.read (BitVec.ofNat 32 (0x40 + 4 * k.val))) :: rest →
      step s = .next { s with inputs := rest, reads := s.res.get k :: s.reads }) ∧
    (s.inputs = .host (.write (BitVec.ofNat 32 (0x40 + 4 * k.val)) v) :: rest →
      step s = .next { s with inputs := rest })) ∧
  (∀ k, State.reset.res.get k = 0) ∧
  (∀ s t : State, step s = .next t → t.res ≠ s.res →
    (∃ rest, s.inputs = .rst :: rest) ∨
    (s.inputs = [] ∨ ∃ rest, s.inputs = .seq :: rest) ∧
      ∃ r, s.latch = some r ∧ (decode r.word = some .refidx ∨ decode r.word = some .zeroize))

/-- BUSY, R48's first row: it rises only at a CMD write that is accepted and falls only at a completion by SEQ or at RST. -/
def Obligations.BusyMovesOnlyAtAcceptanceAndCompletion : Prop :=
  ∀ s t : State, step s = .next t →
    (s.busy = false → t.busy = true → ∃ v rest, s.inputs = .host (.write 0x00000008#32 v) :: rest) ∧
    (s.busy = true → t.busy = false →
      s.inputs = [] ∨ ∃ rest, s.inputs = .seq :: rest ∨ s.inputs = .rst :: rest) ∧
    (s.busy = true → t.busy = true → t.latch = s.latch)

/-- R343: CFGOK rises only in the SEQ step of a CONFIG; and while it is 0 each of the six commands that need a configuration
completes with NOT_CONFIGURED and changes no LMEM byte, no RES and no CFG register. -/
def Obligations.ConfigurationComesOnlyFromConfig : Prop :=
  (∀ s t : State, step s = .next t → s.status.cfgok = false → t.status.cfgok = true →
    (s.inputs = [] ∨ ∃ rest, s.inputs = .seq :: rest) ∧ ∃ r, s.latch = some r ∧ decode r.word = some .config) ∧
  (∀ (i : Instr) (s : State), i ∈ [Instr.refidx, .addrgen, .seed, .fillseg, .fill, .final] → s.status.cfgok = false →
    ∃ t, exec i s = .next t ∧ CompletesWith .notConfigured s t ∧ KeepsHost s t ∧ t.lmem = s.lmem ∧ t.res = s.res ∧
      t.cfg = s.cfg)

/-- The first failing check of a command in the order of R301's table, with the causes of R300, on the operands of record
`r`; `none` where no check fails. -/
def Sys2Proof.Machine.firstError (s : State) (r : Latch) (i : Instr) : Option ErrCode :=
  let a0 := r.args.arg0.toNat
  let a1 := r.args.arg1.toNat
  let a2 := r.args.arg2.toNat
  let a3 := r.args.arg3.toNat
  let a4 := r.args.arg4.toNat
  let n := s.cap.toNat
  let checks : List (Bool × ErrCode) :=
    match i with
    | .nop | .zeroize => []
    | .config =>
      [(a0 = 0 || 2 ^ 24 - 1 < a0 || a2 = 0 || a1 < 8 * a0, .invalidParams),
       (n < 4 * a0 * (a1 / (4 * a0)), .resourceExhausted)]
    | .hash => [(a3 < 1 || 64 < a3, .invalidParams), (1024 * n < a0 + a1 || 1024 * n < a2 + a3, .range)]
    | .hprime => [(a3 = 0, .invalidParams), (1024 * n < a0 + a1 || 1024 * n < a2 + a3, .range)]
    | .g | .gx => [(n ≤ a0 || n ≤ a1 || n ≤ a2, .range)]
    | .perm => [(n ≤ a0 || n ≤ a2, .range)]
    | .refidx =>
      [(!s.status.cfgok, .notConfigured),
       (3 < a1 || s.cfg.p.toNat ≤ a2 || s.cfg.sl.toNat ≤ a3 || (a0 = 0 && a1 = 0 && a3 < 2), .invalidParams)]
    | .addrgen => [(!s.status.cfgok, .notConfigured), (n ≤ a4, .range)]
    | .seed => [(!s.status.cfgok, .notConfigured), (1024 * n < a0 + 64, .range)]
    | .fillseg =>
      [(!s.status.cfgok, .notConfigured), (s.cfg.t.toNat ≤ a0 || 3 < a1 || s.cfg.p.toNat ≤ a2, .invalidParams)]
    | .fill => [(!s.status.cfgok, .notConfigured)]
    | .final => [(!s.status.cfgok, .notConfigured), (n ≤ a0, .range)]
  (checks.find? fun x => x.1).map fun x => x.2

/-- R301: a command with a failing check completes with the first one's code and changes no LMEM byte, no RES and no CFG
register, and CFGOK only if it is CONFIG, which clears it; a command with none completes without an error. -/
def Obligations.ErrorsAreReportedInTheStatedOrder : Prop :=
  ∀ (i : Instr) (s : State) (r : Latch), s.latch = some r →
    (∀ e, firstError s r i = some e →
      ∃ t, exec i s = .next t ∧ t.latch = none ∧ t.lmem = s.lmem ∧ t.res = s.res ∧ t.cfg = s.cfg ∧ KeepsHost s t ∧
        t.status = { s.status with
          done := true, err := true, errcode := e, cfgok := if i = .config then false else s.status.cfgok }) ∧
    (firstError s r i = none →
      ∃ t, exec i s = .next t ∧ t.latch = none ∧ t.status.done = true ∧ t.status.err = s.status.err ∧
        t.status.errcode = s.status.errcode)

/-! Control commands -/

/-- R120: NOP is the all-zero word; it completes and changes nothing else, CFGOK = 0 or not; issued from reset it leaves
STATUS = 0x00000002. -/
def Obligations.NopOnlyCompletes : Prop :=
  encode .nop = 0x00000000#32 ∧
  (∀ s : State, exec .nop s = .next { s with latch := none, status := { s.status with done := true } }) ∧
  ∃ t, Sys2Proof.core.run 2 { State.reset with inputs := [.host (.write 0x00000008#32 0x00000000#32), .seq] } = .next t ∧
    t.statusWord = 0x00000002#32

/-- CONFIG with parameters in bounds whose matrix fits (R121–R124): CFG_P, CFG_M, CFG_T as given,
CFG_MP = 4p·floor(m/4p), CFG_Q = m′/p, CFG_SL = m′/4p, CFGOK 1; LMEM, RES and the rest unchanged; and the registers then
hold the invariant of R34. -/
def Obligations.ConfigLatchesTheGeometry : Prop :=
  ∀ (s : State) (r : Latch), s.latch = some r →
    let p := r.args.arg0.toNat
    let m := r.args.arg1.toNat
    let t := r.args.arg2.toNat
    1 ≤ p → p ≤ 2 ^ 24 - 1 → 1 ≤ t → 8 * p ≤ m → 4 * p * (m / (4 * p)) ≤ s.lmemBlocks →
    ∃ u, exec .config s = .next u ∧ u.cfg.p = r.args.arg0 ∧ u.cfg.m = r.args.arg1 ∧ u.cfg.t = r.args.arg2 ∧
      u.cfg.mp.toNat = 4 * p * (m / (4 * p)) ∧ u.cfg.q.toNat = 4 * p * (m / (4 * p)) / p ∧
      u.cfg.sl.toNat = 4 * p * (m / (4 * p)) / (4 * p) ∧ u.cfg.Valid s.lmemBlocks ∧
      u.status = { s.status with done := true, cfgok := true } ∧ u.latch = none ∧ u.lmem = s.lmem ∧ u.res = s.res ∧
      KeepsHost s u

/-- CONFIG out of bounds completes with INVALID_PARAMS (R123), CONFIG in bounds whose matrix does not fit with
RESOURCE_EXHAUSTED (R124); either way CFGOK becomes 0, the CFG registers keep their old values and nothing else changes. -/
def Obligations.ConfigRejectsAndClearsCfgok : Prop :=
  ∀ (s : State) (r : Latch), s.latch = some r →
    let p := r.args.arg0.toNat
    let m := r.args.arg1.toNat
    let t := r.args.arg2.toNat
    let bad := p = 0 ∨ 2 ^ 24 - 1 < p ∨ t = 0 ∨ m < 8 * p
    (bad → exec .config s = .next { s with
      latch := none
      status := { s.status with done := true, err := true, errcode := .invalidParams, cfgok := false } }) ∧
    (¬bad → s.lmemBlocks < 4 * p * (m / (4 * p)) → exec .config s = .next { s with
      latch := none
      status := { s.status with done := true, err := true, errcode := .resourceExhausted, cfgok := false } })

/-- R125 and R126: ZEROIZE is the word 0x00000002; from any state, CFGOK = 0 or not, every LMEM byte and RES0–RES3 become 0,
and CMD, IRQEN, the ARG registers, CFG, CAP and the other fields of STATUS stay. -/
def Obligations.ZeroizeClearsLmemAndResults : Prop :=
  encode .zeroize = 0x00000002#32 ∧
  ∀ s : State, ∃ t, exec .zeroize s = .next t ∧ (∀ a, t.lmem.readByte a = 0) ∧ (∀ k, t.res.get k = 0) ∧
    t.cfg = s.cfg ∧ CompletesOk s t ∧ KeepsHost s t

/-! KeyExpander -/

/-- HASH with nn in [1, 64] and both ranges in LMEM (R175): the digest of the source bytes, all read before the write, stands
at dst; every other byte, RES, CFG and the rest unchanged. -/
def Obligations.HashWritesTheDigest : Prop :=
  ∀ (s : State) (r : Latch), s.latch = some r →
    let src := r.args.arg0.toNat
    let len := r.args.arg1.toNat
    let dst := r.args.arg2.toNat
    let nn := r.args.arg3.toNat
    1 ≤ nn → nn ≤ 64 → src + len ≤ s.lmemBytes → dst + nn ≤ s.lmemBytes →
    ∃ t, exec .hash s = .next t ∧ t.lmem.readBytes dst nn = blake2b nn (s.lmem.readBytes src len) ∧
      SameOutside s t dst nn ∧ t.res = s.res ∧ t.cfg = s.cfg ∧ CompletesOk s t ∧ KeepsHost s t

/-- HPRIME with τ ≥ 1 and both ranges in LMEM (R178): H′ of the source bytes stands at dst, also over its own input; every
other byte, RES, CFG and the rest unchanged. -/
def Obligations.HprimeWritesItsOutput : Prop :=
  ∀ (s : State) (r : Latch), s.latch = some r →
    let src := r.args.arg0.toNat
    let len := r.args.arg1.toNat
    let dst := r.args.arg2.toNat
    let tau := r.args.arg3.toNat
    1 ≤ tau → src + len ≤ s.lmemBytes → dst + tau ≤ s.lmemBytes →
    ∃ t, exec .hprime s = .next t ∧ t.lmem.readBytes dst tau = hprime tau (s.lmem.readBytes src len) ∧
      SameOutside s t dst tau ∧ t.res = s.res ∧ t.cfg = s.cfg ∧ CompletesOk s t ∧ KeepsHost s t

/-- R165 and R166: for τ ≤ 64, H′ is BLAKE2b of digest length τ over LE32(τ) ‖ X; for τ > 64, with r = ceil(τ/32) − 2 and
V[i] the i-fold 64-byte hash, it is the first halves of V[1] … V[r] and then the hash of V[r] of digest length τ − 32r. -/
def Obligations.HprimeIsTheChainOfHashes : Prop :=
  ∀ (τ : Nat) (X : Bytes),
    (1 ≤ τ → τ ≤ 64 → hprime τ X = blake2b τ (le32 (BitVec.ofNat 32 τ) ++ X)) ∧
    (64 < τ →
      let V : Nat → Bytes := fun i => (blake2b 64)^[i] (le32 (BitVec.ofNat 32 τ) ++ X)
      let r := (τ + 31) / 32 - 2
      hprime τ X = (List.range' 1 r).flatMap (fun i => (V i).take 32) ++ blake2b (τ - 32 * r) (V r))

/-- R167 (a), (c) and (d): H′ has τ bytes for every τ ≥ 1; for τ > 64 the final digest length is in [33, 64], and is 64 exactly
when 32 divides τ, and the output begins with the first half of the first 64-byte hash. -/
def Obligations.HprimeHasTheLengthAsked : Prop :=
  ∀ (τ : Nat) (X : Bytes), 1 ≤ τ → (hprime τ X).length = τ ∧
    (64 < τ →
      33 ≤ τ - 32 * ((τ + 31) / 32 - 2) ∧ τ - 32 * ((τ + 31) / 32 - 2) ≤ 64 ∧
      (τ - 32 * ((τ + 31) / 32 - 2) = 64 ↔ τ % 32 = 0) ∧
      (hprime τ X).take 32 = (blake2b 64 (le32 (BitVec.ofNat 32 τ) ++ X)).take 32)

/-! BlockMixer -/

/-- R190: fBlaMka as an equation on numbers, mod 2^64, and the five example values of the rule. -/
def Obligations.FBlaMkaIsTheStatedSum : Prop :=
  (∀ x y : U64, (fBlaMka x y).toNat
    = (x.toNat + y.toNat + 2 * (x.toNat % 2 ^ 32) * (y.toNat % 2 ^ 32)) % 2 ^ 64) ∧
  fBlaMka 0 0 = 0 ∧ fBlaMka 1 1 = 4 ∧ fBlaMka 0xFFFFFFFF 0xFFFFFFFF = 0xFFFFFFFE00000000 ∧
  fBlaMka 0xFFFFFFFFFFFFFFFF 0xFFFFFFFFFFFFFFFF = 0xFFFFFFFC00000000 ∧ fBlaMka 0x100000000 5 = 0x100000005

/-- R194 and R195: the row step applies P to the words 16i … 16i+15 of each row i, the column step applies P to the words
16k + 2j, 16k + 2j + 1 of each column j, and the results stand in the same words. -/
def Obligations.RowAndColumnStepsApplyP : Prop :=
  ∀ B : Block,
    (∀ (i k : Nat) (hi : i < 8) (hk : k < 16),
      (rowStep B)[16 * i + k] = (permP (Vector.ofFn fun n : Fin 16 => B[16 * i + n.val]))[k]) ∧
    (∀ (j k b : Nat) (hj : j < 8) (hk : k < 8) (hb : b < 2),
      (columnStep B)[16 * k + 2 * j + b]
        = (permP (Vector.ofFn fun n : Fin 16 => B[16 * (n.val / 2) + 2 * j + n.val % 2]))[2 * k + b])

/-- R196 and R197: Perm is the row step and then the column step, and G(X, Y) = R ⊕ Perm(R) for R = X ⊕ Y. R198 (a), (b) and
(c): G is symmetric, G(X, X) and Perm(ZERO) are ZERO, and G depends only on X ⊕ Y. R202: G(R, ZERO) = R ⊕ Perm(R). A word
that is not 0 is left by the G of R200's example, so neither is constant. -/
def Obligations.CompressionDependsOnTheXor : Prop :=
  (∀ B : Block, permute B = columnStep (rowStep B)) ∧
  (∀ X Y : Block, compress X Y = xorBlock (xorBlock X Y) (permute (xorBlock X Y))) ∧
  (∀ R : Block, compress R zeroBlock = xorBlock R (permute R)) ∧
  (∀ X Y : Block, compress X Y = compress Y X) ∧
  (∀ X : Block, compress X X = zeroBlock) ∧ permute zeroBlock = zeroBlock ∧
  (∀ X Y X' Y' : Block, xorBlock X Y = xorBlock X' Y' → compress X Y = compress X' Y') ∧
  (compress (Vector.ofFn fun k : Fin 128 => BitVec.ofNat 64 k.val) zeroBlock)[0] = 0xC1B5682006CAB594#64

/-- G, GX and PERM with their block indices in LMEM (R200–R202), the inputs read before the write: block dst becomes
G(X, Y), D ⊕ G(X, Y) and Perm(X); every byte outside it, RES, CFG and the rest unchanged; PERM ignores ARG1. -/
def Obligations.BlockCommandsWriteOneBlock : Prop :=
  ∀ (s : State) (r : Latch), s.latch = some r →
    let x := r.args.arg0.toNat
    let y := r.args.arg1.toNat
    let d := r.args.arg2.toNat
    let blk := s.lmem.readBlock
    x < s.lmemBlocks → d < s.lmemBlocks →
    (∃ t, exec .perm s = .next t ∧ t.lmem.readBlock d = permute (blk x) ∧ SameOutside s t (1024 * d) 1024 ∧
      t.res = s.res ∧ t.cfg = s.cfg ∧ CompletesOk s t ∧ KeepsHost s t) ∧
    (y < s.lmemBlocks →
      (∃ t, exec .g s = .next t ∧ t.lmem.readBlock d = compress (blk x) (blk y) ∧ SameOutside s t (1024 * d) 1024 ∧
        t.res = s.res ∧ t.cfg = s.cfg ∧ CompletesOk s t ∧ KeepsHost s t) ∧
      (∃ t, exec .gx s = .next t ∧ t.lmem.readBlock d = xorBlock (blk d) (compress (blk x) (blk y)) ∧
        SameOutside s t (1024 * d) 1024 ∧ t.res = s.res ∧ t.cfg = s.cfg ∧ CompletesOk s t ∧ KeepsHost s t))

/-! Addressing -/

/-- REFIDX at a position of its domain (R240), with the formulas of R226–R231 written out: RES0 the reference lane, RES1 the
reference column, RES2 the area W, RES3 the start position; LMEM, CFG and the rest unchanged. -/
def Obligations.RefidxAnswersTheReference : Prop :=
  ∀ (s : State) (rec : Latch), s.Inv → s.latch = some rec → s.status.cfgok = true →
    let r := rec.args.arg0.toNat
    let sl := rec.args.arg1.toNat
    let l := rec.args.arg2.toNat
    let i := rec.args.arg3.toNat
    let J1 := rec.args.arg4.toNat
    let J2 := rec.args.arg5.toNat
    let p := s.cfg.p.toNat
    let q := s.cfg.q.toNat
    let SL := s.cfg.sl.toNat
    sl ≤ 3 → l < p → i < SL → ¬(r = 0 ∧ sl = 0 ∧ i < 2) →
    let rl := if r = 0 ∧ sl = 0 then l else J2 % p
    let one := if i = 0 then 1 else 0
    let W :=
      if r = 0 ∧ sl = 0 then i - 1
      else if r = 0 ∧ rl = l then sl * SL + i - 1
      else if r = 0 then sl * SL - one
      else if rl = l then q - SL + i - 1
      else q - SL - one
    let z := W - 1 - W * (J1 * J1 / 2 ^ 32) / 2 ^ 32
    let st := if r = 0 then 0 else if sl = 3 then 0 else (sl + 1) * SL
    ∃ t, exec .refidx s = .next t ∧ t.res.res0.toNat = rl ∧ t.res.res1.toNat = (st + z) % q ∧ t.res.res2.toNat = W ∧
      t.res.res3.toNat = st ∧ t.lmem = s.lmem ∧ t.cfg = s.cfg ∧ CompletesOk s t ∧ KeepsHost s t

/-- R233 (a) to (f), over every valid configuration and every position of R232's domain: W ≥ 1; the reference lies in the
matrix; it is never the block being written, nor the previous block of its lane; in pass 0 it was written earlier; in
another lane it is never in the current segment; in the current segment of its own lane it lies before the position. -/
def Obligations.ReferencesAreAlwaysEligible : Prop :=
  ∀ (c : Cfg) (n r sl l i J1 J2 : Nat), c.Valid n → positionOk c r sl l i = true → J1 < 2 ^ 32 →
    let x := refIndex c r sl l i J1 J2
    let SL := c.sl.toNat
    let col := sl * SL + i
    1 ≤ x.area ∧ refRelative x.area J1 < x.area ∧ x.lane < c.p.toNat ∧ x.column < c.q.toNat ∧
    ¬(x.lane = l ∧ x.column = col) ∧
    (x.lane = l → x.column ≠ prevColumn c col) ∧
    (r = 0 → x.lane = l → x.column < col) ∧
    (r = 0 → x.lane ≠ l → x.column < sl * SL) ∧
    (x.lane ≠ l → ¬(sl * SL ≤ x.column ∧ x.column < sl * SL + SL)) ∧
    (x.lane = l → sl * SL ≤ x.column → x.column < sl * SL + SL → x.column < col)

/-- ADDRGEN with CFGOK = 1 and dst in LMEM (R241), whatever r, s, l and k are: block dst becomes G(ZERO, G(ZERO, Z)) for the
input block Z of R223, whose words are r, l, s, m′, t, 2, k and then zeros; every other byte and register unchanged. -/
def Obligations.AddrgenWritesTheAddressBlock : Prop :=
  ∀ (s : State) (rec : Latch), s.latch = some rec → s.status.cfgok = true →
    let d := rec.args.arg4.toNat
    d < s.lmemBlocks →
    ∃ (t : State) (Z : Block), exec .addrgen s = .next t ∧
      Z.toList = [rec.args.arg0.setWidth 64, rec.args.arg2.setWidth 64, rec.args.arg1.setWidth 64, s.cfg.mp.setWidth 64,
        s.cfg.t.setWidth 64, 2, rec.args.arg3.setWidth 64] ++ List.replicate 121 0 ∧
      t.lmem.readBlock d = compress zeroBlock (compress zeroBlock Z) ∧ SameOutside s t (1024 * d) 1024 ∧
      t.res = s.res ∧ t.cfg = s.cfg ∧ CompletesOk s t ∧ KeepsHost s t

/-! Fill -/

/-- SEED with CFGOK = 1 and its 64 bytes in LMEM (R290): blocks (l, 0) and (l, 1) of every lane become the seed blocks of the
H0 that LMEM held before any write (R270), also where the H0 range overlaps one; every byte outside those blocks, and
every register, unchanged. -/
def Obligations.SeedWritesTwoBlocksPerLane : Prop :=
  ∀ (s : State) (rec : Latch), s.Inv → s.latch = some rec → s.status.cfgok = true →
    let h := rec.args.arg0.toNat
    let H0 := s.lmem.readBytes h 64
    h + 64 ≤ s.lmemBytes →
    ∃ t, exec .seed s = .next t ∧
      (∀ l c, l < s.cfg.p.toNat → c < 2 → t.lmem.readBlock (l * s.cfg.q.toNat + c)
        = blockOf (hprime 1024 (H0 ++ le32 (BitVec.ofNat 32 c) ++ le32 (BitVec.ofNat 32 l)))) ∧
      (∀ x, (∀ l c, l < s.cfg.p.toNat → c < 2 →
          x < 1024 * (l * s.cfg.q.toNat + c) ∨ 1024 * (l * s.cfg.q.toNat + c) + 1024 ≤ x) →
        t.lmem.readByte x = s.lmem.readByte x) ∧
      t.res = s.res ∧ t.cfg = s.cfg ∧ CompletesOk s t ∧ KeepsHost s t

/-- FILLSEG with CFGOK = 1 and r < t, s ≤ 3, l < p (R291): when it has completed, the block of every position of the segment
satisfies the equation of R272 over the matrix it leaves, the old block XORed in for r > 0; every byte outside the
positions filled (from index 2 in slice 0 of pass 0, R274), and every register, unchanged. -/
def Obligations.FillsegFillsItsSegment : Prop :=
  ∀ (s : State) (rec : Latch), s.Inv → s.latch = some rec → s.status.cfgok = true →
    let r := rec.args.arg0.toNat
    let sl := rec.args.arg1.toNat
    let l := rec.args.arg2.toNat
    let q := s.cfg.q.toNat
    let SL := s.cfg.sl.toNat
    let st := if r = 0 ∧ sl = 0 then 2 else 0
    r < s.cfg.t.toNat → sl ≤ 3 → l < s.cfg.p.toNat →
    ∃ t, exec .fillseg s = .next t ∧
      (∀ i, st ≤ i → i < SL →
        let col := sl * SL + i
        let prev := t.lmem.readBlock (l * q + if col = 0 then q - 1 else col - 1)
        let J := if r = 0 ∧ sl < 2 then (addrBlock s.cfg r sl l (i / 128 + 1))[i % 128] else prev[0]
        let ref := refIndex s.cfg r sl l i (lo32 J).toNat (hi32 J).toNat
        let N := compress prev (t.lmem.readBlock (ref.lane * q + ref.column))
        t.lmem.readBlock (l * q + col) = if 0 < r then xorBlock N (s.lmem.readBlock (l * q + col)) else N) ∧
      SameOutside s t (1024 * (l * q + sl * SL + st)) (1024 * (SL - st)) ∧
      t.res = s.res ∧ t.cfg = s.cfg ∧ CompletesOk s t ∧ KeepsHost s t

/-- LMEM after a FILLSEG r, s, l is run over LMEM `m`, the other state as in `s`. -/
def Sys2Proof.Machine.afterFillseg (s : State) (m : Memory) (x : Nat × Nat × Nat) : Memory :=
  match exec .fillseg { s with
    lmem := m
    latch := some ⟨encode .fillseg, ⟨BitVec.ofNat 32 x.1, BitVec.ofNat 32 x.2.1, BitVec.ofNat 32 x.2.2, 0, 0, 0⟩⟩ } with
  | .next t => t.lmem
  | .fault _ | .refused _ => m

/-- The segments (r, s, l) of a whole fill, pass by pass and slice by slice, the lanes of a slice in the order given (R275,
R353). -/
def Sys2Proof.Machine.segmentsInOrder (t : Nat) (order : Nat → Nat → List Nat) : List (Nat × Nat × Nat) :=
  (List.range t).flatMap fun r => (List.range 4).flatMap fun sl => (order r sl).map fun l => (r, sl, l)

/-- R291 and R353: FILL, which completes whenever CFGOK = 1 (R292), leaves the very LMEM that FILLSEG commands leave, issued
once each pass by pass and slice by slice with the lanes of each slice in any order; it changes no byte outside the
matrix, with one pass not the seed columns either, and no register. -/
def Obligations.FillIsItsSegmentsInAnyLaneOrder : Prop :=
  ∀ s : State, s.Inv → s.status.cfgok = true →
    let p := s.cfg.p.toNat
    let q := s.cfg.q.toNat
    ∃ t, exec .fill s = .next t ∧
      (∀ order : Nat → Nat → List Nat, (∀ r sl, (order r sl).Perm (List.range p)) →
        (segmentsInOrder s.cfg.t.toNat order).foldl (afterFillseg s) s.lmem = t.lmem) ∧
      SameOutside s t 0 (1024 * s.cfg.mp.toNat) ∧
      (s.cfg.t.toNat = 1 → ∀ l c, l < p → c < 2 → t.lmem.readBlock (l * q + c) = s.lmem.readBlock (l * q + c)) ∧
      t.res = s.res ∧ t.cfg = s.cfg ∧ CompletesOk s t ∧ KeepsHost s t

/-- The positions of slice `sl` of pass `r` filled in the order of a schedule of lanes: each entry fills the next position of
its lane. -/
def Sys2Proof.Machine.fillInterleaved (c : Cfg) (r sl : Nat) : List Nat → List Nat → Memory → Memory
  | [], _, m => m
  | l :: todo, filled, m =>
    fillInterleaved c r sl todo (l :: filled) (fillPosition c r sl l (fillStart r sl + filled.count l) m)

/-- R277: between two barriers the segments of one slice may run in any order, or interleaved at the granularity of one
position, with the same result. -/
def Obligations.LaneInterleavingIsNotObservable : Prop :=
  ∀ (c : Cfg) (n r sl : Nat) (m : Memory) (schedule : List Nat), c.Valid n → sl < 4 → m.wf = true →
    schedule.Perm ((List.range c.p.toNat).flatMap fun l => List.replicate (c.sl.toNat - fillStart r sl) l) →
    fillInterleaved c r sl schedule [] m = fillSlice c r sl (List.range c.p.toNat) m

/-- R79 and R278: FILL's matrix does not depend on what LMEM held outside the seed blocks: two machines with the same
configuration and the same seed blocks end with the same matrix. -/
def Obligations.FillDependsOnlyOnTheSeeds : Prop :=
  ∀ s s' t t' : State, s.Inv → s'.Inv → s.status.cfgok = true → s'.status.cfgok = true → s'.cfg = s.cfg →
    (∀ l c, l < s.cfg.p.toNat → c < 2 →
      s'.lmem.readBlock (l * s.cfg.q.toNat + c) = s.lmem.readBlock (l * s.cfg.q.toNat + c)) →
    exec .fill s = .next t → exec .fill s' = .next t' →
    ∀ b, b < s.cfg.mp.toNat → t'.lmem.readBlock b = t.lmem.readBlock b

/-- FINAL with CFGOK = 1 and dst in LMEM (R293, R279), the inputs read before the write: word k of block dst becomes the XOR
of word k of the last column's block across all lanes; every other byte and register unchanged. -/
def Obligations.FinalWritesThePreKey : Prop :=
  ∀ (s : State) (rec : Latch), s.latch = some rec → s.status.cfgok = true →
    let d := rec.args.arg0.toNat
    let q := s.cfg.q.toNat
    d < s.lmemBlocks →
    ∃ t, exec .final s = .next t ∧
      (∀ (k : Nat) (hk : k < 128), (t.lmem.readBlock d)[k]
        = ((List.range s.cfg.p.toNat).map fun l => (s.lmem.readBlock (l * q + (q - 1)))[k]).foldr (· ^^^ ·) 0) ∧
      SameOutside s t (1024 * d) 1024 ∧ t.res = s.res ∧ t.cfg = s.cfg ∧ CompletesOk s t ∧ KeepsHost s t

/-- R281: the H0 input has 40 + len(P) + len(S) + len(K) + len(X) bytes and begins with LE32 of p, τ, m and t. -/
def Obligations.H0InputHasTheStatedLength : Prop :=
  ∀ (p τ m t : Word) (P S K X : Bytes),
    (h0Input p τ m t P S K X).length = 40 + P.length + S.length + K.length + X.length ∧
    (h0Input p τ m t P S K X).take 16 = le32 p ++ le32 τ ++ le32 m ++ le32 t

/-! The invariant -/

/-- The state after power-up meets the invariant. -/
def Obligations.ResetMeetsTheInvariant : Prop := State.reset.Inv

/-- From every state that meets the invariant, every step that answers a next state gives one that meets it: ERRCODE is 0
exactly when ERR is (R29), DONE and ERR are 0 while BUSY (R352), CMD reads back the running word (R40), the CFG registers
hold a valid configuration while CFGOK = 1 (R34), and LMEM keeps its canonical form and its bounds, FILL included. -/
def Obligations.EveryStepKeepsTheInvariant : Prop :=
  ∀ s t : State, s.Inv → step s = .next t → t.Inv

/-! Host scripts -/

/-- Every run of a script, whatever the schedule, is a run of the machine: the inputs it made, host accesses and SEQ steps
in order, take the machine from where the script began to where it ended (R14, R113). -/
def Obligations.ScriptRunsAreRunsOfTheMachine : Prop :=
  ∀ (p : List Stmt) (b b' : Bus) (rs : List StmtResult), runScript p b = .next (b', rs) →
    ∃ l : List Input, b'.trace = b.trace ++ l ∧ .rst ∉ l ∧
      ∀ rest, Sys2Proof.core.run l.length { b.machine with inputs := l ++ rest }
        = .next { b'.machine with inputs := rest }

/-- WAIT (R110, R113), in every state and under every schedule: it reads STATUS and nothing else, stops at the first word
with bit 0 = 0, and the machine is then idle; with no command running that is one read; and a schedule may hold a
completion back for any number of reads (R356). -/
def Obligations.WaitStopsAtTheFirstIdleRead : Prop :=
  ∀ b : Bus, ∃ (b' : Bus) (last : Word) (busyReads : List Word), b.wait = .next b' ∧
    b'.machine.reads = last :: busyReads ++ b.machine.reads ∧
    transactions b'.trace
      = transactions b.trace ++ List.replicate (busyReads.length + 1) (.read 0x0000000C#32) ∧
    (∀ w ∈ busyReads, w.getLsbD 0 = true) ∧ last.getLsbD 0 = false ∧ b'.machine.busy = false ∧
    (b.machine.busy = false → busyReads = []) ∧
    (b.machine.busy = true → ∀ n, b.schedule = List.replicate n false → busyReads.length = n)

/-- CHECK (R110) with no command running: it reads STATUS; where ERR is 1 the script fails, with no write; otherwise it writes
0x2 to STATUS, which clears DONE, and the script goes on. R110 says only that the script fails: that it then ends where it
stands, with none of its later statements run, is the model's choice (log entry 13). -/
def Obligations.CheckEndsAFailingScript : Prop :=
  ∀ (b : Bus) (p : List Stmt), b.machine.busy = false →
    let s := b.machine
    (s.status.err = true → ∃ b', runScript (.check :: p) b = .next (b', [.failed]) ∧
      b'.machine = { s with reads := s.statusWord :: s.reads } ∧
      transactions b'.trace = transactions b.trace ++ [.read 0x0000000C#32]) ∧
    (s.status.err = false → ∃ b', runScript (.check :: p) b
        = andThen (runScript p b') (fun y => .next (y.1, StmtResult.none :: y.2)) ∧
      b'.machine = { s with reads := s.statusWord :: s.reads, status := { s.status with done := false } } ∧
      transactions b'.trace = transactions b.trace ++ [.read 0x0000000C#32, .write 0x0000000C#32 0x2#32])

/-- R112 with no command running and the words in LMEM: LOADW leaves the words little-endian, LOADB the bytes and the zeros
up to the next multiple of 4, and no other byte or register changes; the result of READB is the `n` bytes at `o`. -/
def Obligations.DataStatementsMoveTheirBytes : Prop :=
  ∀ b : Bus, b.machine.Inv → b.machine.busy = false →
    let s := b.machine
    ∀ o : Nat, o % 4 = 0 →
    (∀ vs : List Word, o + 4 * vs.length ≤ s.lmemBytes → ∃ b', (Stmt.loadw o vs).run b = .next (b', .none) ∧
      b'.machine.lmem.readBytes o (4 * vs.length) = vs.flatMap le32 ∧
      SameOutside s b'.machine o (4 * vs.length) ∧ b'.machine = { s with lmem := b'.machine.lmem }) ∧
    (∀ S : Bytes,
      let n := 4 * ((S.length + 3) / 4)
      o + n ≤ s.lmemBytes → ∃ b', (Stmt.loadb o S).run b = .next (b', .none) ∧
      b'.machine.lmem.readBytes o n = S ++ zeros (n - S.length) ∧
      SameOutside s b'.machine o n ∧ b'.machine = { s with lmem := b'.machine.lmem }) ∧
    (∀ n : Nat, o + n ≤ s.lmemBytes → ∃ b', (Stmt.readb o n).run b = .next (b', .bytes (s.lmem.readBytes o n)) ∧
      b'.machine = { s with reads := b'.machine.reads })

/-- R282 and R345: the host's derivation, from any idle state, under any schedule and with any operands whose statements are
well-formed (its scratch duty and the bound on 1024·f are not needed for this), ends; and whether it answered a tag or gave
up at a failed CHECK, every LMEM byte and every result register is then 0 and no command runs. -/
def Obligations.DerivationZeroizesOnEveryPath : Prop :=
  ∀ (d : Derivation) (b : Bus), d.script.all Stmt.wf = true → b.machine.busy = false →
    ∃ (b' : Bus) (tag : Option Bytes), d.run b = .next (b', tag) ∧ b'.machine.busy = false ∧
      (∀ x, b'.machine.lmem.readByte x = 0) ∧ ∀ k, b'.machine.res.get k = 0
end

