-- ==== Sys2Proof/Laws/Bytes.lean ====
section
/-! SUPPORT. Lengths and round trips of the byte orders and of blocks. -/

namespace Sys2Proof.Machine

@[simp] theorem le32_length (v : Word) : (le32 v).length = 4 := rfl

@[simp] theorem le64_length (v : U64) : (le64 v).length = 8 := by simp [le64]

@[simp] theorem zeros_length (n : Nat) : (zeros n).length = n := by simp [zeros]

@[simp] theorem leBytes_length (ws : List U64) : (leBytes ws).length = 8 * ws.length := by
  induction ws with
  | nil => rfl
  | cons w ws ih => simp only [leBytes, List.flatMap_cons, List.length_append, le64_length, List.length_cons] at *; omega

@[simp] theorem bytesOf_length (B : Block) : (bytesOf B).length = 1024 := by simp [bytesOf]

theorem le64_getElem (v : U64) (j : Nat) (h : j < (le64 v).length) : (le64 v)[j] = v.extractLsb' (8 * j) 8 := by
  simp [le64]

/-- Byte 8k + j of a list of words is byte j of word k. -/
theorem leBytes_getElem? (ws : List U64) (k j : Nat) (hj : j < 8) :
    (leBytes ws)[8 * k + j]? = ws[k]?.map fun w => w.extractLsb' (8 * j) 8 := by
  induction ws generalizing k with
  | nil => simp [leBytes]
  | cons w ws ih =>
    cases k with
    | zero =>
      rw [leBytes, List.flatMap_cons, List.getElem?_append_left (by simp; omega)]
      simp [le64_getElem, hj]
    | succ k =>
      have e : 8 * (k + 1) + j = 8 + (8 * k + j) := by omega
      rw [leBytes, List.flatMap_cons, List.getElem?_append_right (by simp; omega), e]
      simpa [leBytes] using ih k

theorem leNat_lt (S : Bytes) : leNat S < 2 ^ (8 * S.length) := by
  induction S with
  | nil => simp [leNat]
  | cons b bs ih =>
    have hb := b.isLt
    have e : 2 ^ (8 * (bs.length + 1)) = 2 ^ 8 * 2 ^ (8 * bs.length) := by rw [← pow_add]; congr 1; omega
    simp only [leNat, List.length_cons, e]
    omega

/-- Bit 8j + b of the number of a byte string is bit b of its byte j. -/
theorem leNat_testBit (S : Bytes) (i : Nat) :
    (leNat S).testBit i = match S[i / 8]? with | some b => b.getLsbD (i % 8) | none => false := by
  induction S generalizing i with
  | nil => simp [leNat]
  | cons b bs ih =>
    have hb := b.isLt
    rw [leNat, Nat.add_comm, Nat.testBit_two_pow_mul_add _ hb]
    by_cases h : i < 8
    · have h0 : i / 8 = 0 := by omega
      have h1 : i % 8 = i := by omega
      simp [h, h0, h1, BitVec.getLsbD]
    · have e : i / 8 = (i - 8) / 8 + 1 := by omega
      have e' : (i - 8) % 8 = i % 8 := by omega
      rw [if_neg h, ih, e, List.getElem?_cons_succ, e']

theorem leNat_le64 (v : U64) : leNat (le64 v) = v.toNat := by
  apply Nat.eq_of_testBit_eq
  intro i
  rw [leNat_testBit]
  by_cases h : i < 64
  · have hj : i / 8 < (le64 v).length := by simp; omega
    rw [List.getElem?_eq_getElem hj, le64_getElem]
    simp only [BitVec.getLsbD_extractLsb']
    have h2 : 8 * (i / 8) + i % 8 = i := by omega
    have h3 : i % 8 < 8 := by omega
    simp [h2, h3, BitVec.getLsbD]
  · rw [List.getElem?_eq_none (by simp; omega)]
    have : v.toNat < 2 ^ i := lt_of_lt_of_le v.isLt (Nat.pow_le_pow_right (by decide) (by omega))
    simp [Nat.testBit_lt_two_pow this]

theorem leBytes_drop_take (ws : List U64) (k : Nat) (h : k < ws.length) :
    ((leBytes ws).drop (8 * k)).take 8 = le64 ws[k] := by
  apply List.ext_getElem?
  intro j
  rw [List.getElem?_take]
  split
  · rename_i hj
    rw [List.getElem?_drop, leBytes_getElem? _ _ _ hj, List.getElem?_eq_getElem h,
      List.getElem?_eq_getElem (by simpa using hj), le64_getElem]
    rfl
  · rw [List.getElem?_eq_none (by simp; omega)]

/-- Reading the words of a vector's bytes gives the vector back. -/
theorem leWords_leBytes {n : Nat} (v : Vector U64 n) : leWords n (leBytes v.toList) = v := by
  apply Vector.ext
  intro k hk
  rw [leWords, Vector.getElem_ofFn]
  have hk' : k < v.toList.length := by simpa using hk
  rw [leBytes_drop_take _ k hk', leNat_le64]
  simp

/-- `blockOf` inverts `bytesOf` (R10). -/
theorem blockOf_bytesOf (B : Block) : blockOf (bytesOf B) = B := leWords_leBytes B

/-- `bytesOf` inverts `blockOf` on 1024-byte strings (R10). -/
theorem bytesOf_blockOf (S : Bytes) (h : S.length = 1024) : bytesOf (blockOf S) = S := by
  apply List.ext_getElem?
  intro i
  have e : i = 8 * (i / 8) + i % 8 := by omega
  have hm : i % 8 < 8 := by omega
  rw [e, bytesOf, leBytes_getElem? _ _ _ hm]
  by_cases hi : i < 1024
  · have hk : i / 8 < 128 := by omega
    have hl : i / 8 < (blockOf S).toList.length := by simpa using hk
    rw [List.getElem?_eq_getElem hl, List.getElem?_eq_getElem (by omega)]
    simp only [Option.map_some, Vector.getElem_toList, blockOf, leWords, Vector.getElem_ofFn, Option.some.injEq]
    apply BitVec.eq_of_getLsbD_eq
    intro b hb
    rw [BitVec.getLsbD_extractLsb', BitVec.getLsbD_ofNat, leNat_testBit]
    have h1 : (8 * (i % 8) + b) / 8 = i % 8 := by omega
    have h2 : (8 * (i % 8) + b) % 8 = b := by omega
    have h3 : 8 * (i % 8) + b < 64 := by omega
    rw [h1, h2, List.getElem?_take, if_pos hm, List.getElem?_drop, List.getElem?_eq_getElem (by omega)]
    simp [hb, h3]
  · rw [List.getElem?_eq_none (by simp; omega), List.getElem?_eq_none (by omega)]
    rfl

@[simp] theorem xorBlock_getElem (B C : Block) (k : Nat) (h : k < 128) : (xorBlock B C)[k] = B[k] ^^^ C[k] := by
  simp [xorBlock]

@[simp] theorem zeroBlock_getElem (k : Nat) (h : k < 128) : zeroBlock[k] = 0 := by simp [zeroBlock]

theorem xorBlock_comm (B C : Block) : xorBlock B C = xorBlock C B := by
  apply Vector.ext
  intro k hk
  simp [BitVec.xor_comm]

theorem xorBlock_self (B : Block) : xorBlock B B = zeroBlock := by
  apply Vector.ext
  intro k hk
  simp

/-- The digest has its length (R155). -/
theorem blake2b_length (nn : Nat) (M : Bytes) (h : nn ≤ 64) : (blake2b nn M).length = nn := by
  simp [blake2b, h]

end Sys2Proof.Machine
end

