-- ==== Sys2Proof/Laws/State.lean ====
section
/-! SUPPORT. One lemma for each field and each update of the state, so that no proof unfolds a record update. -/

namespace Sys2Proof.Machine

/-! State.complete -/

@[simp] theorem State.complete_cmd (s : State) : (s.complete).cmd = s.cmd := rfl
@[simp] theorem State.complete_status (s : State) : (s.complete).status = { s.status with done := true } := rfl
@[simp] theorem State.complete_irqen (s : State) : (s.complete).irqen = s.irqen := rfl
@[simp] theorem State.complete_args (s : State) : (s.complete).args = s.args := rfl
@[simp] theorem State.complete_res (s : State) : (s.complete).res = s.res := rfl
@[simp] theorem State.complete_cfg (s : State) : (s.complete).cfg = s.cfg := rfl
@[simp] theorem State.complete_cap (s : State) : (s.complete).cap = s.cap := rfl
@[simp] theorem State.complete_latch (s : State) : (s.complete).latch = none := rfl
@[simp] theorem State.complete_lmem (s : State) : (s.complete).lmem = s.lmem := rfl
@[simp] theorem State.complete_inputs (s : State) : (s.complete).inputs = s.inputs := rfl
@[simp] theorem State.complete_reads (s : State) : (s.complete).reads = s.reads := rfl
@[simp] theorem State.complete_draws (s : State) : (s.complete).draws = s.draws := rfl

/-! State.raiseError -/

@[simp] theorem State.raiseError_cmd (s : State) (e : ErrCode) : (s.raiseError e).cmd = s.cmd := rfl
@[simp] theorem State.raiseError_status (s : State) (e : ErrCode) : (s.raiseError e).status = { s.status with done := true, err := true, errcode := e } := rfl
@[simp] theorem State.raiseError_irqen (s : State) (e : ErrCode) : (s.raiseError e).irqen = s.irqen := rfl
@[simp] theorem State.raiseError_args (s : State) (e : ErrCode) : (s.raiseError e).args = s.args := rfl
@[simp] theorem State.raiseError_res (s : State) (e : ErrCode) : (s.raiseError e).res = s.res := rfl
@[simp] theorem State.raiseError_cfg (s : State) (e : ErrCode) : (s.raiseError e).cfg = s.cfg := rfl
@[simp] theorem State.raiseError_cap (s : State) (e : ErrCode) : (s.raiseError e).cap = s.cap := rfl
@[simp] theorem State.raiseError_latch (s : State) (e : ErrCode) : (s.raiseError e).latch = none := rfl
@[simp] theorem State.raiseError_lmem (s : State) (e : ErrCode) : (s.raiseError e).lmem = s.lmem := rfl
@[simp] theorem State.raiseError_inputs (s : State) (e : ErrCode) : (s.raiseError e).inputs = s.inputs := rfl
@[simp] theorem State.raiseError_reads (s : State) (e : ErrCode) : (s.raiseError e).reads = s.reads := rfl
@[simp] theorem State.raiseError_draws (s : State) (e : ErrCode) : (s.raiseError e).draws = s.draws := rfl

/-! State.accept -/

@[simp] theorem State.accept_cmd (s : State) (v : Word) : (s.accept v).cmd = v := rfl
@[simp] theorem State.accept_status (s : State) (v : Word) : (s.accept v).status = { s.status with done := false, err := false, errcode := .none } := rfl
@[simp] theorem State.accept_irqen (s : State) (v : Word) : (s.accept v).irqen = s.irqen := rfl
@[simp] theorem State.accept_args (s : State) (v : Word) : (s.accept v).args = s.args := rfl
@[simp] theorem State.accept_res (s : State) (v : Word) : (s.accept v).res = s.res := rfl
@[simp] theorem State.accept_cfg (s : State) (v : Word) : (s.accept v).cfg = s.cfg := rfl
@[simp] theorem State.accept_cap (s : State) (v : Word) : (s.accept v).cap = s.cap := rfl
@[simp] theorem State.accept_latch (s : State) (v : Word) : (s.accept v).latch = some ⟨v, s.args⟩ := rfl
@[simp] theorem State.accept_lmem (s : State) (v : Word) : (s.accept v).lmem = s.lmem := rfl
@[simp] theorem State.accept_inputs (s : State) (v : Word) : (s.accept v).inputs = s.inputs := rfl
@[simp] theorem State.accept_reads (s : State) (v : Word) : (s.accept v).reads = s.reads := rfl
@[simp] theorem State.accept_draws (s : State) (v : Word) : (s.accept v).draws = s.draws := rfl

/-! State.overrun -/

@[simp] theorem State.overrun_cmd (s : State) : (s.overrun).cmd = s.cmd := rfl
@[simp] theorem State.overrun_status (s : State) : (s.overrun).status = { s.status with ovr := true } := rfl
@[simp] theorem State.overrun_irqen (s : State) : (s.overrun).irqen = s.irqen := rfl
@[simp] theorem State.overrun_args (s : State) : (s.overrun).args = s.args := rfl
@[simp] theorem State.overrun_res (s : State) : (s.overrun).res = s.res := rfl
@[simp] theorem State.overrun_cfg (s : State) : (s.overrun).cfg = s.cfg := rfl
@[simp] theorem State.overrun_cap (s : State) : (s.overrun).cap = s.cap := rfl
@[simp] theorem State.overrun_latch (s : State) : (s.overrun).latch = s.latch := rfl
@[simp] theorem State.overrun_lmem (s : State) : (s.overrun).lmem = s.lmem := rfl
@[simp] theorem State.overrun_inputs (s : State) : (s.overrun).inputs = s.inputs := rfl
@[simp] theorem State.overrun_reads (s : State) : (s.overrun).reads = s.reads := rfl
@[simp] theorem State.overrun_draws (s : State) : (s.overrun).draws = s.draws := rfl

/-! State.hostBusError -/

@[simp] theorem State.hostBusError_cmd (s : State) : (s.hostBusError).cmd = s.cmd := rfl
@[simp] theorem State.hostBusError_status (s : State) : (s.hostBusError).status = { s.status with hbe := true } := rfl
@[simp] theorem State.hostBusError_irqen (s : State) : (s.hostBusError).irqen = s.irqen := rfl
@[simp] theorem State.hostBusError_args (s : State) : (s.hostBusError).args = s.args := rfl
@[simp] theorem State.hostBusError_res (s : State) : (s.hostBusError).res = s.res := rfl
@[simp] theorem State.hostBusError_cfg (s : State) : (s.hostBusError).cfg = s.cfg := rfl
@[simp] theorem State.hostBusError_cap (s : State) : (s.hostBusError).cap = s.cap := rfl
@[simp] theorem State.hostBusError_latch (s : State) : (s.hostBusError).latch = s.latch := rfl
@[simp] theorem State.hostBusError_lmem (s : State) : (s.hostBusError).lmem = s.lmem := rfl
@[simp] theorem State.hostBusError_inputs (s : State) : (s.hostBusError).inputs = s.inputs := rfl
@[simp] theorem State.hostBusError_reads (s : State) : (s.hostBusError).reads = s.reads := rfl
@[simp] theorem State.hostBusError_draws (s : State) : (s.hostBusError).draws = s.draws := rfl

/-! State.returned -/

@[simp] theorem State.returned_cmd (s : State) (v : Word) : (s.returned v).cmd = s.cmd := rfl
@[simp] theorem State.returned_status (s : State) (v : Word) : (s.returned v).status = s.status := rfl
@[simp] theorem State.returned_irqen (s : State) (v : Word) : (s.returned v).irqen = s.irqen := rfl
@[simp] theorem State.returned_args (s : State) (v : Word) : (s.returned v).args = s.args := rfl
@[simp] theorem State.returned_res (s : State) (v : Word) : (s.returned v).res = s.res := rfl
@[simp] theorem State.returned_cfg (s : State) (v : Word) : (s.returned v).cfg = s.cfg := rfl
@[simp] theorem State.returned_cap (s : State) (v : Word) : (s.returned v).cap = s.cap := rfl
@[simp] theorem State.returned_latch (s : State) (v : Word) : (s.returned v).latch = s.latch := rfl
@[simp] theorem State.returned_lmem (s : State) (v : Word) : (s.returned v).lmem = s.lmem := rfl
@[simp] theorem State.returned_inputs (s : State) (v : Word) : (s.returned v).inputs = s.inputs := rfl
@[simp] theorem State.returned_reads (s : State) (v : Word) : (s.returned v).reads = v :: s.reads := rfl
@[simp] theorem State.returned_draws (s : State) (v : Word) : (s.returned v).draws = s.draws := rfl

/-! State.withLmem -/

@[simp] theorem State.withLmem_cmd (s : State) (m : Memory) : (s.withLmem m).cmd = s.cmd := rfl
@[simp] theorem State.withLmem_status (s : State) (m : Memory) : (s.withLmem m).status = s.status := rfl
@[simp] theorem State.withLmem_irqen (s : State) (m : Memory) : (s.withLmem m).irqen = s.irqen := rfl
@[simp] theorem State.withLmem_args (s : State) (m : Memory) : (s.withLmem m).args = s.args := rfl
@[simp] theorem State.withLmem_res (s : State) (m : Memory) : (s.withLmem m).res = s.res := rfl
@[simp] theorem State.withLmem_cfg (s : State) (m : Memory) : (s.withLmem m).cfg = s.cfg := rfl
@[simp] theorem State.withLmem_cap (s : State) (m : Memory) : (s.withLmem m).cap = s.cap := rfl
@[simp] theorem State.withLmem_latch (s : State) (m : Memory) : (s.withLmem m).latch = s.latch := rfl
@[simp] theorem State.withLmem_lmem (s : State) (m : Memory) : (s.withLmem m).lmem = m := rfl
@[simp] theorem State.withLmem_inputs (s : State) (m : Memory) : (s.withLmem m).inputs = s.inputs := rfl
@[simp] theorem State.withLmem_reads (s : State) (m : Memory) : (s.withLmem m).reads = s.reads := rfl
@[simp] theorem State.withLmem_draws (s : State) (m : Memory) : (s.withLmem m).draws = s.draws := rfl

/-! State.withRes -/

@[simp] theorem State.withRes_cmd (s : State) (x : Res) : (s.withRes x).cmd = s.cmd := rfl
@[simp] theorem State.withRes_status (s : State) (x : Res) : (s.withRes x).status = s.status := rfl
@[simp] theorem State.withRes_irqen (s : State) (x : Res) : (s.withRes x).irqen = s.irqen := rfl
@[simp] theorem State.withRes_args (s : State) (x : Res) : (s.withRes x).args = s.args := rfl
@[simp] theorem State.withRes_res (s : State) (x : Res) : (s.withRes x).res = x := rfl
@[simp] theorem State.withRes_cfg (s : State) (x : Res) : (s.withRes x).cfg = s.cfg := rfl
@[simp] theorem State.withRes_cap (s : State) (x : Res) : (s.withRes x).cap = s.cap := rfl
@[simp] theorem State.withRes_latch (s : State) (x : Res) : (s.withRes x).latch = s.latch := rfl
@[simp] theorem State.withRes_lmem (s : State) (x : Res) : (s.withRes x).lmem = s.lmem := rfl
@[simp] theorem State.withRes_inputs (s : State) (x : Res) : (s.withRes x).inputs = s.inputs := rfl
@[simp] theorem State.withRes_reads (s : State) (x : Res) : (s.withRes x).reads = s.reads := rfl
@[simp] theorem State.withRes_draws (s : State) (x : Res) : (s.withRes x).draws = s.draws := rfl

/-! State.withCfg -/

@[simp] theorem State.withCfg_cmd (s : State) (c : Cfg) : (s.withCfg c).cmd = s.cmd := rfl
@[simp] theorem State.withCfg_status (s : State) (c : Cfg) : (s.withCfg c).status = s.status := rfl
@[simp] theorem State.withCfg_irqen (s : State) (c : Cfg) : (s.withCfg c).irqen = s.irqen := rfl
@[simp] theorem State.withCfg_args (s : State) (c : Cfg) : (s.withCfg c).args = s.args := rfl
@[simp] theorem State.withCfg_res (s : State) (c : Cfg) : (s.withCfg c).res = s.res := rfl
@[simp] theorem State.withCfg_cfg (s : State) (c : Cfg) : (s.withCfg c).cfg = c := rfl
@[simp] theorem State.withCfg_cap (s : State) (c : Cfg) : (s.withCfg c).cap = s.cap := rfl
@[simp] theorem State.withCfg_latch (s : State) (c : Cfg) : (s.withCfg c).latch = s.latch := rfl
@[simp] theorem State.withCfg_lmem (s : State) (c : Cfg) : (s.withCfg c).lmem = s.lmem := rfl
@[simp] theorem State.withCfg_inputs (s : State) (c : Cfg) : (s.withCfg c).inputs = s.inputs := rfl
@[simp] theorem State.withCfg_reads (s : State) (c : Cfg) : (s.withCfg c).reads = s.reads := rfl
@[simp] theorem State.withCfg_draws (s : State) (c : Cfg) : (s.withCfg c).draws = s.draws := rfl

/-! State.withCfgok -/

@[simp] theorem State.withCfgok_cmd (s : State) (b : Bool) : (s.withCfgok b).cmd = s.cmd := rfl
@[simp] theorem State.withCfgok_status (s : State) (b : Bool) : (s.withCfgok b).status = { s.status with cfgok := b } := rfl
@[simp] theorem State.withCfgok_irqen (s : State) (b : Bool) : (s.withCfgok b).irqen = s.irqen := rfl
@[simp] theorem State.withCfgok_args (s : State) (b : Bool) : (s.withCfgok b).args = s.args := rfl
@[simp] theorem State.withCfgok_res (s : State) (b : Bool) : (s.withCfgok b).res = s.res := rfl
@[simp] theorem State.withCfgok_cfg (s : State) (b : Bool) : (s.withCfgok b).cfg = s.cfg := rfl
@[simp] theorem State.withCfgok_cap (s : State) (b : Bool) : (s.withCfgok b).cap = s.cap := rfl
@[simp] theorem State.withCfgok_latch (s : State) (b : Bool) : (s.withCfgok b).latch = s.latch := rfl
@[simp] theorem State.withCfgok_lmem (s : State) (b : Bool) : (s.withCfgok b).lmem = s.lmem := rfl
@[simp] theorem State.withCfgok_inputs (s : State) (b : Bool) : (s.withCfgok b).inputs = s.inputs := rfl
@[simp] theorem State.withCfgok_reads (s : State) (b : Bool) : (s.withCfgok b).reads = s.reads := rfl
@[simp] theorem State.withCfgok_draws (s : State) (b : Bool) : (s.withCfgok b).draws = s.draws := rfl

/-! State.issued -/

@[simp] theorem State.issued_cmd (s : State) (w : Word) : (s.issued w).cmd = w := rfl
@[simp] theorem State.issued_status (s : State) (w : Word) : (s.issued w).status = { s.status with done := false, err := false, errcode := .none } := rfl
@[simp] theorem State.issued_irqen (s : State) (w : Word) : (s.issued w).irqen = s.irqen := rfl
@[simp] theorem State.issued_args (s : State) (w : Word) : (s.issued w).args = s.args := rfl
@[simp] theorem State.issued_res (s : State) (w : Word) : (s.issued w).res = s.res := rfl
@[simp] theorem State.issued_cfg (s : State) (w : Word) : (s.issued w).cfg = s.cfg := rfl
@[simp] theorem State.issued_cap (s : State) (w : Word) : (s.issued w).cap = s.cap := rfl
@[simp] theorem State.issued_latch (s : State) (w : Word) : (s.issued w).latch = some ⟨w, s.args⟩ := rfl
@[simp] theorem State.issued_lmem (s : State) (w : Word) : (s.issued w).lmem = s.lmem := rfl
@[simp] theorem State.issued_inputs (s : State) (w : Word) : (s.issued w).inputs = .seq :: s.inputs := rfl
@[simp] theorem State.issued_reads (s : State) (w : Word) : (s.issued w).reads = s.reads := rfl
@[simp] theorem State.issued_draws (s : State) (w : Word) : (s.issued w).draws = s.draws := rfl

/-! Derived views -/

@[simp] theorem State.complete_busy (s : State) : s.complete.busy = false := rfl
@[simp] theorem State.raiseError_busy (s : State) (e : ErrCode) : (s.raiseError e).busy = false := rfl
@[simp] theorem State.accept_busy (s : State) (v : Word) : (s.accept v).busy = true := rfl

theorem State.argl_of_latch {s : State} {r : Latch} (h : s.latch = some r) : s.argl = r.args := by simp [argl, h]

theorem State.operand_of_latch {s : State} {r : Latch} (h : s.latch = some r) (k : Fin 6) :
    s.operand k = (r.args.get k).toNat := by simp [operand, argl_of_latch h]

@[simp] theorem Args.get_put (x : Args) (k : Fin 6) (v : Word) : (x.put k v).get k = v := by
  revert k; simp [Fin.forall_fin_succ, Args.get, Args.put]

theorem Args.get_put_ne (x : Args) (k j : Fin 6) (v : Word) (h : j ≠ k) : (x.put k v).get j = x.get j := by
  revert k j; simp [Fin.forall_fin_succ, Args.get, Args.put]

end Sys2Proof.Machine
end

