-- ==== Sys2Proof/Laws/Commands.lean ====
section
/-! SUPPORT. Everything a command can do, said once: it completes with an error and changes nothing, or it completes and
changes the LMEM, RES, CFG and CFGOK its meaning names. -/

namespace Sys2Proof.Machine

@[simp] theorem State.withCfgok_self (s : State) : s.withCfgok s.status.cfgok = s := rfl
@[simp] theorem State.withLmem_self (s : State) : s.withLmem s.lmem = s := rfl
@[simp] theorem State.withRes_self (s : State) : s.withRes s.res = s := rfl
@[simp] theorem State.withCfg_self (s : State) : s.withCfg s.cfg = s := rfl

/-- The state after a successful completion, by the four things a command may change. -/
def State.completedWith (s : State) (m : Memory) (x : Res) (c : Cfg) (b : Bool) : State :=
  ((((s.withLmem m).withRes x).withCfg c).withCfgok b).complete

/-- An error completion that leaves CFGOK. -/
theorem raiseError_eq (s : State) (e : ErrCode) : s.raiseError e = (s.withCfgok s.status.cfgok).raiseError e := rfl

/-- The two ways a command ends. -/
def Ends (i : Instr) (s t : State) : Prop :=
  (∃ e b, t = (s.withCfgok b).raiseError e ∧ e ≠ .none ∧ (b = s.status.cfgok ∨ i = .config ∧ b = false)) ∨
  (∃ m x c b, t = s.completedWith m x c b ∧ (i ≠ .config → c = s.cfg ∧ b = s.status.cfgok) ∧
    (i ≠ .refidx → i ≠ .zeroize → x = s.res) ∧ (i = .nop ∨ i = .config ∨ i = .refidx → m = s.lmem))

theorem ends_error (i : Instr) (s : State) (e : ErrCode) (h : e ≠ .none) : Ends i s (s.raiseError e) :=
  .inl ⟨e, _, raiseError_eq s e, h, .inl rfl⟩

theorem ends_res (s : State) (x : Res) : Ends .refidx s (s.withRes x).complete :=
  .inr ⟨s.lmem, x, s.cfg, s.status.cfgok, rfl, fun _ => ⟨rfl, rfl⟩, fun h => absurd rfl h, fun _ => rfl⟩

theorem ends_lmem (i : Instr) (s : State) (m : Memory) (h : ¬(i = .nop ∨ i = .config ∨ i = .refidx)) :
    Ends i s (s.withLmem m).complete :=
  .inr ⟨m, s.res, s.cfg, s.status.cfgok, rfl, fun _ => ⟨rfl, rfl⟩, fun _ _ => rfl, fun h' => absurd h' h⟩

/-- Every command answers a next state, and ends in one of the two ways. -/
theorem exec_ends (i : Instr) (s : State) : ∃ t, exec i s = .next t ∧ Ends i s t := by
  cases i
  case nop =>
    exact ⟨_, rfl, .inr ⟨s.lmem, s.res, s.cfg, s.status.cfgok, rfl, fun _ => ⟨rfl, rfl⟩, fun _ _ => rfl, fun _ => rfl⟩⟩
  case config =>
    simp only [exec, execConfig]
    split
    · exact ⟨_, rfl, .inl ⟨_, false, rfl, by decide, .inr ⟨rfl, rfl⟩⟩⟩
    · split
      · exact ⟨_, rfl, .inl ⟨_, false, rfl, by decide, .inr ⟨rfl, rfl⟩⟩⟩
      · exact ⟨_, rfl, .inr ⟨s.lmem, s.res, _, true, rfl, fun h => absurd rfl h, fun _ _ => rfl, fun _ => rfl⟩⟩
  case zeroize =>
    exact ⟨_, rfl, .inr ⟨Memory.allZero, Res.zero, s.cfg, s.status.cfgok, rfl, fun _ => ⟨rfl, rfl⟩, fun _ h => absurd rfl h,
      fun h => absurd h (by decide)⟩⟩
  case refidx =>
    simp only [exec, execRefidx]
    split
    · exact ⟨_, rfl, ends_error _ _ _ (by decide)⟩
    · split
      · exact ⟨_, rfl, ends_error _ _ _ (by decide)⟩
      · exact ⟨_, rfl, ends_res _ _⟩
  all_goals
    simp only [exec, execHash, execHprime, execG, execGx, execPerm, execAddrgen, execSeed, execFillseg, execFill,
      execFinal]
    repeat' split
    all_goals first
      | exact ⟨_, rfl, ends_error _ _ _ (by decide)⟩
      | exact ⟨_, rfl, ends_lmem _ _ _ (by decide)⟩

theorem ends_of_exec {i : Instr} {s t : State} (h : exec i s = .next t) : Ends i s t := by
  obtain ⟨u, hu, he⟩ := exec_ends i s
  rw [hu] at h
  cases h
  exact he

end Sys2Proof.Machine
end

