-- ==== Sys2Proof/Laws/Matrix.lean ====
section
/-! SUPPORT. The geometry of a valid configuration (R34, R260, R261): the matrix is p lanes of q = 4·SL columns, its blocks
are different for different places, and every one lies in LMEM. -/

namespace Sys2Proof.Machine

theorem roundedBlocks_le (p m : Nat) : roundedBlocks p m ≤ m := Nat.mul_div_le m (4 * p)

/-- The geometry CONFIG computes (R122): m′ = p·q and q = 4·SL. -/
theorem roundedBlocks_div (p m : Nat) (h : 1 ≤ p) :
    roundedBlocks p m / p = 4 * (m / (4 * p)) ∧ roundedBlocks p m / (4 * p) = m / (4 * p) := by
  refine ⟨?_, ?_⟩
  · rw [roundedBlocks, show 4 * p * (m / (4 * p)) = 4 * (m / (4 * p)) * p by ring, Nat.mul_div_cancel _ h]
  · rw [roundedBlocks, Nat.mul_div_cancel_left _ (by omega)]

/-- What a successful CONFIG latches is a valid configuration (R34). -/
theorem configured_valid (p m t : Word) (n : Nat) (hp : paramsOk p.toNat m.toNat t.toNat = true)
    (hn : roundedBlocks p.toNat m.toNat ≤ n) : (configured p m t).Valid n := by
  simp only [paramsOk, Bool.and_eq_true, decide_eq_true_eq] at hp
  obtain ⟨⟨⟨hp1, hp2⟩, ht⟩, hm⟩ := hp
  obtain ⟨e1, e2⟩ := roundedBlocks_div p.toNat m.toNat hp1
  have hle := roundedBlocks_le p.toNat m.toNat
  have hm32 := m.isLt
  have hk : 2 ≤ m.toNat / (4 * p.toNat) := (Nat.le_div_iff_mul_le (by omega)).2 (by omega)
  have hq := Nat.div_le_self (roundedBlocks p.toNat m.toNat) p.toNat
  have b1 : (configured p m t).mp.toNat = roundedBlocks p.toNat m.toNat := by
    simp only [configured, BitVec.toNat_ofNat]
    exact Nat.mod_eq_of_lt (by omega)
  have b2 : (configured p m t).q.toNat = 4 * (m.toNat / (4 * p.toNat)) := by
    simp only [configured, BitVec.toNat_ofNat, e1]
    exact Nat.mod_eq_of_lt (by omega)
  have b3 : (configured p m t).sl.toNat = m.toNat / (4 * p.toNat) := by
    simp only [configured, BitVec.toNat_ofNat, e2]
    exact Nat.mod_eq_of_lt (by omega)
  have b4 : (configured p m t).p = p := rfl
  have b5 : (configured p m t).m = m := rfl
  have b6 : (configured p m t).t = t := rfl
  constructor
  · rw [b4]; exact hp1
  · rw [b4]; exact hp2
  · rw [b6]; exact ht
  · rw [b4, b5]; exact hm
  · rw [b1, b4, b5, roundedBlocks]
  · rw [b1, b4, roundedBlocks]
    calc 8 * p.toNat = 4 * p.toNat * 2 := by ring
      _ ≤ _ := Nat.mul_le_mul_left _ hk
  · rw [b1, b5]; exact hle
  · rw [b1]; exact hn
  · rw [b2, b1, b4, e1]
  · rw [b2]; omega
  · rw [b2]; omega
  · rw [b3, b2]; omega
  · rw [b3]; exact hk

variable {c : Cfg} {n : Nat}

theorem Cfg.Valid.columns (h : c.Valid n) : c.q.toNat = 4 * c.sl.toNat := by
  have := h.columns_mod
  have := h.segment_eq
  omega

theorem Cfg.Valid.blocks (h : c.Valid n) : c.mp.toNat = c.p.toNat * c.q.toNat := by
  have e := (roundedBlocks_div c.p.toNat c.m.toNat h.lanes_pos).1
  have e' : c.mp.toNat = roundedBlocks c.p.toNat c.m.toNat := h.blocks_eq
  rw [h.columns_eq, e', e, roundedBlocks]
  ring

/-- A place of the matrix is a block below m′ (R260). -/
theorem Cfg.Valid.matrixBlock_lt (h : c.Valid n) {l col : Nat} (hl : l < c.p.toNat) (hc : col < c.q.toNat) :
    matrixBlock c l col < c.mp.toNat := by
  rw [h.blocks, matrixBlock]
  calc l * c.q.toNat + col < l * c.q.toNat + c.q.toNat := by omega
    _ = (l + 1) * c.q.toNat := by ring
    _ ≤ _ := Nat.mul_le_mul_right _ hl

/-- Different places are different blocks (R260). -/
theorem matrixBlock_inj {l col l' col' : Nat} (hc : col < c.q.toNat) (hc' : col' < c.q.toNat)
    (e : matrixBlock c l col = matrixBlock c l' col') : l = l' ∧ col = col' := by
  simp only [matrixBlock] at e
  have hl : l = l' := by
    have h1 : (l * c.q.toNat + col) / c.q.toNat = l := by
      rw [Nat.mul_comm, Nat.mul_add_div (by omega), Nat.div_eq_of_lt hc]; rfl
    have h2 : (l' * c.q.toNat + col') / c.q.toNat = l' := by
      rw [Nat.mul_comm, Nat.mul_add_div (by omega), Nat.div_eq_of_lt hc']; rfl
    rw [← h1, e, h2]
  subst hl
  exact ⟨rfl, by omega⟩

/-- Every block below m′ is one place of the matrix (R260). -/
theorem Cfg.Valid.exists_place (h : c.Valid n) {b : Nat} (hb : b < c.mp.toNat) :
    ∃ l col, l < c.p.toNat ∧ col < c.q.toNat ∧ b = matrixBlock c l col := by
  have hq := h.columns_ge
  refine ⟨b / c.q.toNat, b % c.q.toNat, ?_, Nat.mod_lt _ (by omega), ?_⟩
  · rw [Nat.div_lt_iff_lt_mul (by omega), ← h.blocks]
    exact hb
  · rw [matrixBlock, Nat.mul_comm]
    exact (Nat.div_add_mod b c.q.toNat).symm

/-- The column of a position of slice s lies in its lane (R261). -/
theorem Cfg.Valid.column_lt (h : c.Valid n) {s i : Nat} (hs : s < 4) (hi : i < c.sl.toNat) :
    s * c.sl.toNat + i < c.q.toNat := by
  rw [h.columns]
  have : s * c.sl.toNat ≤ 3 * c.sl.toNat := Nat.mul_le_mul_right _ (by omega)
  omega

theorem prevColumn_lt {col : Nat} (hc : col < c.q.toNat) : prevColumn c col < c.q.toNat := by
  unfold prevColumn
  split <;> omega

end Sys2Proof.Machine
end

