-- ==== Sys2Proof/Laws/Memory.lean ====
section
/-! SUPPORT. What the LMEM operations do: a read after a write, the canonical form, and that a memory in canonical form is
determined by its background and its listed bytes. -/

namespace Sys2Proof.Machine

/-! Looking an address up -/

theorem lookup_append (l₁ l₂ : List Host.Cell) (a : Nat) :
    (l₁ ++ l₂).lookup a = (l₁.lookup a).or (l₂.lookup a) := by
  induction l₁ with
  | nil => simp
  | cons c l ih =>
    obtain ⟨k, v⟩ := c
    simp only [List.cons_append, List.lookup_cons]
    split <;> simp_all

theorem lookup_eq_none_of_not_mem (l : List Host.Cell) (a : Nat) (h : ∀ c ∈ l, c.1 ≠ a) : l.lookup a = none := by
  induction l with
  | nil => rfl
  | cons c l ih =>
    obtain ⟨k, v⟩ := c
    have hk : (a == k) = false := by
      have := h (k, v) (by simp)
      simpa using fun e : a = k => this e.symm
    simp [List.lookup_cons, hk, ih fun c hc => h c (by simp [hc])]

/-- Filtering by the address leaves the lookup of an address that passes the filter. -/
theorem lookup_filter_of_pos (l : List Host.Cell) (f : Nat → Bool) (a : Nat) (h : f a = true) :
    (l.filter fun c => f c.1).lookup a = l.lookup a := by
  induction l with
  | nil => rfl
  | cons c l ih =>
    obtain ⟨k, v⟩ := c
    by_cases hk : a = k
    · subst hk
      simp [h]
    · have hk' : (a == k) = false := by simpa using hk
      by_cases hf : f k = true
      · simp [hf, List.lookup_cons, hk', ih]
      · simp [hf, List.lookup_cons, hk', ih]

theorem lookup_filter_of_neg (l : List Host.Cell) (f : Nat → Bool) (a : Nat) (h : f a = false) :
    (l.filter fun c => f c.1).lookup a = none := by
  apply lookup_eq_none_of_not_mem
  intro c hc e
  have := (List.mem_filter.1 hc).2
  simp [e, h] at this

/-! The cells of a byte string -/

theorem mem_cellsAt {a : Nat} {S : Bytes} {c : Host.Cell} (h : c ∈ cellsAt a S) : a ≤ c.1 ∧ c.1 < a + S.length := by
  induction S generalizing a with
  | nil => simp [cellsAt] at h
  | cons b bs ih =>
    simp only [cellsAt, List.mem_cons] at h
    rcases h with rfl | h
    · simp
    · have := ih h
      simp only [List.length_cons]
      omega

theorem cellsAt_rising (a : Nat) (S : Bytes) : (cellsAt a S).Pairwise fun x y => x.1 < y.1 := by
  induction S generalizing a with
  | nil => simp [cellsAt]
  | cons b bs ih =>
    simp only [cellsAt, List.pairwise_cons]
    exact ⟨fun c hc => by have := mem_cellsAt hc; simp; omega, ih _⟩

/-- The lookup of byte j of a byte string, less the bytes the background already reads as. -/
theorem lookup_cellsAt (g : Background) (a : Nat) (S : Bytes) (j : Nat) (h : j < S.length) :
    (((cellsAt a S).filter fun c => !g.redundant c.2).lookup (a + j))
      = if g.redundant S[j] then none else some S[j] := by
  induction S generalizing a j with
  | nil => simp at h
  | cons b bs ih =>
    cases j with
    | zero =>
      by_cases hr : g.redundant b = true
      · simp only [cellsAt, List.filter_cons, hr]
        simp only [Bool.not_true, Bool.false_eq_true, if_false, Nat.add_zero, List.getElem_cons_zero, hr, if_true]
        apply lookup_eq_none_of_not_mem
        intro c hc e
        have := mem_cellsAt (List.mem_filter.1 hc).1
        omega
      · simp [cellsAt, hr]
    | succ j =>
      have hj : j < bs.length := by simpa using h
      have e : a + (j + 1) = a + 1 + j := by omega
      have hne : (a + 1 + j == a) = false := by simp; omega
      by_cases hr : g.redundant b = true
      · simp [cellsAt, hr, e, ih (a + 1) j hj]
      · simp [cellsAt, hr, e, List.lookup_cons, hne, ih (a + 1) j hj]

theorem Background.value_of_redundant {g : Background} {v : Byte} (h : g.redundant v = true) (a : Nat) :
    g.value a = v := by
  cases g with
  | zero => exact (beq_iff_eq.1 h).symm
  | draw n => simp [redundant] at h

/-! Reading after writing -/

@[simp] theorem Memory.writeBytes_background (m : Memory) (a : Nat) (S : Bytes) :
    (m.writeBytes a S).background = m.background := rfl

@[simp] theorem Memory.writeBlock_background (m : Memory) (b : Nat) (B : Block) :
    (m.writeBlock b B).background = m.background := rfl

/-- The entry of an address in the range of a write: the byte written, if the canonical form lists it. -/
theorem Memory.lookup_writeBytes_in (m : Memory) (a : Nat) (S : Bytes) (j : Nat) (h : j < S.length) :
    (m.writeBytes a S).cells.lookup (a + j) = if m.background.redundant S[j] then none else some S[j] := by
  have h1 : (m.cells.filter fun c => decide (c.1 < a)).lookup (a + j) = none :=
    lookup_filter_of_neg _ (fun k => decide (k < a)) _ (by simp)
  have h3 : (m.cells.filter fun c => decide (a + S.length ≤ c.1)).lookup (a + j) = none :=
    lookup_filter_of_neg _ (fun k => decide (a + S.length ≤ k)) _ (by simp; omega)
  simp only [writeBytes, lookup_append, h1, h3, lookup_cellsAt _ _ _ _ h]
  simp

/-- The entry of an address outside the range of a write stays. -/
theorem Memory.lookup_writeBytes_out (m : Memory) (a : Nat) (S : Bytes) (x : Nat) (h : x < a ∨ a + S.length ≤ x) :
    (m.writeBytes a S).cells.lookup x = m.cells.lookup x := by
  have h2 : ((cellsAt a S).filter fun c => !m.background.redundant c.2).lookup x = none := by
    apply lookup_eq_none_of_not_mem
    intro c hc e
    have := mem_cellsAt (List.mem_filter.1 hc).1
    omega
  simp only [writeBytes, lookup_append, h2]
  rcases h with h | h
  · rw [lookup_filter_of_pos _ (fun k => decide (k < a)) x (by simpa using h),
      lookup_filter_of_neg _ (fun k => decide (a + S.length ≤ k)) x (by simp; omega)]
    simp
  · rw [lookup_filter_of_neg _ (fun k => decide (k < a)) x (by simp; omega),
      lookup_filter_of_pos _ (fun k => decide (a + S.length ≤ k)) x (by simpa using h)]
    simp

/-- A byte that was written reads as written. -/
theorem Memory.readByte_writeBytes_in (m : Memory) (a : Nat) (S : Bytes) (j : Nat) (h : j < S.length) :
    (m.writeBytes a S).readByte (a + j) = S[j] := by
  rw [readByte, lookup_writeBytes_in _ _ _ _ h]
  by_cases hr : m.background.redundant S[j] = true
  · simp [hr, Background.value_of_redundant hr]
  · simp [hr]

/-- A byte outside the bytes written reads as before. -/
theorem Memory.readByte_writeBytes_out (m : Memory) (a : Nat) (S : Bytes) (x : Nat) (h : x < a ∨ a + S.length ≤ x) :
    (m.writeBytes a S).readByte x = m.readByte x := by
  rw [readByte, readByte, lookup_writeBytes_out _ _ _ _ h, writeBytes_background]

theorem Memory.readByte_window (m : Memory) (a n x : Nat) (h₁ : a ≤ x) (h₂ : x < a + n) :
    (m.window a n).readByte x = m.readByte x := by
  simp only [readByte, window]
  rw [lookup_filter_of_pos _ (fun k => decide (a ≤ k) && decide (k < a + n)) x (by simp; omega)]

/-- `MemRead(a, n)` is the bytes at a … a+n−1, each as `readByte` gives it. -/
theorem Memory.readBytes_eq (m : Memory) (a n : Nat) : m.readBytes a n = (List.range' a n).map m.readByte := by
  apply List.map_congr_left
  intro x hx
  have := List.mem_range'_1.1 hx
  exact readByte_window m a n x this.1 this.2

@[simp] theorem Memory.readBytes_length (m : Memory) (a n : Nat) : (m.readBytes a n).length = n := by
  simp [readBytes_eq]

theorem Memory.readBytes_getElem (m : Memory) (a n j : Nat) (h : j < (m.readBytes a n).length) :
    (m.readBytes a n)[j] = m.readByte (a + j) := by
  simp [readBytes_eq]

/-- Byte strings are equal when every byte of the range reads the same. -/
theorem Memory.readBytes_congr {m m' : Memory} {a n : Nat}
    (h : ∀ x, a ≤ x → x < a + n → m'.readByte x = m.readByte x) : m'.readBytes a n = m.readBytes a n := by
  rw [readBytes_eq, readBytes_eq]
  apply List.map_congr_left
  intro x hx
  have := List.mem_range'_1.1 hx
  exact h x this.1 this.2

/-- What was written is read back. -/
theorem Memory.readBytes_writeBytes (m : Memory) (a : Nat) (S : Bytes) :
    (m.writeBytes a S).readBytes a S.length = S := by
  apply List.ext_getElem
  · simp
  · intro j h₁ h₂
    rw [readBytes_getElem, readByte_writeBytes_in _ _ _ _ h₂]

theorem Memory.readBytes_writeBytes_out (m : Memory) (a : Nat) (S : Bytes) (b n : Nat)
    (h : b + n ≤ a ∨ a + S.length ≤ b) : (m.writeBytes a S).readBytes b n = m.readBytes b n :=
  readBytes_congr fun x h₁ h₂ => readByte_writeBytes_out m a S x (by omega)

/-- The block written is the block read. -/
theorem Memory.readBlock_writeBlock (m : Memory) (b : Nat) (B : Block) : (m.writeBlock b B).readBlock b = B := by
  have h := readBytes_writeBytes m (1024 * b) (bytesOf B)
  rw [bytesOf_length] at h
  rw [readBlock, writeBlock, h, blockOf_bytesOf]

/-- Another block reads as before. -/
theorem Memory.readBlock_writeBlock_ne (m : Memory) (b d : Nat) (B : Block) (h : d ≠ b) :
    (m.writeBlock b B).readBlock d = m.readBlock d := by
  rw [readBlock, writeBlock, readBytes_writeBytes_out, readBlock]
  rw [bytesOf_length]
  omega

/-- A byte outside the block written reads as before. -/
theorem Memory.readByte_writeBlock_out (m : Memory) (b : Nat) (B : Block) (x : Nat)
    (h : x < 1024 * b ∨ 1024 * b + 1024 ≤ x) : (m.writeBlock b B).readByte x = m.readByte x :=
  readByte_writeBytes_out m _ _ x (by simpa using h)

theorem Memory.readBlock_congr {m m' : Memory} {b : Nat}
    (h : ∀ x, 1024 * b ≤ x → x < 1024 * b + 1024 → m'.readByte x = m.readByte x) : m'.readBlock b = m.readBlock b := by
  rw [readBlock, readBlock, readBytes_congr h]

/-! The canonical form -/

theorem Memory.wf_iff (m : Memory) :
    m.wf = true ↔ (m.cells.Pairwise fun x y => x.1 < y.1) ∧ ∀ c ∈ m.cells, m.background.redundant c.2 = false := by
  simp [wf]

theorem Memory.inside_iff (m : Memory) (n : Nat) : m.inside n = true ↔ ∀ c ∈ m.cells, c.1 < n := by
  simp [inside]

/-- A write keeps the canonical form. -/
theorem Memory.writeBytes_wf (m : Memory) (a : Nat) (S : Bytes) (h : m.wf = true) : (m.writeBytes a S).wf = true := by
  rw [wf_iff] at h ⊢
  obtain ⟨hp, hr⟩ := h
  refine ⟨?_, ?_⟩
  · simp only [writeBytes, List.pairwise_append, List.mem_append, List.mem_filter, decide_eq_true_eq]
    refine ⟨⟨hp.filter _, (cellsAt_rising a S).filter _, ?_⟩, hp.filter _, ?_⟩
    · rintro x ⟨-, hx⟩ y ⟨hy, -⟩
      have := mem_cellsAt hy
      omega
    · rintro x (⟨-, hx⟩ | ⟨hx, -⟩) y ⟨-, hy⟩
      · omega
      · have := mem_cellsAt hx
        omega
  · simp only [writeBytes, List.mem_append, List.mem_filter]
    rintro c ((⟨hc, -⟩ | ⟨-, hc⟩) | ⟨hc, -⟩)
    · exact hr c hc
    · simpa using hc
    · exact hr c hc

/-- A write inside LMEM lists only bytes of LMEM. -/
theorem Memory.writeBytes_inside (m : Memory) (a : Nat) (S : Bytes) (n : Nat) (h : m.inside n = true)
    (ha : S = [] ∨ a + S.length ≤ n) : (m.writeBytes a S).inside n = true := by
  rw [inside_iff] at h ⊢
  simp only [writeBytes, List.mem_append, List.mem_filter]
  rintro c ((⟨hc, -⟩ | ⟨hc, -⟩) | ⟨hc, -⟩)
  · exact h c hc
  · have := mem_cellsAt hc
    rcases ha with rfl | ha
    · simp at this; omega
    · omega
  · exact h c hc

theorem Memory.writeBlock_wf (m : Memory) (b : Nat) (B : Block) (h : m.wf = true) : (m.writeBlock b B).wf = true :=
  writeBytes_wf m _ _ h

theorem Memory.writeBlock_inside (m : Memory) (b : Nat) (B : Block) (n : Nat) (h : m.inside (1024 * n) = true)
    (hb : b < n) : (m.writeBlock b B).inside (1024 * n) = true :=
  writeBytes_inside m _ _ _ h (.inr (by rw [bytesOf_length]; omega))

theorem Memory.allZero_wf : Memory.allZero.wf = true := by decide

theorem Memory.allDraw_wf (n : Nat) : (Memory.allDraw n).wf = true := by simp [wf_iff, allDraw]

theorem Memory.allZero_inside (n : Nat) : Memory.allZero.inside n = true := by simp [inside_iff, allZero]

theorem Memory.allDraw_inside (d n : Nat) : (Memory.allDraw d).inside n = true := by simp [inside_iff, allDraw]

@[simp] theorem Memory.allZero_readByte (a : Nat) : Memory.allZero.readByte a = 0 := rfl

@[simp] theorem Memory.allDraw_readByte (d a : Nat) : (Memory.allDraw d).readByte a = Config.lmemDraw d a := rfl

theorem lookup_eq_some_iff_of_rising {l : List Host.Cell} (h : l.Pairwise fun x y => x.1 < y.1) (a : Nat) (v : Byte) :
    l.lookup a = some v ↔ (a, v) ∈ l := by
  induction l with
  | nil => simp
  | cons c l ih =>
    obtain ⟨k, w⟩ := c
    rw [List.pairwise_cons] at h
    rw [List.lookup_cons]
    by_cases hk : a = k
    · subst hk
      simp only [beq_self_eq_true, Option.some.injEq, List.mem_cons, Prod.mk.injEq, true_and]
      constructor
      · exact fun e => .inl e.symm
      · rintro (e | e)
        · exact e.symm
        · exact absurd (h.1 _ e) (lt_irrefl _)
    · have hk' : (a == k) = false := by simpa using hk
      simp [hk', hk, ih h.2]

/-- Two memories in canonical form over the same background that look every address up alike are equal. -/
theorem Memory.ext_of_wf {m m' : Memory} (h : m.wf = true) (h' : m'.wf = true)
    (hb : m.background = m'.background) (hl : ∀ a, m.cells.lookup a = m'.cells.lookup a) : m = m' := by
  obtain ⟨g, l⟩ := m
  obtain ⟨g', l'⟩ := m'
  simp only at hb hl
  subst hb
  have hp := ((wf_iff _).1 h).1
  have hp' := ((wf_iff _).1 h').1
  simp only at hp hp'
  have hmem : ∀ c, c ∈ l ↔ c ∈ l' := by
    rintro ⟨a, v⟩
    rw [← lookup_eq_some_iff_of_rising hp, ← lookup_eq_some_iff_of_rising hp', hl]
  have hn : ∀ {k : List Host.Cell}, (k.Pairwise fun x y => x.1 < y.1) → k.Nodup := fun hk =>
    hk.imp fun hxy e => by rw [e] at hxy; exact lt_irrefl _ hxy
  have hperm : l.Perm l' := (List.perm_ext_iff_of_nodup (hn hp) (hn hp')).2 hmem
  have : l = l' := hperm.eq_of_pairwise (fun a b _ _ h₁ h₂ => absurd (lt_trans h₁ h₂) (lt_irrefl _)) hp hp'
  rw [this]

/-- Writes to disjoint ranges commute. -/
theorem Memory.writeBytes_comm (m : Memory) (a b : Nat) (S T : Bytes) (h : m.wf = true)
    (hd : a + S.length ≤ b ∨ b + T.length ≤ a) :
    (m.writeBytes a S).writeBytes b T = (m.writeBytes b T).writeBytes a S := by
  refine ext_of_wf (m := (m.writeBytes a S).writeBytes b T) (m' := (m.writeBytes b T).writeBytes a S)
    (writeBytes_wf _ _ _ (writeBytes_wf _ _ _ h)) (writeBytes_wf _ _ _ (writeBytes_wf _ _ _ h)) rfl fun x => ?_
  by_cases hb : b ≤ x ∧ x < b + T.length
  · obtain ⟨j, rfl⟩ := Nat.exists_eq_add_of_le hb.1
    rw [lookup_writeBytes_in _ _ _ _ (by omega), lookup_writeBytes_out _ _ _ _ (by omega),
      lookup_writeBytes_in _ _ _ _ (by omega), writeBytes_background]
  · rw [lookup_writeBytes_out _ _ _ _ (by omega)]
    by_cases ha : a ≤ x ∧ x < a + S.length
    · obtain ⟨j, rfl⟩ := Nat.exists_eq_add_of_le ha.1
      rw [lookup_writeBytes_in _ _ _ _ (by omega), lookup_writeBytes_in _ _ _ _ (by omega), writeBytes_background]
    · rw [lookup_writeBytes_out _ _ _ _ (by omega), lookup_writeBytes_out _ _ _ _ (by omega),
        lookup_writeBytes_out _ _ _ _ (by omega)]

/-- Writes to different blocks commute. -/
theorem Memory.writeBlock_comm (m : Memory) (a b : Nat) (A B : Block) (h : m.wf = true) (hd : a ≠ b) :
    (m.writeBlock a A).writeBlock b B = (m.writeBlock b B).writeBlock a A :=
  writeBytes_comm m _ _ _ _ h (by rw [bytesOf_length, bytesOf_length]; omega)

end Sys2Proof.Machine
end

