-- ==== Sys2Proof/Laws/Fill.lean ====
section
/-! SUPPORT. What the fills of R270–R275 do to LMEM: every one is a sequence of block writes inside the matrix, so it keeps
the canonical form, the bounds of LMEM, and every byte outside the matrix. -/

namespace Sys2Proof.Machine

/-- A fold of steps that each keep a property keeps it. -/
theorem foldl_keeps {α β : Type} (Q : β → Prop) (f : β → α → β) (l : List α) (b : β) (hb : Q b)
    (hf : ∀ x ∈ l, ∀ m, Q m → Q (f m x)) : Q (l.foldl f b) := by
  induction l generalizing b with
  | nil => exact hb
  | cons x l ih => exact ih (f b x) (hf x (by simp) b hb) fun y hy => hf y (by simp [hy])

/-- A property of memories that every write of a block below `k` keeps. -/
def KeptByWrites (Q : Memory → Prop) (k : Nat) : Prop := ∀ m b B, Q m → b < k → Q (m.writeBlock b B)

theorem keptByWrites_wf (k : Nat) : KeptByWrites (fun m => m.wf = true) k := fun m b B h _ => Memory.writeBlock_wf m b B h

theorem keptByWrites_inside (k n : Nat) (h : k ≤ n) : KeptByWrites (fun m => m.inside (1024 * n) = true) k :=
  fun m b B hm hb => Memory.writeBlock_inside m b B n hm (by omega)

theorem keptByWrites_background (k : Nat) (g : Background) : KeptByWrites (fun m => m.background = g) k :=
  fun _ _ _ h _ => h

/-- A byte above block `k` reads as it did. -/
theorem keptByWrites_above (k x : Nat) (v : Byte) (hx : 1024 * k ≤ x) : KeptByWrites (fun m => m.readByte x = v) k :=
  fun m b B h hb => (Memory.readByte_writeBlock_out m b B x (.inr (by omega))).trans h

variable {c : Cfg} {n : Nat} {Q : Memory → Prop}

theorem fillPosition_keeps (hv : c.Valid n) (hQ : KeptByWrites Q c.mp.toNat) {r s l i : Nat} {m : Memory} (hs : s < 4)
    (hl : l < c.p.toNat) (hi : i < c.sl.toNat) (h : Q m) : Q (fillPosition c r s l i m) :=
  hQ _ _ _ h (hv.matrixBlock_lt hl (hv.column_lt hs hi))

theorem fillSegment_keeps (hv : c.Valid n) (hQ : KeptByWrites Q c.mp.toNat) {r s l : Nat} {m : Memory} (hs : s < 4)
    (hl : l < c.p.toNat) (h : Q m) : Q (fillSegment c r s l m) :=
  foldl_keeps Q _ _ _ h fun i hi _ hm =>
    fillPosition_keeps hv hQ hs hl (by have := List.mem_range'_1.1 hi; omega) hm

theorem fillSlice_keeps (hv : c.Valid n) (hQ : KeptByWrites Q c.mp.toNat) {r s : Nat} {order : List Nat} {m : Memory}
    (hs : s < 4) (ho : ∀ l ∈ order, l < c.p.toNat) (h : Q m) : Q (fillSlice c r s order m) :=
  foldl_keeps Q _ _ _ h fun l hl _ hm => fillSegment_keeps hv hQ hs (ho l hl) hm

theorem fillPass_keeps (hv : c.Valid n) (hQ : KeptByWrites Q c.mp.toNat) {r : Nat} {m : Memory} (h : Q m) :
    Q (fillPass c r m) :=
  foldl_keeps Q _ _ _ h fun _ hs _ hm =>
    fillSlice_keeps hv hQ (List.mem_range.1 hs) (fun _ hl => List.mem_range.1 hl) hm

theorem fillAll_keeps (hv : c.Valid n) (hQ : KeptByWrites Q c.mp.toNat) {m : Memory} (h : Q m) : Q (fillAll c m) :=
  foldl_keeps Q _ _ _ h fun _ _ _ hm => fillPass_keeps hv hQ hm

theorem seedAll_keeps (hv : c.Valid n) (hQ : KeptByWrites Q c.mp.toNat) {H0 : Bytes} {m : Memory} (h : Q m) :
    Q (seedAll c H0 m) :=
  foldl_keeps Q _ _ _ h fun l hl _ hm => foldl_keeps Q _ _ _ hm fun col hc _ hm' =>
    hQ _ _ _ hm' (hv.matrixBlock_lt (List.mem_range.1 hl) (by
      have := List.mem_range.1 hc
      have := hv.columns_ge
      omega))

end Sys2Proof.Machine
end

