-- ==== Sys2Proof/Laws/HostPort.lean ====
section
/-! SUPPORT. What the host port does at each kind of address, and everything a step can do, said once. -/

namespace Sys2Proof.Machine

/-! The address map -/

theorem csrAt_offset (c : Csr) : csrAt c.offset = some c := by
  cases c with
  | arg k => revert k; decide
  | res k => revert k; decide
  | _ => decide

theorem offset_of_csrAt {o : Nat} {c : Csr} (h : csrAt o = some c) : o = c.offset := by
  have := List.find?_some h
  simpa using (beq_iff_eq.1 this).symm

theorem Csr.offset_lt (c : Csr) : c.offset < 0x100 ∧ c.offset % 4 = 0 := by
  cases c with
  | arg k => simp only [offset]; omega
  | res k => simp only [offset]; omega
  | _ => exact ⟨by decide, by decide⟩

theorem hostTarget_csr (n o : Nat) (h : o < 0x100) (ha : o % 4 = 0) : hostTarget n (BitVec.ofNat 32 o) = .csr o := by
  have e : (BitVec.ofNat 32 o).toNat = o := by rw [BitVec.toNat_ofNat]; omega
  rw [hostTarget, e, if_neg (by omega), if_pos (by simp only [Config.csrBase, Config.csrBytes]; omega)]
  rfl

theorem hostTarget_csrAddress (n : Nat) (c : Csr) : hostTarget n (csrAddress c) = .csr c.offset := by
  rw [csrAddress, Config.csrBase, Nat.zero_add]
  exact hostTarget_csr n _ c.offset_lt.1 c.offset_lt.2

theorem hostTarget_lmem (n o : Nat) (h : o < n) (hn : n ≤ 2 ^ 31) (ha : o % 4 = 0) :
    hostTarget n (BitVec.ofNat 32 (0x80000000 + o)) = .lmem o := by
  have e : (BitVec.ofNat 32 (0x80000000 + o)).toNat = 0x80000000 + o := by rw [BitVec.toNat_ofNat]; omega
  rw [hostTarget, e, if_neg (by omega), if_neg (by simp only [Config.csrBase, Config.csrBytes]; omega),
    if_pos (by simp only [Config.lmemBase]; omega)]
  simp [Config.lmemBase]

/-- What each answer of the address map says of the address. -/
theorem hostTarget_cases (n : Nat) (a : Word) :
    (∃ o, hostTarget n a = .csr o ∧ a.toNat = o ∧ o < 0x100 ∧ o % 4 = 0) ∨
    (∃ o, hostTarget n a = .lmem o ∧ a.toNat = 0x80000000 + o ∧ o < n ∧ o % 4 = 0) ∨
    (hostTarget n a = .misaligned ∧ a.toNat % 4 ≠ 0) ∨
    (hostTarget n a = .unmapped ∧ a.toNat % 4 = 0 ∧ 0x100 ≤ a.toNat ∧
      (a.toNat < 0x80000000 ∨ 0x80000000 + n ≤ a.toNat)) := by
  have b1 : Config.csrBase = 0 := rfl
  have b2 : Config.csrBytes = 0x100 := rfl
  have b3 : Config.lmemBase = 0x80000000 := rfl
  by_cases h1 : a.toNat % 4 ≠ 0
  · exact .inr (.inr (.inl ⟨if_pos h1, h1⟩))
  · by_cases h2 : Config.csrBase ≤ a.toNat ∧ a.toNat < Config.csrBase + Config.csrBytes
    · exact .inl ⟨_, by rw [hostTarget, if_neg h1, if_pos h2], by omega, by omega, by omega⟩
    · by_cases h3 : Config.lmemBase ≤ a.toNat ∧ a.toNat < Config.lmemBase + n
      · exact .inr (.inl ⟨_, by rw [hostTarget, if_neg h1, if_neg h2, if_pos h3], by omega, by omega, by omega⟩)
      · exact .inr (.inr (.inr ⟨by rw [hostTarget, if_neg h1, if_neg h2, if_neg h3], by omega, by omega, by omega⟩))

/-- An access that is misaligned, or outside both windows, has no target (R63). -/
theorem hostTarget_bad {n : Nat} {a : Word}
    (h : a.toNat % 4 ≠ 0 ∨ (0x100 ≤ a.toNat ∧ a.toNat < 0x80000000) ∨ 0x80000000 + n ≤ a.toNat) :
    hostTarget n a = .misaligned ∨ hostTarget n a = .unmapped := by
  rcases hostTarget_cases n a with ⟨o, -, e, h1, h2⟩ | ⟨o, -, e, h1, h2⟩ | ⟨e, -⟩ | ⟨e, -⟩
  · omega
  · omega
  · exact .inl e
  · exact .inr e

/-! Host accesses -/

theorem hostAccess_read_csr (s : State) (c : Csr) :
    hostAccess s (.read (csrAddress c)) = .next (s.returned (readCsr s c)) := by
  simp only [hostAccess, hostTarget_csrAddress, readSlot, csrAt_offset]

theorem hostAccess_write_csr (s : State) (c : Csr) (v : Word) :
    hostAccess s (.write (csrAddress c) v) = .next (writeCsr s v c) := by
  simp only [hostAccess, hostTarget_csrAddress, writeSlot, csrAt_offset]

theorem hostAccess_read_slot (s : State) (o : Nat) (h : o < 0x100) (ha : o % 4 = 0) :
    hostAccess s (.read (BitVec.ofNat 32 o)) = .next (s.returned (readSlot s o)) := by
  simp only [hostAccess, hostTarget_csr _ o h ha]

theorem hostAccess_write_slot (s : State) (o : Nat) (v : Word) (h : o < 0x100) (ha : o % 4 = 0) :
    hostAccess s (.write (BitVec.ofNat 32 o) v) = .next (writeSlot s o v) := by
  simp only [hostAccess, hostTarget_csr _ o h ha]

theorem hostAccess_bad (s : State) (a v : Word)
    (h : hostTarget s.lmemBytes a = .misaligned ∨ hostTarget s.lmemBytes a = .unmapped) :
    hostAccess s (.read a) = .next (s.hostBusError.returned 0) ∧ hostAccess s (.write a v) = .next s.hostBusError := by
  rcases h with h | h <;> simp only [hostAccess, h, and_self]

theorem hostAccess_lmem (s : State) (a v : Word) (o : Nat) (h : hostTarget s.lmemBytes a = .lmem o)
    (hb : s.busy = false) :
    hostAccess s (.read a) = .next (s.returned (readWindow s o)) ∧
      hostAccess s (.write a v) = .next (writeWindow s o v) := by
  simp only [hostAccess, h, hb, Bool.false_eq_true, if_false, and_self]

/-- Everything a host access can do, when it is not refused: a read only returns a word; a write reaches a register, a
reserved slot, or LMEM while no command runs; a bad access sets HBE. -/
theorem hostAccess_cases {s t : State} {x : Access} (h : hostAccess s x = .next t) :
    (∃ v, t = s.returned v) ∨ t = s.hostBusError.returned 0 ∨ t = s.hostBusError ∨ t = s ∨
    (∃ c v, x = .write (csrAddress c) v ∧ t = writeCsr s v c) ∨
    (∃ o v, s.busy = false ∧ o < s.lmemBytes ∧ o % 4 = 0 ∧ t = writeWindow s o v) := by
  cases x with
  | read a =>
    rcases hostTarget_cases s.lmemBytes a with ⟨o, e, -⟩ | ⟨o, e, -⟩ | ⟨e, -⟩ | ⟨e, -⟩ <;>
      simp only [hostAccess, e] at h
    · cases h; exact .inl ⟨_, rfl⟩
    · split at h <;> cases h; exact .inl ⟨_, rfl⟩
    · cases h; exact .inr (.inl rfl)
    · cases h; exact .inr (.inl rfl)
  | write a v =>
    rcases hostTarget_cases s.lmemBytes a with ⟨o, e, ea, -⟩ | ⟨o, e, -, h1, h2⟩ | ⟨e, -⟩ | ⟨e, -⟩ <;>
      simp only [hostAccess, e] at h
    · cases h
      cases hc : csrAt o with
      | none => simp only [writeSlot, hc]; exact .inr (.inr (.inr (.inl trivial)))
      | some c =>
        have ho := offset_of_csrAt hc
        refine .inr (.inr (.inr (.inr (.inl ⟨c, v, ?_, ?_⟩))))
        · rw [csrAddress, Config.csrBase, Nat.zero_add, ← ho, ← ea, BitVec.ofNat_toNat, BitVec.setWidth_eq]
        · simp only [writeSlot, hc]
    · split at h
      · cases h
      · rename_i hb
        cases h
        exact .inr (.inr (.inr (.inr (.inr ⟨o, v, by simpa using hb, h1, h2, rfl⟩))))
    · cases h; exact .inr (.inr (.inl rfl))
    · cases h; exact .inr (.inr (.inl rfl))

/-- A host access is refused only in the LMEM window while BUSY = 1 (R69). -/
theorem hostAccess_next (s : State) (x : Access)
    (h : ∀ o, (hostTarget s.lmemBytes (match x with | .read a => a | .write a _ => a)) = .lmem o → s.busy = false) :
    ∃ t, hostAccess s x = .next t := by
  cases x with
  | read a =>
    rcases hostTarget_cases s.lmemBytes a with ⟨o, e, -⟩ | ⟨o, e, -⟩ | ⟨e, -⟩ | ⟨e, -⟩ <;> simp only [hostAccess, e]
    · exact ⟨_, rfl⟩
    · simp only [h o e]; exact ⟨_, rfl⟩
    · exact ⟨_, rfl⟩
    · exact ⟨_, rfl⟩
  | write a v =>
    rcases hostTarget_cases s.lmemBytes a with ⟨o, e, -⟩ | ⟨o, e, -⟩ | ⟨e, -⟩ | ⟨e, -⟩ <;> simp only [hostAccess, e]
    · exact ⟨_, rfl⟩
    · simp only [h o e]; exact ⟨_, rfl⟩
    · exact ⟨_, rfl⟩
    · exact ⟨_, rfl⟩

/-! Steps -/

theorem step_host {s : State} {x : Access} {rest : List Input} (h : s.inputs = .host x :: rest) :
    step s = hostAccess { s with inputs := rest } x := by simp only [step, h, takeInput]

theorem step_seq {s : State} {rest : List Input} (h : s.inputs = .seq :: rest) :
    step s = seqStep { s with inputs := rest } := by simp only [step, h, takeInput]

theorem step_rst {s : State} {rest : List Input} (h : s.inputs = .rst :: rest) :
    step s = .next (rst { s with inputs := rest }) := by simp only [step, h, takeInput]

theorem step_idle {s : State} (h : s.inputs = []) : step s = seqStep s := by simp only [step, h]

theorem run_succ_of_core (M : Host.Core) {s t : M.State} (k : Nat) (h : M.step s = .next t) :
    M.run (k + 1) s = M.run k t := by
  rw [Host.Core.run, h]

/-- A run of one more step goes on from the next state. -/
theorem run_succ {s t : State} (k : Nat) (h : step s = .next t) :
    Sys2Proof.core.run (k + 1) s = Sys2Proof.core.run k t :=
  run_succ_of_core Sys2Proof.core k h

/-- Everything a SEQ step can do. -/
theorem seqStep_cases {s t : State} (h : seqStep s = .next t) :
    (s.latch = none ∧ t = s) ∨
    (∃ r i, s.latch = some r ∧ decode r.word = some i ∧ exec i s = .next t) ∨
    (∃ r, s.latch = some r ∧ decode r.word = none ∧ t = s.raiseError .illegalCmd) := by
  unfold seqStep at h
  split at h
  · cases h; exact .inl ⟨‹_›, rfl⟩
  · split at h
    · exact .inr (.inl ⟨_, _, ‹_›, ‹_›, h⟩)
    · cases h; exact .inr (.inr ⟨_, ‹_›, ‹_›, rfl⟩)

/-- Everything a step can do: SEQ moves, RST, or a host access. -/
theorem step_cases {s t : State} (h : step s = .next t) :
    (∃ rest, (s.inputs = .seq :: rest ∨ s.inputs = [] ∧ rest = []) ∧ seqStep { s with inputs := rest } = .next t) ∨
    (∃ rest, s.inputs = .rst :: rest ∧ t = rst { s with inputs := rest }) ∨
    (∃ rest x, s.inputs = .host x :: rest ∧ hostAccess { s with inputs := rest } x = .next t) := by
  rcases e : s.inputs with _ | ⟨x, rest⟩
  · rw [step_idle e] at h
    refine .inl ⟨[], .inr ⟨rfl, rfl⟩, ?_⟩
    rw [← h, ← e]
  · cases x with
    | seq => rw [step_seq e] at h; exact .inl ⟨rest, .inl rfl, h⟩
    | rst => rw [step_rst e] at h; cases h; exact .inr (.inl ⟨rest, rfl, rfl⟩)
    | host x => rw [step_host e] at h; exact .inr (.inr ⟨rest, x, rfl, h⟩)

end Sys2Proof.Machine
end

