-- ==== Sys2Proof/Laws/KeyExpander.lean ====
section
/-! SUPPORT. The equations of the H′ chain (R166), so that no proof unfolds it, and the length of its output. -/

namespace Sys2Proof.Machine

theorem hprimeChain_zero (last : Nat) (V : Bytes) : hprimeChain last 0 V = V.take 32 ++ blake2b last V := by
  rw [hprimeChain]

theorem hprimeChain_succ (last k : Nat) (V : Bytes) :
    hprimeChain last (k + 1) V = V.take 32 ++ hprimeChain last k (blake2b 64 V) := by
  rw [hprimeChain]

theorem hprimeChain_length (last k : Nat) (V : Bytes) (h : last ≤ 64) (hV : V.length = 64) :
    (hprimeChain last k V).length = 32 * (k + 1) + last := by
  induction k generalizing V with
  | zero => simp [hprimeChain_zero, blake2b_length _ _ h, hV]
  | succ k ih =>
    simp only [hprimeChain_succ, List.length_append, List.length_take, hV, ih _ (blake2b_length 64 V (by omega))]
    omega

end Sys2Proof.Machine
end

