-- ==== Sys2Proof/Laws/PerInstr.lean ====
section
/-! SUPPORT. The statement made of every command as syntax: its encoding is a legal command word (R91, R94), one lemma for
each constructor. -/

namespace Sys2Proof.Laws.LegalWord

/-- The command word of `i` has RSV = 0 and no reserved opcode, by the ranges R94 lists. -/
def Statement (i : Instr) : Prop := commandWordWf (encode i) = true

theorem nop : Statement .nop := by unfold Statement; decide
theorem config : Statement .config := by unfold Statement; decide
theorem zeroize : Statement .zeroize := by unfold Statement; decide
theorem hash : Statement .hash := by unfold Statement; decide
theorem hprime : Statement .hprime := by unfold Statement; decide
theorem g : Statement .g := by unfold Statement; decide
theorem gx : Statement .gx := by unfold Statement; decide
theorem perm : Statement .perm := by unfold Statement; decide
theorem refidx : Statement .refidx := by unfold Statement; decide
theorem addrgen : Statement .addrgen := by unfold Statement; decide
theorem seed : Statement .seed := by unfold Statement; decide
theorem fillseg : Statement .fillseg := by unfold Statement; decide
theorem fill : Statement .fill := by unfold Statement; decide
theorem final : Statement .final := by unfold Statement; decide

end Sys2Proof.Laws.LegalWord
end

