-- ==== Sys2Proof/Laws/Script.lean ====
section
/-! SUPPORT. What a host at work does to the machine: one lemma for each bus operation, over a machine that is idle, and that
every operation is a run of the machine. -/

namespace Sys2Proof.Machine

@[simp] theorem andThen_next {α β : Type} (a : α) (f : α → HostResult β) : andThen (.next a) f = f a := rfl

theorem andThen_eq_next {α β : Type} {x : HostResult α} {f : α → HostResult β} {c : β} (h : andThen x f = .next c) :
    ∃ a, x = .next a ∧ f a = .next c := by
  cases x with
  | next a => exact ⟨a, rfl, h⟩
  | fault r => cases h
  | refused r => cases h

/-! No step of the machine depends on the inputs to come, and no command on the words returned -/

theorem exec_inputs_reads (i : Instr) {s t : State} (l : List Input) (ws : List Word) (h : exec i s = .next t) :
    exec i { s with inputs := l, reads := ws } = .next { t with inputs := l, reads := ws } := by
  have e1 : ∀ k, State.operand { s with inputs := l, reads := ws } k = s.operand k := fun _ => rfl
  have e2 : State.lmemBlocks { s with inputs := l, reads := ws } = s.lmemBlocks := rfl
  have e3 : ∀ a n, State.rangeOk { s with inputs := l, reads := ws } a n = s.rangeOk a n := fun _ _ => rfl
  have e4 : ∀ a, State.blockOk { s with inputs := l, reads := ws } a = s.blockOk a := fun _ => rfl
  cases i <;>
    simp only [exec, execNop, execConfig, execZeroize, execHash, execHprime, execG, execGx, execPerm, execRefidx,
      execAddrgen, execSeed, execFillseg, execFill, execFinal, e1, e2, e3, e4] at h ⊢
  all_goals
    repeat' split at h
    all_goals
      cases h
      first
        | rfl
        | simp only [*, if_true, if_false, Bool.false_eq_true]; rfl

theorem exec_inputs {i : Instr} {s t : State} (l : List Input) (h : exec i s = .next t) :
    exec i { s with inputs := l } = .next { t with inputs := l } := by
  have hk := exec_inputs_reads i l s.reads h
  obtain ⟨e, b, rfl, -⟩ | ⟨m, x, c, b, rfl, -⟩ := ends_of_exec h <;> exact hk

theorem seqStep_inputs {s t : State} (l : List Input) (h : seqStep s = .next t) :
    seqStep { s with inputs := l } = .next { t with inputs := l } := by
  obtain ⟨hl, rfl⟩ | ⟨r, i, hl, hd, h⟩ | ⟨r, hl, hd, rfl⟩ := seqStep_cases h
  · simp only [seqStep, hl]
  · have hk := exec_inputs l h
    simp only [seqStep, hl, hd] at hk ⊢
    exact hk
  · simp only [seqStep, hl, hd]; rfl

theorem hostAccess_inputs {s t : State} {x : Access} (l : List Input) (h : hostAccess s x = .next t) :
    hostAccess { s with inputs := l } x = .next { t with inputs := l } := by
  have eb : State.lmemBytes { s with inputs := l } = s.lmemBytes := rfl
  have ey : State.busy { s with inputs := l } = s.busy := rfl
  have er : ∀ o, readSlot { s with inputs := l } o = readSlot s o := fun o => by
    simp only [readSlot]
    split
    · rename_i c _; cases c <;> rfl
    · rfl
  have ew : ∀ o v, writeSlot { s with inputs := l } o v = { writeSlot s o v with inputs := l } := fun o v => by
    simp only [writeSlot]
    split
    · rename_i c _
      cases c <;> first | rfl | (simp only [writeCsr, ey]; split <;> rfl)
    · rfl
  cases x <;> simp only [hostAccess, eb, ey, er, ew] at h ⊢ <;> split at h <;> (try split at h) <;> cases h <;>
    simp_all only [Bool.false_eq_true, if_false] <;> rfl

/-! Every bus operation is a run of the machine -/

/-- `b'` is reached from `b` by inputs of the machine, added to the trace; no one of them is RST. -/
def Bus.Reaches (b b' : Bus) : Prop :=
  ∃ l : List Input, b'.trace = b.trace ++ l ∧ .rst ∉ l ∧
    ∀ rest, Sys2Proof.core.run l.length { b.machine with inputs := l ++ rest } = .next { b'.machine with inputs := rest }

theorem Bus.Reaches.refl (b : Bus) : b.Reaches b := ⟨[], by simp, by simp, fun _ => rfl⟩

theorem run_add (M : Host.Core) (k n : Nat) {s t : M.State} (h : M.run k s = .next t) : M.run (k + n) s = M.run n t := by
  induction k generalizing s with
  | zero => cases h; rw [Nat.zero_add]
  | succ k ih =>
    rw [Nat.succ_add, Host.Core.run]
    rw [Host.Core.run] at h
    split at h
    · exact ih h
    · cases h
    · cases h

theorem Bus.Reaches.trans {a b c : Bus} (h : a.Reaches b) (h' : b.Reaches c) : a.Reaches c := by
  obtain ⟨l, e, n, r⟩ := h
  obtain ⟨l', e', n', r'⟩ := h'
  refine ⟨l ++ l', by rw [e', e, List.append_assoc], by simp [n, n'], fun rest => ?_⟩
  rw [List.append_assoc, List.length_append, run_add Sys2Proof.core _ _ (r _), r']

theorem Bus.take_reaches {b b' : Bus} {x : Input} (hx : x ≠ .rst) (h : b.take x = .next b') : b.Reaches b' := by
  obtain ⟨t, ht, h⟩ := andThen_eq_next h
  cases h
  refine ⟨[x], rfl, by simpa using hx.symm, fun rest => ?_⟩
  have hs : step { b.machine with inputs := x :: rest } = .next { t with inputs := rest } := by
    cases x with
    | host x => exact hostAccess_inputs (s := b.machine) rest ht
    | seq => exact seqStep_inputs (s := b.machine) rest ht
    | rst => exact absurd rfl hx
  exact run_succ 0 hs

theorem Bus.schedule_reaches {b b' : Bus} (l : List Bool) (h : Bus.Reaches { b with schedule := l } b') : b.Reaches b' := h

theorem Bus.access_reaches {b b' : Bus} {x : Access} (h : b.access x = .next b') : b.Reaches b' := by
  obtain ⟨c, hc, h⟩ := andThen_eq_next h
  refine Bus.Reaches.trans ?_ (Bus.take_reaches (by simp) h)
  simp only [Bus.seqTurn] at hc
  split at hc
  · exact Bus.schedule_reaches _ (Bus.take_reaches (by simp) hc)
  · cases hc; exact Bus.schedule_reaches _ (Bus.Reaches.refl _)
  · split at hc
    · exact Bus.take_reaches (by simp) hc
    · cases hc; exact Bus.Reaches.refl _

theorem Bus.read_reaches {b : Bus} {a : Word} {y : Bus × Word} (h : b.read a = .next y) : b.Reaches y.1 := by
  obtain ⟨c, hc, h⟩ := andThen_eq_next h
  cases h
  exact Bus.access_reaches hc

theorem Bus.writes_reaches {xs : List (Word × Word)} {b b' : Bus} (h : Bus.writes xs b = .next b') : b.Reaches b' := by
  induction xs generalizing b with
  | nil => cases h; exact .refl _
  | cons x xs ih =>
    obtain ⟨c, hc, h⟩ := andThen_eq_next h
    exact (Bus.access_reaches hc).trans (ih h)

theorem Bus.reads_reaches {as : List Word} {b : Bus} {y : Bus × List Word} (h : Bus.reads as b = .next y) :
    b.Reaches y.1 := by
  induction as generalizing b y with
  | nil => cases h; exact .refl _
  | cons a as ih =>
    obtain ⟨c, hc, h⟩ := andThen_eq_next h
    obtain ⟨d, hd, h⟩ := andThen_eq_next h
    cases h
    exact (Bus.read_reaches hc).trans (ih (y := d) hd)

theorem Bus.poll_reaches {n : Nat} {b b' : Bus} (h : Bus.poll n b = .next b') : b.Reaches b' := by
  induction n generalizing b with
  | zero =>
    obtain ⟨c, hc, h⟩ := andThen_eq_next h
    cases h
    exact Bus.read_reaches hc
  | succ n ih =>
    obtain ⟨c, hc, h⟩ := andThen_eq_next h
    split at h
    · exact (Bus.read_reaches hc).trans (ih h)
    · cases h; exact Bus.read_reaches hc

/-- Every statement is a run of the machine. -/
theorem Stmt.run_reaches {st : Stmt} {b : Bus} {y : Bus × StmtResult} (h : st.run b = .next y) : b.Reaches y.1 := by
  cases st <;>
    simp only [Stmt.run, Bus.writeStmt, Bus.readStmt, Bus.check, Bus.wait] at h <;>
    obtain ⟨c, hc, h⟩ := andThen_eq_next h
  case check =>
    split at h
    · obtain ⟨d, hd, h⟩ := andThen_eq_next h
      cases h
      exact (Bus.read_reaches hc).trans (Bus.access_reaches hd)
    · cases h; exact Bus.read_reaches hc
  case command =>
    obtain ⟨d, hd, h⟩ := andThen_eq_next h
    cases h
    exact (Bus.writes_reaches hc).trans (Bus.poll_reaches hd)
  all_goals
    cases h
    first
      | exact Bus.writes_reaches hc
      | exact Bus.read_reaches hc
      | exact Bus.poll_reaches hc
      | exact Bus.reads_reaches hc

/-! What the operations do where no command runs -/

@[simp] theorem transactions_nil : transactions [] = [] := rfl
@[simp] theorem transactions_append (l l' : List Input) : transactions (l ++ l') = transactions l ++ transactions l' :=
  List.filterMap_append ..
@[simp] theorem transactions_host (x : Access) : transactions [.host x] = [x] := rfl
@[simp] theorem transactions_seq : transactions [.seq] = [] := rfl

theorem seqStep_idle {s : State} (h : s.busy = false) : seqStep s = .next s := by
  have : s.latch = none := by simpa [State.busy] using h
  simp only [seqStep, this]

/-- The turn of SEQ before a transaction while no command runs: nothing but the schedule and the trace moves. -/
theorem Bus.seqTurn_idle (b : Bus) (h : b.machine.busy = false) :
    ∃ b', b.seqTurn = .next b' ∧ b'.machine = b.machine ∧ transactions b'.trace = transactions b.trace ∧
      b'.schedule = b.schedule.tail := by
  simp only [Bus.seqTurn]
  split
  · rename_i rest hs
    refine ⟨{ b with schedule := rest, trace := b.trace ++ [.seq] }, ?_, rfl, by simp, by simp [hs]⟩
    simp only [Bus.take, takeInput, seqStep_idle h, andThen_next]
  · rename_i rest hs
    exact ⟨_, rfl, rfl, rfl, by simp [hs]⟩
  · rename_i hs
    rw [if_neg (by simp [h])]
    exact ⟨b, rfl, rfl, rfl, by simp [hs]⟩

/-- A transaction while no command runs is the host access, on the machine as it is. -/
theorem Bus.access_idle (b : Bus) (x : Access) {t : State} (h : b.machine.busy = false)
    (ht : hostAccess b.machine x = .next t) :
    ∃ b', b.access x = .next b' ∧ b'.machine = t ∧ transactions b'.trace = transactions b.trace ++ [x] ∧
      b'.schedule = b.schedule.tail := by
  obtain ⟨c, hc, hm, htr, hs⟩ := b.seqTurn_idle h
  refine ⟨{ c with machine := t, trace := c.trace ++ [.host x] }, ?_, rfl, by simp [htr], hs⟩
  simp only [Bus.access, hc, andThen_next, Bus.take, takeInput, hm, ht]

/-- A read while no command runs. -/
theorem Bus.read_idle (b : Bus) (a : Word) {w : Word} (h : b.machine.busy = false)
    (ht : hostAccess b.machine (.read a) = .next (b.machine.returned w)) :
    ∃ b', b.read a = .next (b', w) ∧ b'.machine = b.machine.returned w ∧
      transactions b'.trace = transactions b.trace ++ [.read a] ∧ b'.schedule = b.schedule.tail := by
  obtain ⟨c, hc, hm, htr, hs⟩ := b.access_idle _ h ht
  refine ⟨c, ?_, hm, htr, hs⟩
  simp only [Bus.read, hc, andThen_next, hm]
  rfl

/-! Reads of STATUS in any state -/

/-- SEQ completes a running command, and returns no word. -/
theorem seqStep_completes (s : State) : ∃ t, seqStep s = .next t ∧ t.busy = false ∧ t.reads = s.reads := by
  cases hl : s.latch with
  | none => exact ⟨s, seqStep_idle (by simp [State.busy, hl]), by simp [State.busy, hl], rfl⟩
  | some r =>
    cases hd : decode r.word with
    | none => exact ⟨s.raiseError .illegalCmd, by simp only [seqStep, hl, hd], rfl, rfl⟩
    | some i =>
      obtain ⟨t, ht, he⟩ := exec_ends i s
      refine ⟨t, by simp only [seqStep, hl, hd, ht], ?_⟩
      obtain ⟨e, b, rfl, -⟩ | ⟨m, x, c, b, rfl, -⟩ := he <;> exact ⟨rfl, rfl⟩

theorem statusWord_busy (s : State) : s.statusWord.getLsbD 0 = s.busy := by
  simp only [State.statusWord, BitVec.getLsbD_append]
  simp

/-- A read of STATUS in any state: SEQ moves first unless the schedule holds it back. -/
theorem Bus.read_status_eq (b : Bus) {t : State} (ht : seqStep b.machine = .next t) :
    let m := if b.schedule.head? = some false then b.machine else t
    ∃ b', b.read (csrAddress .status) = .next (b', m.statusWord) ∧ b'.machine = m.returned m.statusWord ∧
      transactions b'.trace = transactions b.trace ++ [.read (csrAddress .status)] ∧
      b'.schedule = b.schedule.tail := by
  intro m
  have hturn : ∃ c, b.seqTurn = .next c ∧ c.machine = m ∧ transactions c.trace = transactions b.trace ∧
      c.schedule = b.schedule.tail := by
    simp only [Bus.seqTurn]
    split
    · rename_i rest hs
      refine ⟨{ b with machine := t, schedule := rest, trace := b.trace ++ [.seq] }, ?_, by simp [m, hs], by simp,
        by simp [hs]⟩
      simp only [Bus.take, takeInput, ht, andThen_next]
    · rename_i rest hs
      exact ⟨_, rfl, by simp [m, hs], rfl, by simp [hs]⟩
    · rename_i hs
      split
      · refine ⟨{ b with machine := t, trace := b.trace ++ [.seq] }, ?_, by simp [m, hs], by simp, by simp [hs]⟩
        simp only [Bus.take, takeInput, ht, andThen_next]
      · rename_i hb
        rw [seqStep_idle (by simpa using hb)] at ht
        cases ht
        exact ⟨b, rfl, by simp [m], rfl, by simp [hs]⟩
  obtain ⟨c, hc, hm, htr, hs⟩ := hturn
  refine ⟨{ c with machine := m.returned m.statusWord, trace := c.trace ++ [.host (.read (csrAddress .status))] }, ?_,
    rfl, by simp [htr], hs⟩
  simp only [Bus.read, Bus.access, hc, andThen_next, Bus.take, takeInput, hm, hostAccess_read_csr, readCsr]
  rfl

/-- The word read shows whether a command runs then: one does only if it did before and the schedule holds it back. -/
theorem Bus.read_status (b : Bus) :
    ∃ b' w, b.read (csrAddress .status) = .next (b', w) ∧ b'.machine.reads = w :: b.machine.reads ∧
      transactions b'.trace = transactions b.trace ++ [.read (csrAddress .status)] ∧ b'.schedule = b.schedule.tail ∧
      w.getLsbD 0 = b'.machine.busy ∧ b'.machine.busy = (b.machine.busy && b.schedule.head? == some false) := by
  obtain ⟨t, ht, hb, hr⟩ := seqStep_completes b.machine
  obtain ⟨c, hc, hm, htr, hs⟩ := b.read_status_eq ht
  refine ⟨c, _, hc, ?_, htr, hs, ?_, ?_⟩
  · rw [hm]; split <;> simp [State.returned, hr]
  · rw [hm, statusWord_busy]; rfl
  · rw [hm]
    by_cases hh : b.schedule.head? = some false
    · simp only [hh, if_true, beq_self_eq_true, Bool.and_true]; rfl
    · rw [if_neg hh, show (b.schedule.head? == some false) = false by simpa using hh, Bool.and_false]; exact hb

end Sys2Proof.Machine
end

