-- ==== Sys2Proof/Tests/Slice0.lean ====
section
/-! SUPPORT. The model's own tests: command words written out from R91 and R92, single steps against the vectors of
spec/95_test_vectors.md (V-…), and for every statement with hypotheses a concrete state that meets them. -/

namespace Sys2Proof.Tests

set_option Elab.async false

open Sys2Proof Sys2Proof.Machine

/-! The well-formedness check refuses ill-formed words and statements -/

theorem test_wf_refuses_rsv : commandWordWf 0x00000100#32 = false := by decide +kernel
theorem test_wf_refuses_top_bit : commandWordWf 0x80000010#32 = false := by decide +kernel
theorem test_wf_refuses_first_reserved : commandWordWf 0x00000003#32 = false := by decide +kernel
theorem test_wf_refuses_last_reserved : commandWordWf 0x000000FF#32 = false := by decide +kernel
theorem test_wf_refuses_range_ends :
    [0x0F#32, 0x12, 0x1F, 0x23, 0x2F, 0x32, 0x3F, 0x44].all (fun w => !commandWordWf w) = true := by decide +kernel
theorem test_wf_accepts : [0x00#32, 0x02, 0x10, 0x11, 0x20, 0x22, 0x30, 0x31, 0x40, 0x43].all commandWordWf = true := by
  decide +kernel
theorem test_stmt_refuses_unaligned : (Stmt.wrm 2 0).wf = false ∧ (Stmt.rdm 1).wf = false ∧ (Stmt.loadb 3 []).wf = false ∧
    (Stmt.loadw 6 []).wf = false ∧ (Stmt.readb 5 4).wf = false := by decide +kernel
theorem test_stmt_refuses_past_the_address_space : (Stmt.wrm 0x80000008 0).wf = false ∧ (Stmt.rdm 0x80000000).wf = false ∧
    (Stmt.loadb 0x7FFFFFFC [1, 2, 3, 4, 5]).wf = false ∧ (Stmt.loadw 0x7FFFFFFC [1, 2]).wf = false ∧
    (Stmt.readb 0x7FFFFFFC 5).wf = false ∧ (Stmt.wrm 0x7FFFFFFC 0).wf = true ∧ (Stmt.readb 0x7FFFFFFC 4).wf = true := by
  decide +kernel
theorem test_stmt_refuses_seven_operands : (Stmt.command .g [0, 1, 2, 3, 4, 5, 6]).wf = false := by decide +kernel

/-! Decoding: the words of R92, bit by bit RSV (31:8) then OPC (7:0) -/

theorem test_decode_nop : decode 0b00000000000000000000000000000000#32 = some .nop := by decide +kernel
theorem test_decode_config : decode 0b00000000000000000000000000000001#32 = some .config := by decide +kernel
theorem test_decode_zeroize : decode 0b00000000000000000000000000000010#32 = some .zeroize := by decide +kernel
theorem test_decode_hash : decode 0b00000000000000000000000000010000#32 = some .hash := by decide +kernel
theorem test_decode_hprime : decode 0b00000000000000000000000000010001#32 = some .hprime := by decide +kernel
theorem test_decode_g : decode 0b00000000000000000000000000100000#32 = some .g := by decide +kernel
theorem test_decode_gx : decode 0b00000000000000000000000000100001#32 = some .gx := by decide +kernel
theorem test_decode_perm : decode 0b00000000000000000000000000100010#32 = some .perm := by decide +kernel
theorem test_decode_refidx : decode 0b00000000000000000000000000110000#32 = some .refidx := by decide +kernel
theorem test_decode_addrgen : decode 0b00000000000000000000000000110001#32 = some .addrgen := by decide +kernel
theorem test_decode_seed : decode 0b00000000000000000000000001000000#32 = some .seed := by decide +kernel
theorem test_decode_fillseg : decode 0b00000000000000000000000001000001#32 = some .fillseg := by decide +kernel
theorem test_decode_fill : decode 0b00000000000000000000000001000010#32 = some .fill := by decide +kernel
theorem test_decode_final : decode 0b00000000000000000000000001000011#32 = some .final := by decide +kernel

/-- V-D3 to V-D8. -/
theorem test_decode_rejects :
    [0x00000003#32, 0x00000012, 0x00000044, 0x000000FF, 0x00000100, 0x80000010].all (fun w => decode w == none) = true := by decide +kernel

/-! A small machine: 32 blocks, zero LMEM, and `CONFIG 2, 16, 2` latched (m′ = 16, q = 8, SL = 2) -/

/-- The machine with `r` as its latched record and the inputs given. -/
def machine (r : Option Latch) (inputs : List Input) : State :=
  { State.reset with
    cmd := (r.map fun x => x.word).getD 0
    status := { State.reset.status with cfgok := true }
    cfg := configured 2 16 2
    cap := 32
    latch := r
    lmem := Memory.allZero
    inputs := inputs }

/-- The same machine with command `i` latched on the operands `a`, and SEQ to move next. -/
def running (i : Instr) (a : Args) : State := machine (some ⟨encode i, a⟩) [.seq]

theorem machine_lmemBlocks (r : Option Latch) (inputs : List Input) : (machine r inputs).lmemBlocks = 32 := rfl

theorem machine_inv (r : Option Latch) (inputs : List Input) : (machine r inputs).Inv where
  capacity_ge := by rw [machine_lmemBlocks]; decide
  capacity_le := by rw [machine_lmemBlocks]; decide
  errcode_iff := ⟨fun _ => rfl, fun _ => rfl⟩
  busy_done := fun _ => rfl
  busy_err := fun _ => rfl
  latched_word := fun x h => by
    have h' : r = some x := h
    subst h'
    rfl
  cfg_valid := fun _ => by
    rw [machine_lmemBlocks]
    exact configured_valid 2 16 2 32 (by decide) (by decide)
  lmem_wf := Memory.allZero_wf
  lmem_inside := Memory.allZero_inside _
  draw_taken := fun _ h => by cases h

/-- A field of the state one step gives; `d` where the step stops. -/
def afterStep {α : Type} (s : State) (f : State → α) (d : α) : α :=
  match step s with
  | .next t => f t
  | .fault _ | .refused _ => d

/-! The host port and the flags -/

/-- V-E10: a CMD write while BUSY sets OVR and nothing else: STATUS 0x301, CMD 0x20. -/
theorem test_overrun : afterStep { running .g ⟨0, 1, 2, 0, 0, 0⟩ with inputs := [.host (.write 0x08#32 0)] }
    (fun t => (t.statusWord, t.cmd, t.latch)) (0, 0, none) = (0x301#32, 0x20#32, some ⟨0x20#32, ⟨0, 1, 2, 0, 0, 0⟩⟩) := by
  decide +kernel
/-- V-E10: an ARG write while BUSY changes the register and not the latch. -/
theorem test_arg_write_while_busy :
    afterStep { running .g ⟨0, 1, 2, 0, 0, 0⟩ with inputs := [.host (.write 0x28#32 5)] }
      (fun t => (t.args.arg2, t.argl.arg2)) (0, 0) = (5#32, 2#32) := by decide +kernel
/-- R63: a misaligned read returns 0 and sets HBE (STATUS bit 10, with CFGOK 0x100). -/
theorem test_misaligned_read :
    afterStep (machine none [.host (.read 0x0000000D#32)]) (fun t => (t.reads, t.statusWord)) ([], 0)
      = ([0], 0x500#32) := by decide +kernel
/-- R62, R69: a window write is little-endian; while BUSY it is refused. -/
theorem test_window_write :
    afterStep (machine none [.host (.write 0x80000004#32 0x11223344#32)]) (fun t => t.lmem.readBytes 3 6) []
      = [0, 0x44, 0x33, 0x22, 0x11, 0] := by decide +kernel
theorem test_window_write_while_busy :
    step { running .nop Args.zero with inputs := [.host (.write 0x80000004#32 1)] }
      = .refused (.hostLmemAccessWhileBusy 0x80000004#32) := by rfl
/-- V-E3: `WR STATUS, 0x4` clears ERR and ERRCODE and keeps DONE. -/
theorem test_status_acknowledge :
    afterStep { machine none [.host (.write 0x0C#32 0x4#32)] with
      status := ⟨true, true, .notConfigured, false, false, false⟩ } (fun t => t.statusWord) 0 = 0x002#32 := by decide +kernel

/-! Commands, one step each -/

/-- R120: NOP leaves DONE, with CFGOK kept. -/
theorem test_nop : afterStep (running .nop Args.zero) (fun t => t.statusWord) 0 = 0x102#32 := by decide +kernel
/-- V-C9: rounding. -/
theorem test_config_rounds :
    afterStep { running .config ⟨3, 100, 1, 0, 0, 0⟩ with cap := 32768 } (fun t => (t.cfg, t.statusWord)) (Cfg.zero, 0)
      = (⟨3, 100, 1, 96, 32, 8⟩, 0x102#32) := by decide +kernel
/-- V-C16: p > P_MAX is INVALID_PARAMS before the capacity check; CFGOK is cleared and the registers are kept. -/
theorem test_config_rejects :
    afterStep { running .config ⟨16777216, 134217728, 1, 0, 0, 0⟩ with cap := 32768 } (fun t => (t.cfg, t.statusWord))
      (Cfg.zero, 0) = (⟨2, 16, 2, 16, 8, 2⟩, 0x016#32) := by decide +kernel
/-- R125: ZEROIZE over free LMEM: every byte is 0. -/
theorem test_zeroize :
    afterStep { running .zeroize Args.zero with lmem := ⟨.draw 0, [(5, 7)]⟩, res := ⟨1, 2, 3, 4⟩ }
      (fun t => (t.lmem, t.res)) (⟨.draw 0, []⟩, ⟨1, 1, 1, 1⟩) = (⟨.zero, []⟩, ⟨0, 0, 0, 0⟩) := by decide +kernel
/-- V-B3: the first bytes of the 32-byte digest of "abc". -/
theorem test_hash :
    afterStep { running .hash ⟨0, 3, 256, 32, 0, 0⟩ with lmem := ⟨.zero, [(0, 0x61), (1, 0x62), (2, 0x63)]⟩ }
      (fun t => t.lmem.readBytes 255 5) [] = [0, 0xbd, 0xdd, 0x81, 0x3c] := by decide +kernel
/-- INVALID_PARAMS beats RANGE (HASH corner vectors). -/
theorem test_hash_check_order :
    afterStep (running .hash ⟨0xFFFFFFFF, 1, 0, 0, 0, 0⟩) (fun t => t.statusWord) 0 = 0x116#32 := by decide +kernel
/-- V-H5, over its own input. -/
theorem test_hprime_over_input :
    afterStep { running .hprime ⟨0, 3, 0, 32, 0, 0⟩ with lmem := ⟨.zero, [(0, 0x61), (1, 0x62), (2, 0x63)]⟩ }
      (fun t => t.lmem.readBytes 0 4) [] = [0x6c, 0xfc, 0xbf, 0x5d] := by decide +kernel
/-- V-H4: the smallest chain, its last bytes. -/
theorem test_hprime_chain : (hprime 65 [0x61, 0x62, 0x63]).drop 62 = [0xc5, 0x65, 0xa6, 0x53, 0x91].drop 2 := by
  decide +kernel
/-- V-F7, V-GB2: the mixing function. -/
theorem test_fBlaMka : fBlaMka 0x0123456789ABCDEF 0xFEDCBA9876543210 = 0x7F44F06FCAC319DF := by decide +kernel
theorem test_gb :
    gb ⟨1, 0, 0, 0⟩ = ⟨0x301, 0x0602000200020200, 0x0301000100010000, 0x0301000000010000⟩ := by decide +kernel
/-- V-G3: G(iota, ZERO), three words; and V-G4. -/
theorem test_compress :
    let G := compress (Vector.ofFn fun k : Fin 128 => BitVec.ofNat 64 k.val) zeroBlock
    (G[0], G[1], G[127]) = (0xc1b5682006cab594, 0xeaf582377f3b0190, 0x364d79fa588abf87) := by decide +kernel
/-- V-G8: an index that is LMEM_BLOCKS is out of range; PERM ignores ARG1. -/
theorem test_g_range : afterStep (running .g ⟨32, 0, 0, 0, 0, 0⟩) (fun t => t.statusWord) 0 = 0x146#32 := by decide +kernel
theorem test_gx_range : afterStep (running .gx ⟨0, 0, 32, 0, 0, 0⟩) (fun t => t.statusWord) 0 = 0x146#32 := by decide +kernel
theorem test_perm_ignores_arg1 :
    afterStep (running .perm ⟨0, 99999, 3, 0, 0, 0⟩) (fun t => t.statusWord) 0 = 0x102#32 := by decide +kernel
/-- V-R16 and V-R12, under `CONFIG 2, 64, 2`. -/
theorem test_refidx :
    afterStep { running .refidx ⟨7, 1, 1, 2, 0x9E3779B9, 0x7F4A7C15⟩ with cfg := configured 2 64 2 } (fun t => t.res) Res.zero
      = ⟨1, 31, 25, 16⟩ := by decide +kernel
theorem test_refidx_wraps :
    afterStep { running .refidx ⟨1, 2, 0, 7, 0, 2⟩ with cfg := configured 2 64 2 } (fun t => t.res) Res.zero
      = ⟨0, 21, 30, 24⟩ := by decide +kernel
/-- R223 by hand: the address input block of (r, l, s, k) = (0, 1, 3, 5) under `CONFIG 2, 64, 7`. -/
theorem test_addrInput :
    (addrInput (configured 2 64 7) 0 3 1 5).toList.take 9 = [0, 1, 3, 64, 7, 2, 5, 0, 0] := by decide +kernel
theorem test_addrgen_not_configured :
    afterStep { running .addrgen Args.zero with status := State.reset.status } (fun t => t.statusWord) 0 = 0x056#32 := by
  decide +kernel
/-- V-S3: h + 64 one byte past LMEM, and not configured. -/
theorem test_seed_range : afterStep (running .seed ⟨32705, 0, 0, 0, 0, 0⟩) (fun t => t.statusWord) 0 = 0x146#32 := by decide +kernel
/-- V-FS1: with SL = 2, `FILLSEG 0, 0, 0` writes nothing; V-FS2: r ≥ t. -/
theorem test_fillseg_empty :
    afterStep (running .fillseg Args.zero) (fun t => (t.lmem, t.statusWord)) (⟨.draw 0, []⟩, 0)
      = (⟨.zero, []⟩, 0x102#32) := by decide +kernel
theorem test_fillseg_pass : afterStep (running .fillseg ⟨2, 0, 0, 0, 0, 0⟩) (fun t => t.statusWord) 0 = 0x116#32 := by decide +kernel
/-- V-FS4: FILL with CFGOK = 0. -/
theorem test_fill_not_configured :
    afterStep { running .fill Args.zero with status := State.reset.status } (fun t => t.statusWord) 0 = 0x056#32 := by decide +kernel
/-- R279 by hand: with p = 2 and q = 8 the last column is blocks 7 and 15; word 1 of them is 0x0100 and 3. -/
theorem test_preKey :
    (preKey (configured 2 16 2) ⟨.zero, [(7177, 1), (15368, 3)]⟩)[1] = 0x103#64 := by decide +kernel
/-- V-FN4: FINAL at a block index that is LMEM_BLOCKS. -/
theorem test_final_range : afterStep (running .final ⟨32, 0, 0, 0, 0, 0⟩) (fun t => t.statusWord) 0 = 0x146#32 := by
  decide +kernel
/-- V-D7: an illegal word completes with ILLEGAL_CMD. -/
theorem test_illegal_word :
    afterStep (machine (some ⟨0x100#32, Args.zero⟩) [.seq]) (fun t => t.statusWord) 0 = 0x136#32 := by decide +kernel
/-- R342: RST while a HASH runs frees its digest bytes and nothing else. -/
theorem test_rst_frees_write_set :
    afterStep { running .hash ⟨0, 0, 8, 2, 0, 0⟩ with inputs := [.rst] } (fun t => (t.lmem, t.statusWord))
      (⟨.zero, []⟩, 7) = ((machine none []).lmem.drawBytes 1 8 2, 0#32) := by rfl

/-! Witnesses: for every statement with hypotheses, a state and operands that meet them together. A statement of several
clauses has one for each, at the ends of their ranges. -/

/-- The small machine under `CONFIG 2, 16, t` and over another LMEM. -/
def variant (t : Word) (m : Memory) (r : Option Latch) (inputs : List Input) : State :=
  { machine r inputs with cfg := configured 2 16 t, lmem := m }

theorem variant_lmemBlocks (t : Word) (m : Memory) (r : Option Latch) (inputs : List Input) :
    (variant t m r inputs).lmemBlocks = 32 := rfl

theorem variant_inv (t : Word) (m : Memory) (r : Option Latch) (inputs : List Input) (ht : paramsOk 2 16 t.toNat = true)
    (hw : m.wf = true) (hi : m.inside 32768 = true) (hb : m.background = .zero) : (variant t m r inputs).Inv :=
  let h := machine_inv r inputs
  { capacity_ge := h.capacity_ge
    capacity_le := h.capacity_le
    errcode_iff := h.errcode_iff
    busy_done := h.busy_done
    busy_err := h.busy_err
    latched_word := h.latched_word
    cfg_valid := fun _ => by
      rw [variant_lmemBlocks]
      exact configured_valid 2 16 t 32 ht (by decide)
    lmem_wf := hw
    lmem_inside := hi
    draw_taken := fun n hn => by rw [show (variant t m r inputs).lmem.background = .zero from hb] at hn; cases hn }

/-- The small machine while BUSY and while idle, with a host access next. -/
def busyWith (x : Access) : State := { running .g ⟨0, 1, 2, 0, 0, 0⟩ with inputs := [.host x] }
def idleWith (x : Access) : State := machine none [.host x]

theorem witness_DecodeAndEncodeAgree :
    Instr.config.wf = true ∧ decode 0x00000001#32 = some .config ∧ encode .config = 0x00000001#32 := by decide +kernel
theorem witness_DecodeFollowsTheOpcodeMap :
    (0x00000100#32).extractLsb' 8 24 ≠ 0#24 ∧ (0x80000043#32).extractLsb' 8 24 ≠ 0#24 ∧
    (0x000000FF#32).extractLsb' 8 24 = 0#24 := by decide +kernel
theorem witness_IllegalWordsCompleteWithIllegalCmd :
    decode 0x00000100#32 = none ∧ commandWordWf 0x00000100#32 = false ∧ (machine none []).latch = none ∧
    { machine none [] with inputs := [.host (.write 0x00000008#32 0x00000100#32), .seq] }.inputs
      = [.host (.write 0x00000008#32 0x00000100#32), .seq] := by decide +kernel
theorem witness_StepRunsTheDecodedCommand :
    (running .final ⟨20, 0, 0, 0, 0, 0⟩).latch = some ⟨0x43#32, ⟨20, 0, 0, 0, 0, 0⟩⟩ ∧
    decode 0x43#32 = some .final ∧ Instr.final.wf = true ∧ (running .final ⟨20, 0, 0, 0, 0, 0⟩).inputs = [.seq] ∧
    (machine (some ⟨0x43#32, ⟨20, 0, 0, 0, 0, 0⟩⟩) []).inputs = [] := by decide +kernel
theorem witness_StepsStopOnlyAtDutyBreaks :
    (busyWith (.write 0x80000000#32 1)).breaksDuty = true ∧ (busyWith (.read 0x80007FFC#32)).breaksDuty = true ∧
    (busyWith (.read 0x80008000#32)).breaksDuty = false ∧ (busyWith (.read 0x80000001#32)).breaksDuty = false ∧
    (idleWith (.read 0x80000000#32)).breaksDuty = false := by decide +kernel

theorem witness_RstBringsTheResetValues :
    (machine none [.rst]).inputs = [.rst] ∧ (machine none [.rst]).busy = false ∧
    ({ running .g ⟨0, 1, 2, 0, 0, 0⟩ with inputs := [.rst] }).busy = true := by decide +kernel
theorem witness_RstFreesOnlyTheWriteSet_zeroize :
    let s := machine (some ⟨0x02#32, Args.zero⟩) [.rst]
    s.inputs = [.rst] ∧ s.latch = some ⟨0x02#32, Args.zero⟩ ∧ decode 0x02#32 = some .zeroize ∧ 32767 < s.lmemBytes ∧
    InWriteSet s ⟨0x02#32, Args.zero⟩ 32767 .zeroize := by simp only [InWriteSet]; decide +kernel
/-- HASH with the digest range [8, 10): bytes 8 and 9 are in its row, 7 and 10 are not. -/
theorem witness_RstFreesOnlyTheWriteSet_hash :
    let r : Latch := ⟨0x10#32, ⟨0, 0, 8, 2, 0, 0⟩⟩
    let s := machine (some r) [.rst]
    s.inputs = [.rst] ∧ s.latch = some r ∧ decode 0x10#32 = some .hash ∧ 9 < s.lmemBytes ∧ InWriteSet s r 8 .hash ∧
    InWriteSet s r 9 .hash ∧ ¬InWriteSet s r 7 .hash ∧ ¬InWriteSet s r 10 .hash := by
  simp only [InWriteSet]; decide +kernel
/-- FILLSEG 1, 3, 1 with q = 8 and SL = 2: blocks 14 and 15 are in its row, 13 and 16 are not; SEED: block 9 is, 10 is not. -/
theorem witness_RstFreesOnlyTheWriteSet_segment :
    let r : Latch := ⟨0x41#32, ⟨1, 3, 1, 0, 0, 0⟩⟩
    let s := machine (some r) [.rst]
    InWriteSet s r (14 * 1024) .fillseg ∧ InWriteSet s r (15 * 1024 + 1023) .fillseg ∧
    ¬InWriteSet s r (13 * 1024 + 1023) .fillseg ∧ ¬InWriteSet s r (16 * 1024) .fillseg ∧
    InWriteSet s r (9 * 1024 + 1023) .seed ∧ ¬InWriteSet s r (10 * 1024) .seed := by
  have hq : (configured 2 16 2).q.toNat = 8 := by decide +kernel
  have hs : (configured 2 16 2).sl.toNat = 2 := by decide +kernel
  have hp : (configured 2 16 2).p.toNat = 2 := by decide +kernel
  simp only [InWriteSet, machine, hq, hs, hp]
  refine ⟨⟨0, by decide⟩, ⟨1, by decide⟩, ?_, ?_, ⟨1, 1, by decide⟩, ?_⟩ <;> simp <;> omega

theorem witness_AcceptanceLatchesTheCommand :
    (idleWith (.write 0x00000008#32 0x20#32)).inputs = [.host (.write 0x00000008#32 0x20#32)] ∧
    (idleWith (.write 0x00000008#32 0x20#32)).busy = false := by decide +kernel
theorem witness_CommandWriteWhileBusyIsDropped :
    (busyWith (.write 0x00000008#32 0)).inputs = [.host (.write 0x00000008#32 0)] ∧
    (busyWith (.write 0x00000008#32 0)).busy = true := by decide +kernel
theorem witness_CommandWriteWhileBusyIsDropped_falls :
    let s := { idleWith (.write 0x0000000C#32 0x200#32) with status := ⟨true, false, .none, true, true, false⟩ }
    s.status.ovr = true ∧ afterStep s (fun t => t.status.ovr) true = false := by decide +kernel
theorem witness_BadHostAccessOnlySetsHbe :
    (0x00000001#32).toNat % 4 ≠ 0 ∧ (0x100 ≤ (0x00000100#32).toNat ∧ (0x00000100#32).toNat < 0x80000000) ∧
    (0x100 ≤ (0x7FFFFFFC#32).toNat ∧ (0x7FFFFFFC#32).toNat < 0x80000000) ∧
    0x80000000 + (idleWith (.read 0x80008000#32)).lmemBytes ≤ (0x80008000#32).toNat ∧
    (idleWith (.read 0x80008000#32)).inputs = [.host (.read 0x80008000#32)] ∧
    (idleWith (.write 0x00000001#32 5)).inputs = [.host (.write 0x00000001#32 5)] := by decide +kernel
/-- The case of log entry 5: a misaligned address inside the LMEM window while a command runs. -/
theorem witness_BadHostAccessOnlySetsHbe_busy :
    let s := busyWith (.read 0x80000001#32)
    s.busy = true ∧ (0x80000001#32).toNat % 4 ≠ 0 ∧ (0x80000001#32).toNat < 0x80000000 + s.lmemBytes ∧
    s.inputs = [.host (.read 0x80000001#32)] ∧ afterStep s (fun t => (t.reads, t.statusWord)) ([], 0) = ([0], 0x501#32) := by
  decide +kernel
theorem witness_BadHostAccessOnlySetsHbe_falls :
    let s := { idleWith (.write 0x0000000C#32 0x400#32) with status := ⟨true, false, .none, true, false, true⟩ }
    s.status.hbe = true ∧ afterStep s (fun t => t.status.hbe) true = false := by decide +kernel
theorem witness_CommandsUseTheLatchedOperands :
    (busyWith (.write 0x34#32 7)).inputs = [.host (.write (BitVec.ofNat 32 (0x20 + 4 * (5 : Fin 6).val)) 7)] ∧
    (busyWith (.write 0x20#32 7)).inputs = [.host (.write (BitVec.ofNat 32 (0x20 + 4 * (0 : Fin 6).val)) 7)] ∧
    (busyWith (.write 0x20#32 7)).busy = true := by decide +kernel
theorem witness_StatusWriteClearsItsOnes :
    (busyWith (.write 0x0000000C#32 0xFFFFFFFF#32)).inputs = [.host (.write 0x0000000C#32 0xFFFFFFFF#32)] := by
  decide +kernel
theorem witness_OperandRegistersHoldWhatTheHostWrites :
    (machine none [.host (.write 0x34#32 0xFFFFFFFF#32), .host (.read 0x34#32)]).inputs
      = [.host (.write (BitVec.ofNat 32 (0x20 + 4 * (5 : Fin 6).val)) 0xFFFFFFFF#32),
        .host (.read (BitVec.ofNat 32 (0x20 + 4 * (5 : Fin 6).val)))] ∧
    ∃ t, exec .nop (running .nop Args.zero) = .next t := ⟨by decide +kernel, _, rfl⟩
theorem witness_ReadOnlyRegistersIgnoreWrites :
    (idleWith (.write 0x00#32 1)).inputs = [.host (.write (csrAddress .id) 1)] ∧
    (idleWith (.write 0x7C#32 1)).inputs = [.host (.write (csrAddress .cap) 1)] ∧
    (idleWith (.write 0x4C#32 1)).inputs = [.host (.write (csrAddress (.res 3)) 1)] ∧
    (idleWith (.write 0x0000000C#32 0x2#32)).inputs = [.host (.write 0x0000000C#32 0x2#32)] ∧
    (0x2#32).getLsbD 2 = false ∧ (idleWith (.read 0x7C#32)).inputs = [.host (.read (csrAddress .cap))] := by
  decide +kernel
theorem witness_ReservedSlotsAndBitsReadZero :
    0x14 ∈ [0x14, 0x18, 0x1C, 0x38, 0x3C, 0x50, 0x54, 0x58, 0x5C, 0x78] ∧
    0x78 ∈ [0x14, 0x18, 0x1C, 0x38, 0x3C, 0x50, 0x54, 0x58, 0x5C, 0x78] ∧
    (0x80 ≤ 0x80 ∧ 0x80 < 0x100 ∧ 0x80 % 4 = 0) ∧ (0x80 ≤ 0xFC ∧ 0xFC < 0x100 ∧ 0xFC % 4 = 0) ∧
    (idleWith (.read 0xFC#32)).inputs = [.host (.read (BitVec.ofNat 32 0xFC))] ∧
    (idleWith (.write 0x14#32 1)).inputs = [.host (.write (BitVec.ofNat 32 0x14) 1)] ∧
    (3 = 3 ∨ 11 ≤ 3) ∧ (11 = 3 ∨ 11 ≤ 11) ∧ 2 ≤ 2 ∧ 24 ≤ 24 := by decide +kernel
theorem witness_IrqFollowsTheEnables :
    (idleWith (.write 0x00000010#32 0xFFFFFFFE#32)).inputs = [.host (.write 0x00000010#32 0xFFFFFFFE#32)] := by
  decide +kernel
theorem witness_IrqRisesAtCompletionAndFalls :
    (∃ t, exec .nop (running .nop Args.zero) = .next t) ∧
    ((idleWith (.write 0x00000008#32 0)).busy = false ∧
      (idleWith (.write 0x00000008#32 0)).inputs = [.host (.write 0x00000008#32 0)] ∧
      ∃ t, step (idleWith (.write 0x00000008#32 0)) = .next t) ∧
    ((idleWith (.write 0x0000000C#32 0x6#32)).inputs = [.host (.write 0x0000000C#32 0x6#32)] ∧
      ∃ t, step (idleWith (.write 0x0000000C#32 0x6#32)) = .next t) ∧
    ((machine none [.rst]).inputs = [.rst] ∧ ∃ t, step (machine none [.rst]) = .next t) :=
  ⟨⟨_, rfl⟩, ⟨rfl, rfl, _, rfl⟩, ⟨rfl, _, rfl⟩, rfl, _, rfl⟩
theorem witness_LmemWindowIsLittleEndian :
    let r := idleWith (.read 0x80007FFC#32)
    let w := idleWith (.write 0x80000000#32 0x11223344#32)
    (r.Inv ∧ w.Inv) ∧ r.busy = false ∧ 32764 % 4 = 0 ∧ 32764 + 4 ≤ r.lmemBytes ∧
    r.inputs = [.host (.read (BitVec.ofNat 32 (0x80000000 + 32764)))] ∧ w.busy = false ∧ 0 % 4 = 0 ∧
    0 + 4 ≤ w.lmemBytes ∧ w.inputs = [.host (.write (BitVec.ofNat 32 (0x80000000 + 0)) 0x11223344#32)] :=
  ⟨⟨machine_inv _ _, machine_inv _ _⟩, by decide +kernel⟩
theorem witness_ReadsAreIdempotent :
    let s := machine none [.host (.read 0x000000FC#32), .host (.read 0x000000FC#32)]
    let u := machine none [.host (.read 0x80007FFC#32), .host (.read 0x80007FFC#32)]
    s.busy = false ∧ (0x000000FC#32).toNat % 4 = 0 ∧ (0x000000FC#32).toNat < 0x100 ∧ u.busy = false ∧
    (0x80007FFC#32).toNat % 4 = 0 ∧ 0x80000000 ≤ (0x80007FFC#32).toNat ∧
    (0x80007FFC#32).toNat < 0x80000000 + u.lmemBytes ∧
    s.inputs = [.host (.read 0x000000FC#32), .host (.read 0x000000FC#32)] := by decide +kernel
theorem witness_CommandStatementIssuesItsCommand :
    let l := (commandWrites .refidx [1, 2, 3, 4, 5, 6]).map fun x => Input.host (.write x.1 x.2)
    (machine none (l ++ [.seq])).busy = false ∧ [1#32, 2, 3, 4, 5, 6].length ≤ 6 ∧
    (machine none (l ++ [.seq])).inputs = l ++ [.seq] ∧
    (⟨machine none [], [false, true], []⟩ : Bus).machine.busy = false := by decide +kernel

theorem witness_OnlyTheNamedCommandsWriteTheirRegisters :
    (∃ t, exec .nop (running .nop Args.zero) = .next t) ∧ Instr.nop ≠ .config ∧ Instr.nop ≠ .refidx ∧
    Instr.nop ≠ .zeroize := ⟨⟨_, rfl⟩, by decide⟩
/-- The two ways the CFG registers change. -/
theorem witness_OnlyTheNamedCommandsWriteTheirRegisters_steps :
    (running .config ⟨1, 8, 1, 0, 0, 0⟩).inputs = [.seq] ∧
    afterStep (running .config ⟨1, 8, 1, 0, 0, 0⟩) (fun t => t.cfg) (configured 2 16 2) ≠ configured 2 16 2 ∧
    afterStep (machine none [.rst]) (fun t => t.cfg) (configured 2 16 2) ≠ configured 2 16 2 := by decide +kernel
theorem witness_ResultRegistersChangeOnlyByRefidxAndZeroize :
    (idleWith (.read 0x4C#32)).inputs = [.host (.read (BitVec.ofNat 32 (0x40 + 4 * (3 : Fin 4).val)))] ∧
    (idleWith (.write 0x40#32 9)).inputs = [.host (.write (BitVec.ofNat 32 (0x40 + 4 * (0 : Fin 4).val)) 9)] ∧
    afterStep { machine none [.rst] with res := ⟨1, 0, 0, 0⟩ } (fun t => t.res) ⟨1, 0, 0, 0⟩ ≠ ⟨1, 0, 0, 0⟩ ∧
    (running .refidx ⟨1, 3, 1, 1, 7, 9⟩).inputs = [.seq] ∧
    afterStep (running .refidx ⟨1, 3, 1, 1, 7, 9⟩) (fun t => t.res) Res.zero ≠ Res.zero := by decide +kernel
theorem witness_BusyMovesOnlyAtAcceptanceAndCompletion :
    ((idleWith (.write 0x00000008#32 0)).busy = false ∧
      afterStep (idleWith (.write 0x00000008#32 0)) State.busy false = true) ∧
    ((running .nop Args.zero).busy = true ∧ afterStep (running .nop Args.zero) State.busy true = false) ∧
    ((busyWith (.read 0)).busy = true ∧ afterStep (busyWith (.read 0)) State.busy false = true) := by decide +kernel
theorem witness_ConfigurationComesOnlyFromConfig :
    let s := { running .config ⟨2, 16, 2, 0, 0, 0⟩ with status := State.reset.status }
    s.inputs = [.seq] ∧ s.status.cfgok = false ∧ afterStep s (fun t => t.status.cfgok) false = true ∧
    Instr.final ∈ [Instr.refidx, .addrgen, .seed, .fillseg, .fill, .final] := by decide +kernel
/-- R301: HASH with nn = 65 fails its first check, NOP has none; a check of each other kind, at its boundary. -/
theorem witness_ErrorsAreReportedInTheStatedOrder :
    let e (i : Instr) (a : Args) := firstError (running i a) ⟨encode i, a⟩ i
    e .hash ⟨0, 1, 0, 65, 0, 0⟩ = some .invalidParams ∧ e .hash ⟨0, 32768, 32704, 64, 0, 0⟩ = none ∧
    e .hprime ⟨0, 32769, 0, 1, 0, 0⟩ = some .range ∧ e .config ⟨1, 132, 1, 0, 0, 0⟩ = some .resourceExhausted ∧
    e .perm ⟨31, 99, 31, 0, 0, 0⟩ = none ∧ e .nop Args.zero = none ∧
    firstError { running .fill Args.zero with status := State.reset.status } ⟨0x42, Args.zero⟩ .fill
      = some .notConfigured := by decide +kernel

theorem witness_ConfigLatchesTheGeometry :
    let a : Args := ⟨1, 8, 1, 0, 0, 0⟩
    (running .config a).latch = some ⟨0x01#32, a⟩ ∧ 1 ≤ a.arg0.toNat ∧ a.arg0.toNat ≤ 2 ^ 24 - 1 ∧ 1 ≤ a.arg2.toNat ∧
    8 * a.arg0.toNat ≤ a.arg1.toNat ∧
    4 * a.arg0.toNat * (a.arg1.toNat / (4 * a.arg0.toNat)) ≤ (running .config a).lmemBlocks := by decide +kernel
/-- The four ways to be out of bounds, and the smallest matrix that does not fit. -/
theorem witness_ConfigRejectsAndClearsCfgok :
    let bad (p m t : Nat) : Prop := p = 0 ∨ 2 ^ 24 - 1 < p ∨ t = 0 ∨ m < 8 * p
    (bad 0 8 1 ∧ bad (2 ^ 24) (2 ^ 27) 1 ∧ bad 1 8 0 ∧ bad 1 7 1) ∧ ¬bad 1 36 1 ∧
    (running .config ⟨1, 36, 1, 0, 0, 0⟩).lmemBlocks < 4 * 1 * (36 / (4 * 1)) ∧
    (running .config ⟨1, 36, 1, 0, 0, 0⟩).latch = some ⟨0x01#32, ⟨1, 36, 1, 0, 0, 0⟩⟩ := by decide +kernel

theorem witness_HashWritesTheDigest :
    let s := running .hash ⟨32767, 1, 0, 1, 0, 0⟩
    let u := running .hash ⟨0, 0, 32704, 64, 0, 0⟩
    s.latch = some ⟨0x10#32, ⟨32767, 1, 0, 1, 0, 0⟩⟩ ∧ 1 ≤ 1 ∧ 1 ≤ 64 ∧ 32767 + 1 ≤ s.lmemBytes ∧ 0 + 1 ≤ s.lmemBytes ∧
    u.latch = some ⟨0x10#32, ⟨0, 0, 32704, 64, 0, 0⟩⟩ ∧ 0 + 0 ≤ u.lmemBytes ∧ 32704 + 64 ≤ u.lmemBytes := by
  decide +kernel
theorem witness_HprimeWritesItsOutput :
    let s := running .hprime ⟨0, 3, 32767, 1, 0, 0⟩
    s.latch = some ⟨0x11#32, ⟨0, 3, 32767, 1, 0, 0⟩⟩ ∧ 1 ≤ 1 ∧ 0 + 3 ≤ s.lmemBytes ∧ 32767 + 1 ≤ s.lmemBytes := by
  decide +kernel
/-- The two forms of H′ at their boundary, and a digest length of 64 at the end. -/
theorem witness_HprimeIsTheChainOfHashes : (1 ≤ 1 ∧ 1 ≤ 64) ∧ (1 ≤ 64 ∧ 64 ≤ 64) ∧ 64 < 65 := by decide
theorem witness_HprimeHasTheLengthAsked :
    1 ≤ 1 ∧ 64 < 65 ∧ 64 < 96 ∧ 96 - 32 * ((96 + 31) / 32 - 2) = 64 := by decide

theorem witness_RowAndColumnStepsApplyP : (7 < 8 ∧ 15 < 16) ∧ (7 < 8 ∧ 7 < 8 ∧ 1 < 2) := by decide
/-- Two different pairs of blocks with one XOR. -/
theorem witness_CompressionDependsOnTheXor :
    let X : Block := Vector.replicate 128 3#64
    let Y : Block := Vector.replicate 128 5#64
    xorBlock X Y = xorBlock (Vector.replicate 128 6#64) zeroBlock ∧ X ≠ Vector.replicate 128 6#64 := by decide +kernel
theorem witness_BlockCommandsWriteOneBlock :
    let s := running .gx ⟨31, 0, 31, 0, 0, 0⟩
    s.latch = some ⟨0x21#32, ⟨31, 0, 31, 0, 0, 0⟩⟩ ∧ 31 < s.lmemBlocks ∧ 0 < s.lmemBlocks := by decide +kernel

theorem witness_RefidxAnswersTheReference :
    let s := running .refidx ⟨0, 3, 1, 1, 7, 9⟩
    s.Inv ∧ s.latch = some ⟨0x30#32, ⟨0, 3, 1, 1, 7, 9⟩⟩ ∧ s.status.cfgok = true ∧ 3 ≤ 3 ∧ 1 < s.cfg.p.toNat ∧
    1 < s.cfg.sl.toNat ∧ ¬(0 = 0 ∧ 3 = 0 ∧ 1 < 2) := ⟨machine_inv _ _, by decide +kernel⟩
/-- Both ends: the first position of pass 0's slice 1, a position of pass 0's slice 0, and one of a later pass. -/
theorem witness_ReferencesAreAlwaysEligible :
    (configured 2 16 2).Valid 32 ∧ (configured 1 12 1).Valid 32 ∧ positionOk (configured 2 16 2) 0 1 0 0 = true ∧
    positionOk (configured 1 12 1) 0 0 0 2 = true ∧ positionOk (configured 2 16 2) 1 0 1 0 = true ∧
    2 ^ 32 - 1 < 2 ^ 32 :=
  ⟨configured_valid 2 16 2 32 (by decide) (by decide), configured_valid 1 12 1 32 (by decide) (by decide),
    by decide +kernel⟩
theorem witness_AddrgenWritesTheAddressBlock :
    let s := running .addrgen ⟨7, 9, 5, 0, 31, 0⟩
    s.latch = some ⟨0x31#32, ⟨7, 9, 5, 0, 31, 0⟩⟩ ∧ s.status.cfgok = true ∧ 31 < s.lmemBlocks := by decide +kernel

/-- The last offset H0 may have, and one over a block that SEED writes. -/
theorem witness_SeedWritesTwoBlocksPerLane :
    let s := running .seed ⟨32704, 0, 0, 0, 0, 0⟩
    let u := running .seed ⟨8192, 0, 0, 0, 0, 0⟩
    (s.Inv ∧ u.Inv) ∧ s.latch = some ⟨0x40#32, ⟨32704, 0, 0, 0, 0, 0⟩⟩ ∧ s.status.cfgok = true ∧
    32704 + 64 ≤ s.lmemBytes ∧ u.latch = some ⟨0x40#32, ⟨8192, 0, 0, 0, 0, 0⟩⟩ ∧ 8192 + 64 ≤ u.lmemBytes :=
  ⟨⟨machine_inv _ _, machine_inv _ _⟩, by decide +kernel⟩
theorem witness_FillsegFillsItsSegment :
    let s := running .fillseg ⟨1, 3, 1, 0, 0, 0⟩
    let u := running .fillseg ⟨0, 1, 0, 0, 0, 0⟩
    (s.Inv ∧ u.Inv) ∧ s.latch = some ⟨0x41#32, ⟨1, 3, 1, 0, 0, 0⟩⟩ ∧ s.status.cfgok = true ∧ 1 < s.cfg.t.toNat ∧ 3 ≤ 3 ∧
    1 < s.cfg.p.toNat ∧ (0 ≤ 1 ∧ 1 < s.cfg.sl.toNat) ∧ u.latch = some ⟨0x41#32, ⟨0, 1, 0, 0, 0, 0⟩⟩ ∧
    0 < u.cfg.t.toNat ∧ 0 < u.cfg.p.toNat :=
  ⟨⟨machine_inv _ _, machine_inv _ _⟩, by decide +kernel⟩
theorem witness_FillIsItsSegmentsInAnyLaneOrder :
    let s := running .fill Args.zero
    let order : Nat → Nat → List Nat := fun _ _ => [1, 0]
    let u := variant 1 Memory.allZero (some ⟨0x42#32, Args.zero⟩) [.seq]
    (s.Inv ∧ u.Inv) ∧ s.status.cfgok = true ∧ (∀ r sl, (order r sl).Perm (List.range s.cfg.p.toNat)) ∧
    u.status.cfgok = true ∧ u.cfg.t.toNat = 1 :=
  ⟨⟨machine_inv _ _, variant_inv _ _ _ _ (by decide) (by decide) (by decide) rfl⟩, by decide +kernel, fun _ _ => by
    have h : ([1, 0] : List Nat).Perm (List.range 2) := by decide
    exact h, by decide +kernel⟩
theorem witness_LaneInterleavingIsNotObservable :
    (configured 2 16 2).Valid 32 ∧ 3 < 4 ∧ Memory.allZero.wf = true ∧
    ([1, 0, 0, 1] : List Nat).Perm
      ((List.range (configured 2 16 2).p.toNat).flatMap fun l =>
        List.replicate ((configured 2 16 2).sl.toNat - fillStart 1 3) l) :=
  ⟨configured_valid 2 16 2 32 (by decide) (by decide), by decide, Memory.allZero_wf, by
    have h : ([1, 0, 0, 1] : List Nat).Perm ((List.range 2).flatMap fun l => List.replicate (2 - fillStart 1 3) l) := by
      decide
    exact h⟩
/-- Two LMEMs that differ in one byte of block 2, which is no seed block: those are blocks 0, 1, 8 and 9. -/
theorem oneByte_seeds (l c : Nat) (hc : c < 2) :
    (Memory.allZero.writeBytes 2048 [1]).readBlock (l * 8 + c) = Memory.allZero.readBlock (l * 8 + c) :=
  Memory.readBlock_congr fun x h₁ h₂ => Memory.readByte_writeBytes_out _ _ _ x (by
    simp only [List.length_singleton]
    omega)
theorem witness_FillDependsOnlyOnTheSeeds :
    let s := running .fill Args.zero
    let s' := variant 2 (Memory.allZero.writeBytes 2048 [1]) (some ⟨0x42#32, Args.zero⟩) [.seq]
    (s.Inv ∧ s'.Inv) ∧ s.status.cfgok = true ∧ s'.status.cfgok = true ∧ s'.cfg = s.cfg ∧
    (∀ l c, l < s.cfg.p.toNat → c < 2 →
      s'.lmem.readBlock (l * s.cfg.q.toNat + c) = s.lmem.readBlock (l * s.cfg.q.toNat + c)) ∧
    s'.lmem.readByte 2048 ≠ s.lmem.readByte 2048 ∧
    (∃ t, exec .fill s = .next t) ∧ ∃ t, exec .fill s' = .next t :=
  ⟨⟨machine_inv _ _, variant_inv _ _ _ _ (by decide) (by decide +kernel) (by decide +kernel) rfl⟩, by decide +kernel,
    by decide +kernel, by decide +kernel, fun l c _ hc => by
      have hq : (running .fill Args.zero).cfg.q.toNat = 8 := by decide +kernel
      rw [hq]
      exact oneByte_seeds l c hc,
    by decide +kernel, (exec_ends _ _).imp fun _ h => h.1, (exec_ends _ _).imp fun _ h => h.1⟩
theorem witness_FinalWritesThePreKey :
    let s := running .final ⟨31, 0, 0, 0, 0, 0⟩
    s.latch = some ⟨0x43#32, ⟨31, 0, 0, 0, 0, 0⟩⟩ ∧ s.status.cfgok = true ∧ 31 < s.lmemBlocks := by decide +kernel

theorem witness_EveryStepKeepsTheInvariant :
    (running .nop Args.zero).Inv ∧ ∃ t, step (running .nop Args.zero) = .next t := ⟨machine_inv _ _, _, rfl⟩

/-! Host scripts -/

/-- The small machine with a host at work. -/
def bus (r : Option Latch) (schedule : List Bool) : Bus := ⟨machine r [], schedule, []⟩

/-- A field of what a host operation answers; `d` where the machine stops. -/
def answer {α β : Type} (x : HostResult α) (f : α → β) (d : β) : β :=
  match x with
  | .next a => f a
  | .fault _ | .refused _ => d

/-- R113: `WR CMD; WAIT; WAIT`, one busy poll in the first WAIT: two reads, then one. -/
theorem test_wait_stops_when_idle :
    answer (runScript [.wr .cmd 0, .wait, .wait] (bus none [false, false, true])) (fun x => transactions x.1.trace) []
      = [.write 8 0, .read 12, .read 12, .read 12] := by decide +kernel
/-- R110: a CHECK that finds ERR = 1 ends the script, with no write to STATUS. -/
theorem test_check_fails :
    answer (runScript [.command .g [32], .check, .wr (.arg 0) 7] (bus none []))
      (fun x => (x.2, transactions x.1.trace, x.1.machine.statusWord)) ([], [], 0)
      = ([.none, .failed], [.write 0x20 32, .write 8 0x20, .read 12, .read 12], 0x146#32) := by decide +kernel
/-- R112: READB's result is the first n bytes, least significant first. -/
theorem test_readb : bytesRead 6 [0x44332211#32, 0x88776655] = [0x11, 0x22, 0x33, 0x44, 0x55, 0x66] := by decide +kernel
theorem test_loadb_readb :
    answer (runScript [.loadb 4 [1, 2, 3, 4, 5], .readb 4 6] (bus none [])) (fun x => x.2) []
      = [.none, .bytes [1, 2, 3, 4, 5, 0]] := by decide +kernel

/-- A derivation with m′ = 8: its scratch places lie in block 8 and above. -/
def derivation : Derivation := ⟨1, 32, 8, 1, [1], [2], [], [], 8192, 8448, 9, 8704⟩

theorem test_derivation_wf : derivation.wf = true ∧ ({ derivation with a := 8188 }).wf = false ∧
    ({ derivation with f := 7 }).wf = false ∧ ({ derivation with o := 8705 }).wf = false ∧
    ({ derivation with h := 8191 }).wf = false ∧ ({ derivation with f := 0x3FFFFF }).wf = true ∧
    ({ derivation with f := 0x400000 }).wf = false := by decide +kernel
/-- The operands of HASH, SEED, FINAL and HPRIME are the derivation's own, no bit of them lost (R282). -/
theorem test_derivation_operands :
    derivation.script.filterMap (fun st => match st with
      | .command i ops => some (encode i, ops)
      | .wr _ _ | .wrm _ _ | .rd _ | .rdm _ | .wait | .check | .loadb _ _ | .loadw _ _ | .readb _ _ => none)
      = [(2, []), (1, [1, 8, 1]), (0x10, [8192, 42, 8448, 64]), (0x40, [8448]), (0x42, []), (0x43, [9]),
        (0x11, [9216, 1024, 8704, 32]), (2, [])] := by decide +kernel
/-- R282: with t = 0, CONFIG's CHECK fails; no later command is issued but ZEROIZE. -/
theorem test_derivation_gives_up :
    answer (({ derivation with t := 0 }).run (bus none []))
      (fun x => (x.2, (transactions x.1.trace).filter fun y => match y with | .write a _ => a == 8#32 | .read _ => false))
      (none, []) = (none, [.write 8 2, .write 8 1, .write 8 2]) := by decide +kernel

theorem witness_ScriptRunsAreRunsOfTheMachine : ∃ b' rs, runScript [.rd .cap] (bus none []) = .next (b', rs) :=
  ⟨_, _, rfl⟩
theorem witness_WaitStopsAtTheFirstIdleRead :
    (bus none []).machine.busy = false ∧ (bus (some ⟨0, Args.zero⟩) [false, false]).machine.busy = true ∧
    (bus (some ⟨0, Args.zero⟩) [false, false]).schedule = List.replicate 2 false ∧
    (bus (some ⟨0, Args.zero⟩) []).schedule = List.replicate 0 false := by decide +kernel
theorem witness_CheckEndsAFailingScript :
    let b : Bus := ⟨{ machine none [] with status := ⟨true, true, .range, true, false, false⟩ }, [], []⟩
    b.machine.busy = false ∧ b.machine.status.err = true ∧ (bus none []).machine.busy = false ∧
    (bus none []).machine.status.err = false := by decide +kernel
/-- The last words and bytes of LMEM. -/
theorem witness_DataStatementsMoveTheirBytes :
    let s := (bus none []).machine
    s.Inv ∧ s.busy = false ∧ 32760 % 4 = 0 ∧ 32760 + 4 * [1#32, 2].length ≤ s.lmemBytes ∧
    32760 + 4 * (([1, 2, 3, 4, 5] : Bytes).length + 3) / 4 ≤ s.lmemBytes ∧ 32760 + 7 ≤ s.lmemBytes ∧
    0 + 32768 ≤ s.lmemBytes := ⟨machine_inv _ _, by decide +kernel⟩
theorem witness_DerivationZeroizesOnEveryPath :
    derivation.script.all Stmt.wf = true ∧ (bus none [true, false]).machine.busy = false := by decide +kernel

end Sys2Proof.Tests
end

section
/-! PROOFS. What the commands leave in LMEM and in the CFG registers, and the invariant of the machine (R29, R34, R35,
R40, R352): the reset state meets it and every step keeps it. -/

namespace Sys2Proof.Machine

/-! What a command leaves in LMEM -/

/-- H′ has the length asked (R167 (a)). -/
theorem hprime_length (τ : Nat) (X : Bytes) : (hprime τ X).length = τ := by
  unfold hprime
  split
  · exact blake2b_length _ _ ‹_›
  · rw [hprimeChain_length _ _ _ (by omega) (blake2b_length 64 _ (by omega))]
    omega

/-- Everything a command can do to LMEM: nothing, ZEROIZE's clearing, one write inside LMEM, or, with a configuration, one
of the fills. -/
inductive LmemChange (s : State) : Memory → Prop
  | same : LmemChange s s.lmem
  | zero : LmemChange s Memory.allZero
  | bytes (a : Nat) (S : Bytes) (h : a + S.length ≤ s.lmemBytes) : LmemChange s (s.lmem.writeBytes a S)
  | seed (H0 : Bytes) (h : s.status.cfgok = true) : LmemChange s (seedAll s.cfg H0 s.lmem)
  | segment (r sl l : Nat) (h : s.status.cfgok = true) (hs : sl < 4) (hl : l < s.cfg.p.toNat) :
      LmemChange s (fillSegment s.cfg r sl l s.lmem)
  | fill (h : s.status.cfgok = true) : LmemChange s (fillAll s.cfg s.lmem)

theorem LmemChange.block {s : State} {d : Nat} (B : Block) (h : d < s.lmemBlocks) :
    LmemChange s (s.lmem.writeBlock d B) :=
  .bytes _ _ (by rw [bytesOf_length, State.lmemBytes]; omega)

theorem State.rangeOk_iff {s : State} {a n : Nat} : s.rangeOk a n = true ↔ a + n ≤ s.lmemBytes := decide_eq_true_iff

theorem State.blockOk_iff {s : State} {b : Nat} : s.blockOk b = true ↔ b < s.lmemBlocks := decide_eq_true_iff

/-- Every command's LMEM is one of those changes, each within the bounds its checks assure (R65). -/
theorem exec_lmemChange {i : Instr} {s t : State} (h : exec i s = .next t) : LmemChange s t.lmem := by
  cases i
  case nop | zeroize => cases h; constructor
  case config | refidx =>
    simp only [exec, execConfig, execRefidx] at h
    repeat' split at h
    all_goals cases h; exact .same
  all_goals
    simp only [exec, execHash, execHprime, execG, execGx, execPerm, execAddrgen, execSeed, execFillseg, execFill,
      execFinal] at h
    repeat' split at h
    all_goals cases h
    any_goals exact .same
  all_goals
    simp only [Bool.not_eq_true', Bool.not_eq_false, Bool.and_eq_true, Bool.or_eq_true, State.rangeOk_iff,
      State.blockOk_iff, decide_eq_true_eq, not_or, not_lt, not_le] at *
  case hash hn hr => exact .bytes _ _ (by rw [blake2b_length _ _ hn.2]; exact hr.2)
  case hprime hn hr => exact .bytes _ _ (by rw [hprime_length]; exact hr.2)
  case g hb | gx hb | perm hb => exact .block _ hb.2
  case addrgen hb | final hb => exact .block _ hb
  case seed hk hr => exact .seed _ hk
  case fillseg hk hr => exact .segment _ _ _ hk (by omega) hr.2
  case fill hk => exact .fill hk

/-- A command that leaves CFGOK = 1 leaves the configuration it found with CFGOK = 1, or is a CONFIG that latched a valid
one (R34, R121). -/
theorem exec_cfg_valid {i : Instr} {s t : State} (h : exec i s = .next t)
    (hv : s.status.cfgok = true → s.cfg.Valid s.lmemBlocks) (hk : t.status.cfgok = true) :
    t.cfg.Valid s.lmemBlocks := by
  by_cases hi : i = .config
  · subst hi
    simp only [exec, execConfig] at h
    repeat' split at h
    all_goals cases h
    · cases hk
    · cases hk
    · next hp hn =>
      have hp : paramsOk (s.operand 0) (s.operand 1) (s.operand 2) = true := by simpa using hp
      exact configured_valid _ _ _ _ hp (Nat.le_of_not_lt hn)
  · obtain ⟨e, b, rfl, -, rfl | ⟨hc, -⟩⟩ | ⟨m, x, c, b, rfl, hc, -⟩ := ends_of_exec h
    · exact hv hk
    · exact absurd hc hi
    · obtain ⟨rfl, rfl⟩ := hc hi
      exact hv hk

/-! The invariant, part by part -/

/-- What the invariant says of LMEM, for `n` bytes and `d` draws taken: the canonical form, the bounds of R35, and that the
draw of the unlisted bytes has been taken. -/
structure Memory.Ok (n d : Nat) (m : Memory) : Prop where
  wf : m.wf = true
  inside : m.inside n = true
  taken : ∀ k, m.background = .draw k → k < d

theorem Memory.Ok.writeBytes {n d a : Nat} {S : Bytes} {m : Memory} (h : m.Ok n d) (ha : S = [] ∨ a + S.length ≤ n) :
    (m.writeBytes a S).Ok n d :=
  ⟨m.writeBytes_wf a S h.wf, m.writeBytes_inside a S n h.inside ha, h.taken⟩

/-- The writes of the fills, which lie below block `k`, keep it. -/
theorem Memory.Ok.keptByWrites {n d k : Nat} (h : k ≤ n) : KeptByWrites (Memory.Ok (1024 * n) d) k :=
  fun _ _ _ hm hb => hm.writeBytes (.inr (by rw [bytesOf_length]; omega))

/-- The draws of a reset, clipped to LMEM, keep it (R342). -/
theorem Memory.Ok.drawRange {n d e : Nat} {m : Memory} (h : m.Ok n d) (x : ByteRange) : (drawRange n e m x).Ok n d := by
  refine h.writeBytes ?_
  rw [List.length_map, List.length_range', List.map_eq_nil_iff, List.range'_eq_nil_iff]
  omega

/-- Every change a command can make to LMEM keeps it: the fills write only blocks of a valid matrix. -/
theorem LmemChange.ok {s : State} {m : Memory} {d : Nat} (h : LmemChange s m) (hm : s.lmem.Ok s.lmemBytes d)
    (hv : s.status.cfgok = true → s.cfg.Valid s.lmemBlocks) : m.Ok s.lmemBytes d := by
  cases h with
  | same => exact hm
  | zero => exact ⟨Memory.allZero_wf, Memory.allZero_inside _, fun k hk => nomatch hk⟩
  | bytes a S ha => exact hm.writeBytes (.inr ha)
  | seed H0 hk => exact seedAll_keeps (hv hk) (Memory.Ok.keptByWrites (hv hk).blocks_fit) hm
  | segment r sl l hk hs hl =>
    exact fillSegment_keeps (hv hk) (Memory.Ok.keptByWrites (hv hk).blocks_fit) hs hl hm
  | fill hk => exact fillAll_keeps (hv hk) (Memory.Ok.keptByWrites (hv hk).blocks_fit) hm

/-- RST leaves LMEM well-formed, and takes one draw (R342). -/
theorem resetLmem_ok {s : State} (h : s.lmem.Ok s.lmemBytes s.draws) :
    (resetLmem s).Ok s.lmemBytes (s.draws + 1) := by
  have hs : s.lmem.Ok s.lmemBytes (s.draws + 1) := ⟨h.wf, h.inside, fun k hk => Nat.lt_succ_of_lt (h.taken k hk)⟩
  unfold resetLmem
  split
  · exact hs
  · split
    · unfold abandonedLmem
      split
      · exact ⟨Memory.allDraw_wf _, Memory.allDraw_inside _ _, fun k hk => by cases hk; exact Nat.lt_succ_self _⟩
      · exact foldl_keeps _ _ _ _ hs fun x _ _ hm => hm.drawRange x
    · exact hs

variable {s t : State}

theorem State.Inv.lmem_ok (h : s.Inv) : s.lmem.Ok s.lmemBytes s.draws := ⟨h.lmem_wf, h.lmem_inside, h.draw_taken⟩

/-- With no command running, the invariant is the legal capacity, the clause on ERRCODE, and those on the configuration and
LMEM. -/
theorem State.Inv.of_idle (hn : t.latch = none)
    (hc : Config.lmemBlocksMin ≤ t.lmemBlocks ∧ t.lmemBlocks ≤ Config.lmemBlocksMax)
    (he : t.status.errcode = .none ↔ t.status.err = false) (hv : t.status.cfgok = true → t.cfg.Valid t.lmemBlocks)
    (hm : t.lmem.Ok t.lmemBytes t.draws) : t.Inv where
  capacity_ge := hc.1
  capacity_le := hc.2
  errcode_iff := he
  busy_done hb := by simp [State.busy, hn] at hb
  busy_err hb := by simp [State.busy, hn] at hb
  latched_word r hr := by simp [hn] at hr
  cfg_valid := hv
  lmem_wf := hm.wf
  lmem_inside := hm.inside
  draw_taken := hm.taken

/-- No clause of the invariant speaks of IRQEN, the ARG registers, the inputs or the words read. -/
theorem State.Inv.with_unconstrained (h : s.Inv) (q : IrqEn) (a : Args) (l : List Input) (ws : List Word) :
    State.Inv { s with irqen := q, args := a, inputs := l, reads := ws } :=
  ⟨h.capacity_ge, h.capacity_le, h.errcode_iff, h.busy_done, h.busy_err, h.latched_word, h.cfg_valid, h.lmem_wf,
    h.lmem_inside, h.draw_taken⟩

/-- A change of STATUS that clears ERRCODE exactly with ERR and sets none of DONE, ERR and CFGOK. -/
theorem State.Inv.with_status (h : s.Inv) {x : Status} (he : x.errcode = .none ↔ x.err = false)
    (hd : s.status.done = false → x.done = false) (hr : s.status.err = false → x.err = false)
    (hk : x.cfgok = true → s.status.cfgok = true) : State.Inv { s with status := x } :=
  { h with
    errcode_iff := he
    busy_done := fun hb => hd (h.busy_done hb)
    busy_err := fun hb => hr (h.busy_err hb)
    cfg_valid := fun hc => h.cfg_valid (hk hc) }

theorem State.Inv.overrun (h : s.Inv) : s.overrun.Inv := h.with_status h.errcode_iff id id id

theorem State.Inv.hostBusError (h : s.Inv) : s.hostBusError.Inv := h.with_status h.errcode_iff id id id

theorem State.Inv.returned (h : s.Inv) (v : Word) : (s.returned v).Inv :=
  h.with_unconstrained s.irqen s.args s.inputs (v :: s.reads)

theorem State.Inv.accept (h : s.Inv) (v : Word) : (s.accept v).Inv :=
  { h with
    errcode_iff := ⟨fun _ => rfl, fun _ => rfl⟩
    busy_done := fun _ => rfl
    busy_err := fun _ => rfl
    latched_word := fun r hr => by cases hr; rfl }

theorem State.Inv.acknowledge (h : s.Inv) (v : Word) : State.Inv { s with status := s.status.acknowledge v } := by
  refine h.with_status ?_ (fun hd => ?_) (fun hr => ?_) id
  · simp only [Status.acknowledge]
    cases v.getLsbD 2
    · simpa using h.errcode_iff
    · simp
  · simp [Status.acknowledge, hd]
  · simp [Status.acknowledge, hr]

theorem State.Inv.withLmem (h : s.Inv) {m : Memory} (hm : m.Ok s.lmemBytes s.draws) : (s.withLmem m).Inv :=
  { h with lmem_wf := hm.wf, lmem_inside := hm.inside, draw_taken := hm.taken }

theorem State.Inv.raiseError (h : s.Inv) {e : ErrCode} (he : e ≠ .none) : (s.raiseError e).Inv :=
  .of_idle rfl ⟨h.capacity_ge, h.capacity_le⟩ (by simp [he]) h.cfg_valid h.lmem_ok

/-! The invariant over the three kinds of step -/

theorem writeCsr_cmd (s : State) (v : Word) : writeCsr s v .cmd = if s.busy then s.overrun else s.accept v := rfl

theorem writeCsr_inv (h : s.Inv) (v : Word) (c : Csr) : (writeCsr s v c).Inv := by
  cases c with
  | cmd =>
    rw [writeCsr_cmd]
    split
    · exact h.overrun
    · exact h.accept v
  | status => exact h.acknowledge v
  | irqen => exact h.with_unconstrained (IrqEn.ofWord v) s.args s.inputs s.reads
  | arg k => exact h.with_unconstrained s.irqen (s.args.put k v) s.inputs s.reads
  | _ => exact h

theorem hostAccess_inv {x : Access} (h : s.Inv) (ht : hostAccess s x = .next t) : t.Inv := by
  obtain ⟨v, rfl⟩ | rfl | rfl | rfl | ⟨c, v, -, rfl⟩ | ⟨o, v, -, ho, ha, rfl⟩ := hostAccess_cases ht
  · exact h.returned v
  · exact h.hostBusError.returned 0
  · exact h.hostBusError
  · exact h
  · exact writeCsr_inv h v c
  · exact h.withLmem (h.lmem_ok.writeBytes (.inr (by rw [le32_length, State.lmemBytes] at *; omega)))

theorem exec_inv {i : Instr} (h : s.Inv) (ht : exec i s = .next t) : t.Inv := by
  have hm := (exec_lmemChange ht).ok h.lmem_ok h.cfg_valid
  have hv := exec_cfg_valid ht h.cfg_valid
  obtain ⟨e, b, rfl, he, -⟩ | ⟨m, x, c, b, rfl, -⟩ := ends_of_exec ht
  · exact .of_idle rfl ⟨h.capacity_ge, h.capacity_le⟩ (by simp [he]) hv hm
  · exact .of_idle rfl ⟨h.capacity_ge, h.capacity_le⟩ h.errcode_iff hv hm

theorem seqStep_inv (h : s.Inv) (ht : seqStep s = .next t) : t.Inv := by
  obtain ⟨-, rfl⟩ | ⟨r, i, -, -, he⟩ | ⟨r, -, -, rfl⟩ := seqStep_cases ht
  · exact h
  · exact exec_inv h he
  · exact h.raiseError (by decide)

theorem rst_inv (h : s.Inv) : (rst s).Inv :=
  .of_idle rfl ⟨h.capacity_ge, h.capacity_le⟩ ⟨fun _ => rfl, fun _ => rfl⟩ (fun hk => nomatch hk)
    (resetLmem_ok h.lmem_ok)

/-- Settles O52: the machine is idle, and all of LMEM is draw 0. -/
theorem resetMeetsTheInvariant : Obligations.ResetMeetsTheInvariant :=
  .of_idle rfl (by decide) ⟨fun _ => rfl, fun _ => rfl⟩ (fun hk => nomatch hk)
    ⟨Memory.allDraw_wf 0, Memory.allDraw_inside 0 _, fun k hk => by cases hk; decide⟩

/-- Settles O53, by the three kinds of step: SEQ, RST and a host access. -/
theorem everyStepKeepsTheInvariant : Obligations.EveryStepKeepsTheInvariant := by
  intro s t h ht
  have hl : ∀ l, State.Inv { s with inputs := l } := fun l => h.with_unconstrained s.irqen s.args l s.reads
  obtain ⟨rest, -, hs⟩ | ⟨rest, -, rfl⟩ | ⟨rest, x, -, hx⟩ := step_cases ht
  · exact seqStep_inv (hl rest) hs
  · exact rst_inv (hl rest)
  · exact hostAccess_inv (hl rest) hx

end Sys2Proof.Machine
end

section
/-! PROOFS. The CSR window over steps: registers read and written, reserved slots, and the STATUS and IRQEN words bit by
bit (R21–R37). -/

namespace Sys2Proof.Machine

variable {s t : State} {rest : List Input} {v : Word}

/-! Accesses to a register or a reserved slot -/

theorem csrAddress_eq (c : Csr) : csrAddress c = BitVec.ofNat 32 c.offset := by
  rw [csrAddress, Config.csrBase, Nat.zero_add]

@[simp] theorem readCsr_with_inputs (s : State) (l : List Input) (c : Csr) :
    readCsr { s with inputs := l } c = readCsr s c := by
  cases c <;> rfl

theorem step_read_csr {c : Csr} (h : s.inputs = .host (.read (csrAddress c)) :: rest) :
    step s = .next { s with inputs := rest, reads := readCsr s c :: s.reads } := by
  rw [step_host h, hostAccess_read_csr, readCsr_with_inputs]
  rfl

theorem step_write_csr {c : Csr} (h : s.inputs = .host (.write (csrAddress c) v) :: rest) :
    step s = .next (writeCsr { s with inputs := rest } v c) := by
  rw [step_host h, hostAccess_write_csr]

/-- A host write to ARGk changes that register only (R21). -/
theorem step_write_arg {k : Fin 6} (h : s.inputs = .host (.write (BitVec.ofNat 32 (0x20 + 4 * k.val)) v) :: rest) :
    step s = .next { s with inputs := rest, args := s.args.put k v } :=
  step_write_csr (c := .arg k) (by rw [csrAddress_eq]; exact h)

theorem step_read_arg {k : Fin 6} (h : s.inputs = .host (.read (BitVec.ofNat 32 (0x20 + 4 * k.val))) :: rest) :
    step s = .next { s with inputs := rest, reads := s.args.get k :: s.reads } :=
  step_read_csr (c := .arg k) (by rw [csrAddress_eq]; exact h)

theorem step_write_status (h : s.inputs = .host (.write 0x0000000C#32 v) :: rest) :
    step s = .next { s with inputs := rest, status := s.status.acknowledge v } :=
  step_write_csr (c := .status) h

theorem csrAt_eq_none {o : Nat} (h : ∀ c : Csr, c.offset ≠ o) : csrAt o = none :=
  Option.eq_none_iff_forall_ne_some.2 fun c hc => h c (offset_of_csrAt hc).symm

/-- The reserved slots of the map of R24 belong to no register. -/
theorem Csr.offset_ne_reserved (c : Csr) {o : Nat}
    (h : o ∈ [0x14, 0x18, 0x1C, 0x38, 0x3C, 0x50, 0x54, 0x58, 0x5C, 0x78] ∨ (0x80 ≤ o ∧ o < 0x100 ∧ o % 4 = 0)) :
    c.offset ≠ o := by
  simp only [List.mem_cons, List.not_mem_nil, or_false] at h
  cases c <;> simp only [Csr.offset] <;> omega

theorem writeCsr_readOnly (s : State) (v : Word) {c : Csr}
    (hc : c ∈ [Csr.id, .version, .res 0, .res 1, .res 2, .res 3, .cfgP, .cfgM, .cfgT, .cfgMp, .cfgQ, .cfgSl, .cap]) :
    writeCsr s v c = s := by
  cases c with
  | cmd | status | irqen | arg k => simp at hc
  | _ => rfl

/-! The STATUS and IRQEN words -/

theorem getLsbD_of_toNat_lt {w k n : Nat} {x : BitVec w} (h : x.toNat < 2 ^ k) (hn : k ≤ n) : x.getLsbD n = false :=
  Nat.testBit_lt_two_pow (h.trans_le (Nat.pow_le_pow_right (by decide) hn))

/-- The bits of the STATUS word from bit 0 up; the bits above them are reserved (R29). -/
def State.statusBits (s : State) : List Bool :=
  [s.busy, s.status.done, s.status.err, false] ++ (List.range 4).map s.status.errcode.code.getLsbD
    ++ [s.status.cfgok, s.status.ovr, s.status.hbe]

/-- The STATUS word bit by bit: no field overlaps another, and the reserved bits read 0 (R29). -/
theorem statusWord_getLsbD (s : State) (n : Nat) : s.statusWord.getLsbD n = s.statusBits.getD n false := by
  by_cases hn : n < 11
  · simp only [State.statusWord, BitVec.getLsbD_append, State.statusBits]
    interval_cases n <;> simp
  · rw [List.getD_eq_default _ _ (by simpa [State.statusBits] using hn)]
    simp only [State.statusWord, BitVec.getLsbD_append]
    simp (disch := omega) only [if_neg, BitVec.getLsbD_zero]

@[simp] theorem acknowledge_done (x : Status) (v : Word) : (x.acknowledge v).done = (x.done && !v.getLsbD 1) := rfl
@[simp] theorem acknowledge_err (x : Status) (v : Word) : (x.acknowledge v).err = (x.err && !v.getLsbD 2) := rfl
@[simp] theorem acknowledge_cfgok (x : Status) (v : Word) : (x.acknowledge v).cfgok = x.cfgok := rfl
@[simp] theorem acknowledge_ovr (x : Status) (v : Word) : (x.acknowledge v).ovr = (x.ovr && !v.getLsbD 9) := rfl
@[simp] theorem acknowledge_hbe (x : Status) (v : Word) : (x.acknowledge v).hbe = (x.hbe && !v.getLsbD 10) := rfl

/-- ERRCODE is cleared with ERR (R29). -/
theorem acknowledge_code (x : Status) (v : Word) :
    (x.acknowledge v).errcode.code = if v.getLsbD 2 then 0 else x.errcode.code :=
  apply_ite ErrCode.code _ _ _

@[simp] theorem acknowledge_code_getElem (x : Status) (v : Word) (j : Nat) (h : j < 4) :
    (x.acknowledge v).errcode.code[j] = (x.errcode.code[j] && !v.getLsbD 2) := by
  rw [← BitVec.getLsbD_eq_getElem h, ← BitVec.getLsbD_eq_getElem h, acknowledge_code]
  cases v.getLsbD 2 <;> simp

theorem irqen_word_done (x : IrqEn) : x.word.getLsbD 0 = x.doneIe := by
  simp only [IrqEn.word, BitVec.getLsbD_append]
  simp

theorem irqen_word_err (x : IrqEn) : x.word.getLsbD 1 = x.errIe := by
  simp only [IrqEn.word, BitVec.getLsbD_append]
  simp

theorem irqen_word_reserved (x : IrqEn) {n : Nat} (h : 2 ≤ n) : x.word.getLsbD n = false := by
  obtain ⟨d, e⟩ := x
  exact getLsbD_of_toNat_lt (k := 2) (by revert d e; decide) h

/-- IRQEN keeps bits 1:0 of what is written (R31). -/
theorem irqen_word_ofWord (v : Word) : (IrqEn.ofWord v).word = v &&& 3#32 := by
  apply BitVec.eq_of_getLsbD_eq
  rintro (_ | _ | n) -
  · rw [irqen_word_done, BitVec.getLsbD_and]
    simp [IrqEn.ofWord]
  · rw [irqen_word_err, BitVec.getLsbD_and]
    simp [IrqEn.ofWord]
  · rw [irqen_word_reserved _ (by omega), BitVec.getLsbD_and,
      getLsbD_of_toNat_lt (x := 3#32) (k := 2) (by decide) (by omega), Bool.and_false]

end Sys2Proof.Machine
end

section
/-! PROOFS. Which step may change which register, and that a command reads the operands latched at acceptance (R22, R23,
R32, R33, R48). -/

namespace Sys2Proof.Machine

variable {s t : State}

/-- No command reads an ARG register: it does the same whatever they hold, and leaves them (R23). -/
theorem exec_with_args (i : Instr) (s : State) (x : Args) :
    exec i { s with args := x } = andThen (exec i s) fun t => .next { t with args := x } := by
  have e1 : ∀ k, State.operand { s with args := x } k = s.operand k := fun _ => rfl
  have e2 : State.lmemBlocks { s with args := x } = s.lmemBlocks := rfl
  have e3 : ∀ a n, State.rangeOk { s with args := x } a n = s.rangeOk a n := fun _ _ => rfl
  have e4 : ∀ b, State.blockOk { s with args := x } b = s.blockOk b := fun _ => rfl
  cases i <;>
    simp only [exec, execNop, execConfig, execZeroize, execHash, execHprime, execG, execGx, execPerm, execRefidx,
      execAddrgen, execSeed, execFillseg, execFill, execFinal, e1, e2, e3, e4]
  all_goals repeat' split
  all_goals rfl

/-- What no command changes (R303). -/
theorem exec_keeps_host {i : Instr} (h : exec i s = .next t) : KeepsHost s t := by
  obtain ⟨e, b, rfl, -⟩ | ⟨m, x, c, b, rfl, -⟩ := ends_of_exec h <;> constructor <;> rfl

/-- What a command may change of CFG, RES and LMEM. -/
theorem exec_frame {i : Instr} (h : exec i s = .next t) :
    (i ≠ .config → t.cfg = s.cfg) ∧ (i ≠ .refidx → i ≠ .zeroize → t.res = s.res) ∧
      (i = .nop ∨ i = .config ∨ i = .refidx → t.lmem = s.lmem) := by
  obtain ⟨e, b, rfl, -⟩ | ⟨m, x, c, b, rfl, hc, hx, hm⟩ := ends_of_exec h
  · exact ⟨fun _ => rfl, fun _ _ => rfl, fun _ => rfl⟩
  · exact ⟨fun hi => (hc hi).1, hx, hm⟩

/-- What no host write to a register changes; the record changes only where a CMD write is accepted. -/
theorem writeCsr_frame (s : State) (v : Word) (c : Csr) :
    (writeCsr s v c).cfg = s.cfg ∧ (writeCsr s v c).res = s.res ∧ (writeCsr s v c).cap = s.cap ∧
      ((writeCsr s v c).latch = s.latch ∨ c = .cmd ∧ s.busy = false) := by
  cases c with
  | cmd =>
    rw [writeCsr_cmd]
    split
    · exact ⟨rfl, rfl, rfl, .inl rfl⟩
    · next hb => exact ⟨rfl, rfl, rfl, .inr ⟨rfl, Bool.eq_false_of_not_eq_true hb⟩⟩
  | _ => exact ⟨rfl, rfl, rfl, .inl rfl⟩

/-- What no host access changes; the record changes only where a CMD write is accepted. -/
theorem hostAccess_frame {x : Access} (h : hostAccess s x = .next t) :
    t.cfg = s.cfg ∧ t.res = s.res ∧ t.cap = s.cap ∧
      (t.latch = s.latch ∨ (∃ v, x = .write (csrAddress .cmd) v) ∧ s.busy = false) := by
  obtain ⟨v, rfl⟩ | rfl | rfl | rfl | ⟨c, v, rfl, rfl⟩ | ⟨o, v, -, -, -, rfl⟩ := hostAccess_cases h
  case inr.inr.inr.inr.inl =>
    obtain ⟨hc, hr, hp, hl⟩ := writeCsr_frame s v c
    exact ⟨hc, hr, hp, hl.imp_right fun ⟨e, hb⟩ => ⟨⟨v, by rw [e]⟩, hb⟩⟩
  all_goals exact ⟨rfl, rfl, rfl, .inl rfl⟩

theorem seqStep_cap (h : seqStep s = .next t) : t.cap = s.cap := by
  obtain ⟨-, rfl⟩ | ⟨r, i, -, -, he⟩ | ⟨r, -, -, rfl⟩ := seqStep_cases h
  · rfl
  · exact (exec_keeps_host he).cap
  · rfl

/-- No step changes CAP (R33). -/
theorem step_cap (h : step s = .next t) : t.cap = s.cap := by
  obtain ⟨rest, -, hs⟩ | ⟨rest, -, rfl⟩ | ⟨rest, x, -, hx⟩ := step_cases h
  · exact (seqStep_cap hs :)
  · rfl
  · obtain ⟨-, -, hp, -⟩ := hostAccess_frame hx
    exact hp

/-- The next agent to move is SEQ. -/
def State.seqNext (s : State) : Prop := s.inputs = [] ∨ ∃ rest, s.inputs = .seq :: rest

/-- The CFG and RES registers change only at RST, or where SEQ completes a command that may change them (R22, R32). -/
theorem step_cfg_res (h : step s = .next t) :
    (t.cfg = s.cfg ∧ t.res = s.res) ∨ (∃ rest, s.inputs = .rst :: rest) ∨
      s.seqNext ∧ ∃ r i, s.latch = some r ∧ decode r.word = some i ∧ (i ≠ .config → t.cfg = s.cfg) ∧
        (i ≠ .refidx → i ≠ .zeroize → t.res = s.res) := by
  obtain ⟨rest, hi, hs⟩ | ⟨rest, hi, -⟩ | ⟨rest, x, -, hx⟩ := step_cases h
  · obtain ⟨-, rfl⟩ | ⟨r, i, hl, hd, he⟩ | ⟨r, -, -, rfl⟩ := seqStep_cases hs
    · exact .inl ⟨rfl, rfl⟩
    · obtain ⟨hc, hr, -⟩ := exec_frame he
      exact .inr (.inr ⟨hi.elim (fun e => .inr ⟨rest, e⟩) (fun e => .inl e.1), r, i, hl, hd, hc, hr⟩)
    · exact .inl ⟨rfl, rfl⟩
  · exact .inr (.inl ⟨rest, hi⟩)
  · obtain ⟨hc, hr, -⟩ := hostAccess_frame hx
    exact .inl ⟨hc, hr⟩

/-- The record, and with it BUSY, goes only where SEQ or RST moves, and comes only with an accepted CMD write (R40, R48). -/
theorem step_latch (h : step s = .next t) :
    (t.busy = false ∧ (s.inputs = [] ∨ ∃ rest, s.inputs = .seq :: rest ∨ s.inputs = .rst :: rest)) ∨
      t.latch = s.latch ∨ s.busy = false ∧ ∃ v rest, s.inputs = .host (.write (csrAddress .cmd) v) :: rest := by
  obtain ⟨rest, hi, hs⟩ | ⟨rest, hi, rfl⟩ | ⟨rest, x, hi, hx⟩ := step_cases h
  · obtain ⟨u, hu, hb, -⟩ := seqStep_completes { s with inputs := rest }
    obtain rfl : u = t := Host.Outcome.next.inj (hu.symm.trans hs)
    exact .inl ⟨hb, hi.elim (fun e => .inr ⟨rest, .inl e⟩) fun e => .inl e.1⟩
  · exact .inl ⟨rfl, .inr ⟨rest, .inr hi⟩⟩
  · obtain ⟨-, -, -, hl | ⟨⟨v, rfl⟩, hb⟩⟩ := hostAccess_frame hx
    · exact .inr (.inl hl)
    · exact .inr (.inr ⟨hb, v, rest, hi⟩)

/-! The statements on the host's registers -/

/-- Settles O14: the record is taken at acceptance, and no command reads the registers. -/
theorem commandsUseTheLatchedOperands : Obligations.CommandsUseTheLatchedOperands := by
  refine ⟨fun _ _ => rfl, fun s k v rest h => ?_, fun i s x _ => ?_⟩
  · exact ⟨_, step_write_arg h, rfl, s.args.get_put k v, fun j hj => s.args.get_put_ne k j v hj⟩
  · obtain ⟨t, ht, -⟩ := exec_ends i s
    exact ⟨t, ht, by rw [exec_with_args, ht]; rfl⟩

/-- Settles O15: STATUS bit by bit, before and after the write. -/
theorem statusWriteClearsItsOnes : Obligations.StatusWriteClearsItsOnes := by
  intro s v rest h
  refine ⟨_, step_write_status h, fun n _ => ?_, rfl⟩
  rw [statusWord_getLsbD, statusWord_getLsbD]
  by_cases hn : n < 11
  · interval_cases n <;> simp [State.statusBits, State.busy]
  · simp [State.statusBits, hn]

/-- Settles O16. The write and the read are one step each. -/
theorem operandRegistersHoldWhatTheHostWrites : Obligations.OperandRegistersHoldWhatTheHostWrites := by
  refine ⟨fun s k v rest h => ?_, fun i s t h => (exec_keeps_host h).args, by decide⟩
  exact ⟨_, (run_succ 1 (step_write_arg h)).trans (run_succ 0 (step_read_arg rfl)),
    congrArg (· :: s.reads) (s.args.get_put k v), s.args.get_put k v, fun j hj => s.args.get_put_ne k j v hj, rfl⟩

/-- Settles O17, by what a write and a read of each register do. -/
theorem readOnlyRegistersIgnoreWrites : Obligations.ReadOnlyRegistersIgnoreWrites := by
  refine ⟨fun s c v rest hc h => ?_, fun s v rest h => ?_, fun s c rest h => step_read_csr h⟩
  · rw [step_write_csr h, writeCsr_readOnly _ _ hc]
  · refine ⟨_, step_write_status h, rfl, rfl, fun hv => ?_⟩
    exact if_neg (by rw [hv]; decide)

/-- Settles O18: no register stands in a reserved slot, and no field in a reserved bit. -/
theorem reservedSlotsAndBitsReadZero : Obligations.ReservedSlotsAndBitsReadZero := by
  refine ⟨fun s o v rest ho => ?_, fun s n hn => ?_, fun s n hn => irqen_word_reserved s.irqen hn,
    fun s n hn => getLsbD_of_toNat_lt (x := Config.versionValue) (k := 24) (by decide) hn⟩
  · have hc : csrAt o = none := csrAt_eq_none fun c => c.offset_ne_reserved ho
    have hb : o < 0x100 ∧ o % 4 = 0 := by
      simp only [List.mem_cons, List.not_mem_nil, or_false] at ho
      omega
    refine ⟨fun h => ?_, fun h => ?_⟩
    · rw [step_host h, hostAccess_read_slot _ o hb.1 hb.2, readSlot, hc]
      rfl
    · rw [step_host h, hostAccess_write_slot _ o v hb.1 hb.2, writeSlot, hc]
  · rw [readCsr, statusWord_getLsbD]
    rcases hn with rfl | hn
    · rfl
    · exact List.getD_eq_default _ _ hn

/-- Settles O19, from the bits of the STATUS and IRQEN words. -/
theorem irqFollowsTheEnables : Obligations.IrqFollowsTheEnables := by
  refine ⟨fun s v rest h => ⟨_, step_write_csr (c := .irqen) h, ?_, rfl, rfl⟩, fun s => ?_, rfl⟩
  · exact irqen_word_ofWord v
  · simp only [readCsr, irqen_word_done, irqen_word_err, statusWord_getLsbD]
    rfl

/-- Settles O25, from the frames of a command and of a step. -/
theorem onlyTheNamedCommandsWriteTheirRegisters : Obligations.OnlyTheNamedCommandsWriteTheirRegisters := by
  refine ⟨fun i s t h => exec_frame h, fun s t h => ⟨fun hne => ?_, step_cap h⟩, fun s => ⟨rfl, rfl⟩⟩
  obtain ⟨hc, -⟩ | hr | ⟨hs, r, i, hl, hd, hc, -⟩ := step_cfg_res h
  · exact absurd hc hne
  · exact .inl hr
  · by_cases hi : i = .config
    · exact .inr ⟨hs, r, hl, hi ▸ hd⟩
    · exact absurd (hc hi) hne

/-- Settles O26: RES is read-only to the host, and moves only as `step_cfg_res` says. -/
theorem resultRegistersChangeOnlyByRefidxAndZeroize : Obligations.ResultRegistersChangeOnlyByRefidxAndZeroize := by
  refine ⟨fun s k v rest => ⟨fun h => ?_, fun h => ?_⟩, by decide, fun s t h hne => ?_⟩
  · exact step_read_csr (c := .res k) (by rw [csrAddress_eq]; exact h)
  · exact step_write_csr (c := .res k) (by rw [csrAddress_eq]; exact h)
  · obtain ⟨-, hr⟩ | hr | ⟨hs, r, i, hl, hd, -, hr⟩ := step_cfg_res h
    · exact absurd hr hne
    · exact .inl hr
    · refine .inr ⟨hs, r, hl, ?_⟩
      by_contra hi
      rw [not_or, hd] at hi
      exact hne (hr (fun e => hi.1 (by rw [e])) fun e => hi.2 (by rw [e]))

/-- Settles O27, from the three ways the latched record can go. -/
theorem busyMovesOnlyAtAcceptanceAndCompletion : Obligations.BusyMovesOnlyAtAcceptanceAndCompletion := by
  intro s t h
  obtain ⟨hb, hi⟩ | hl | ⟨hb, hi⟩ := step_latch h
  · exact ⟨fun _ ht => by simp [hb] at ht, fun _ _ => hi, fun _ ht => by simp [hb] at ht⟩
  · have hb : t.busy = s.busy := congrArg Option.isSome hl
    rw [hb]
    exact ⟨fun hs ht => by simp [hs] at ht, fun hs ht => by simp [hs] at ht, fun _ _ => hl⟩
  · exact ⟨fun _ _ => hi, fun hs => by simp [hb] at hs, fun hs => by simp [hb] at hs⟩

/-- Settles O8: `State.reset` read register by register. -/
theorem resetStateHasTheResetValues : Obligations.ResetStateHasTheResetValues := by
  refine ⟨⟨rfl, rfl, rfl, rfl, rfl, ?_⟩, rfl, fun _ => rfl⟩
  refine ⟨by decide, by decide, rfl, rfl, rfl, rfl, rfl, rfl, rfl, rfl⟩

end Sys2Proof.Machine
end

section
/-! PROOFS. The host port over steps: where a step is refused, what a bad access does, and the LMEM window byte by byte
(R60–R69, R306, R350). -/

namespace Sys2Proof.Machine

variable {s t : State} {rest : List Input}

/-! Where a step is refused -/

/-- An access that reaches the LMEM window while BUSY = 1 is refused (R69). -/
theorem hostAccess_refused {x : Access} (hb : s.busy = true) (hr : s.reachesLmem x = true) :
    ∃ a, hostAccess s x = .refused (.hostLmemAccessWhileBusy a) := by
  cases x with
  | read a | write a v =>
    refine ⟨a, ?_⟩
    simp only [State.reachesLmem] at hr
    split at hr
    · next ht => simp only [hostAccess, ht, hb, if_true]
    all_goals cases hr

/-- Every other access answers a next state. -/
theorem hostAccess_next_of_dutiful {x : Access} (h : (s.busy && s.reachesLmem x) = false) :
    ∃ t, hostAccess s x = .next t := by
  refine hostAccess_next s x fun o ho => ?_
  have hr : s.reachesLmem x = true := by cases x <;> simp only [State.reachesLmem, ho]
  simpa only [hr, Bool.and_true] using h

/-- Settles O7, by the next input: SEQ and RST always answer, a host access by where it reaches. -/
theorem stepsStopOnlyAtDutyBreaks : Obligations.StepsStopOnlyAtDutyBreaks := by
  intro s
  rcases hi : s.inputs with _ | ⟨x | _ | _, rest⟩ <;>
    simp only [State.breaksDuty, hi, Bool.false_eq_true, false_implies, true_implies, true_and]
  case nil =>
    obtain ⟨t, ht, -⟩ := seqStep_completes s
    exact ⟨t, (step_idle hi).trans ht⟩
  case cons.seq =>
    obtain ⟨t, ht, -⟩ := seqStep_completes { s with inputs := rest }
    exact ⟨t, (step_seq hi).trans ht⟩
  case cons.rst => exact ⟨_, step_rst hi⟩
  case cons.host =>
    rw [step_host hi]
    refine ⟨fun h => ?_, fun h => hostAccess_next_of_dutiful h⟩
    rw [Bool.and_eq_true] at h
    exact hostAccess_refused h.1 h.2

/-! The bits OVR and HBE -/

/-- OVR and HBE, where set in `x`, are set in `y` (R29, R305, R306). -/
def Status.KeepsErrors (x y : Status) : Prop := (x.ovr = true → y.ovr = true) ∧ (x.hbe = true → y.hbe = true)

theorem Status.KeepsErrors.refl (x : Status) : x.KeepsErrors x := ⟨id, id⟩

theorem exec_keepsErrors {i : Instr} (h : exec i s = .next t) : s.status.KeepsErrors t.status := by
  obtain ⟨e, b, rfl, -⟩ | ⟨m, x, c, b, rfl, -⟩ := ends_of_exec h <;> exact ⟨id, id⟩

theorem seqStep_keepsErrors (h : seqStep s = .next t) : s.status.KeepsErrors t.status := by
  obtain ⟨-, rfl⟩ | ⟨r, i, -, -, he⟩ | ⟨r, -, -, rfl⟩ := seqStep_cases h
  · exact .refl _
  · exact exec_keepsErrors he
  · exact ⟨id, id⟩

theorem writeCsr_keepsErrors (s : State) (v : Word) {c : Csr} (hc : c ≠ .status) :
    s.status.KeepsErrors (writeCsr s v c).status := by
  cases c with
  | status => exact absurd rfl hc
  | cmd =>
    rw [writeCsr_cmd]
    split
    · exact ⟨fun _ => rfl, id⟩
    · exact ⟨id, id⟩
  | _ => exact .refl _

/-- A host access keeps OVR and HBE, but for a write to STATUS. -/
theorem hostAccess_keepsErrors {x : Access} (h : hostAccess s x = .next t) :
    s.status.KeepsErrors t.status ∨
      ∃ v, x = .write (csrAddress .status) v ∧ t.status = s.status.acknowledge v := by
  obtain ⟨v, rfl⟩ | rfl | rfl | rfl | ⟨c, v, rfl, rfl⟩ | ⟨o, v, -, -, -, rfl⟩ := hostAccess_cases h
  case inr.inr.inr.inr.inl =>
    by_cases hc : c = .status
    · subst hc
      exact .inr ⟨v, rfl, rfl⟩
    · exact .inl (writeCsr_keepsErrors s v hc)
  case inr.inl | inr.inr.inl => exact .inl ⟨id, fun _ => rfl⟩
  all_goals exact .inl (.refl _)

/-- OVR and HBE fall only at RST or at a host write to STATUS, which clears the ones written (R304, R305, R306). -/
theorem step_keepsErrors (h : step s = .next t) :
    s.status.KeepsErrors t.status ∨ ∃ rest, s.inputs = .rst :: rest ∨
      ∃ v, s.inputs = .host (.write (csrAddress .status) v) :: rest ∧ t.status = s.status.acknowledge v := by
  obtain ⟨rest, -, hs⟩ | ⟨rest, hi, -⟩ | ⟨rest, x, hi, hx⟩ := step_cases h
  · exact .inl (seqStep_keepsErrors (s := { s with inputs := rest }) hs)
  · exact .inr ⟨rest, .inl hi⟩
  · obtain hk | ⟨v, rfl, hv⟩ := hostAccess_keepsErrors (s := { s with inputs := rest }) hx
    · exact .inl hk
    · exact .inr ⟨rest, .inr ⟨v, hi, hv⟩⟩

/-- Settles O13: a bad address has no target, and HBE falls only as `step_keepsErrors` says. -/
theorem badHostAccessOnlySetsHbe : Obligations.BadHostAccessOnlySetsHbe := by
  refine ⟨fun s a v rest ha => ?_, fun s t h hs ht => ?_⟩
  · obtain ⟨hr, hw⟩ := hostAccess_bad { s with inputs := rest } a v (hostTarget_bad ha)
    exact ⟨fun hi => (step_host hi).trans hw, fun hi => (step_host hi).trans hr, rfl⟩
  · obtain ⟨-, hk⟩ | ⟨rest, hi | ⟨v, hi, hv⟩⟩ := step_keepsErrors h
    · exact absurd (hk hs) (by simp [ht])
    · exact ⟨rest, .inl hi⟩
    · refine ⟨rest, .inr ⟨v, hi, ?_⟩⟩
      rw [hv, acknowledge_hbe, hs] at ht
      simpa using ht

/-! Reads of mapped addresses -/

@[simp] theorem readSlot_with_inputs_reads (s : State) (l : List Input) (ws : List Word) (o : Nat) :
    readSlot { s with inputs := l, reads := ws } o = readSlot s o := by
  unfold readSlot
  cases csrAt o with
  | none => rfl
  | some c => cases c <;> rfl

/-- The word a host read of a mapped address returns; an unmapped or misaligned one reads 0 (R62, R63). -/
def hostWord (s : State) (a : Word) : Word :=
  match hostTarget s.lmemBytes a with
  | .csr o => readSlot s o
  | .lmem o => readWindow s o
  | .misaligned | .unmapped => 0

theorem hostWord_with_inputs_reads (s : State) (l : List Input) (ws : List Word) (a : Word) :
    hostWord { s with inputs := l, reads := ws } a = hostWord s a := by
  simp only [hostWord, readSlot_with_inputs_reads]
  rfl

/-- A read of an aligned mapped address while no command runs returns its word and changes nothing (R62, R68). -/
theorem step_read_mapped {a : Word} (hb : s.busy = false) (ha : a.toNat % 4 = 0)
    (hm : a.toNat < 0x100 ∨ (0x80000000 ≤ a.toNat ∧ a.toNat < 0x80000000 + s.lmemBytes))
    (h : s.inputs = .host (.read a) :: rest) :
    step s = .next { s with inputs := rest, reads := hostWord s a :: s.reads } := by
  rw [step_host h]
  have hlen : State.lmemBytes { s with inputs := rest } = s.lmemBytes := rfl
  rcases hostTarget_cases s.lmemBytes a with ⟨o, e, -⟩ | ⟨o, e, -⟩ | ⟨-, e⟩ | ⟨-, -, e⟩
  · simp only [hostAccess, hostWord, hlen, e]
    rw [readSlot_with_inputs_reads]
    rfl
  · rw [(hostAccess_lmem { s with inputs := rest } a 0 o e hb).1, hostWord, e]
    rfl
  · exact absurd ha e
  · omega

/-- Settles O22: the second read finds what the first found. -/
theorem readsAreIdempotent : Obligations.ReadsAreIdempotent := by
  intro s a rest hb ha hm h
  have h₁ := step_read_mapped hb ha hm h
  have h₂ := step_read_mapped (s := { s with inputs := .host (.read a) :: rest, reads := hostWord s a :: s.reads })
    hb ha hm rfl
  rw [hostWord_with_inputs_reads] at h₂
  exact ⟨hostWord s a, (run_succ 1 h₁).trans (run_succ 0 h₂)⟩

/-! The LMEM window byte by byte -/

/-- Bit i of the number of the bytes of a range is bit i mod 8 of its byte i / 8 (R10, R62). -/
theorem leNat_readBytes_testBit (m : Memory) (a k i : Nat) (hi : i < 8 * k) :
    (leNat (m.readBytes a k)).testBit i = (m.readByte (a + i / 8)).getLsbD (i % 8) := by
  have hlt : i / 8 < (m.readBytes a k).length := by rw [Memory.readBytes_length]; omega
  rw [leNat_testBit, List.getElem?_eq_getElem hlt, Memory.readBytes_getElem]

theorem readWindow_getLsbD (s : State) (o i : Nat) (hi : i < 32) :
    (readWindow s o).getLsbD i = (s.lmem.readByte (o + i / 8)).getLsbD (i % 8) := by
  rw [readWindow, BitVec.getLsbD_ofNat, leNat_readBytes_testBit _ _ _ _ hi]
  simp [hi]

/-- Byte j of the word read is LMEM byte o + j (R62). -/
theorem readWindow_byte (s : State) (o j : Nat) (hj : j < 4) :
    (readWindow s o).extractLsb' (8 * j) 8 = s.lmem.readByte (o + j) := by
  apply BitVec.eq_of_getLsbD_eq
  intro i hi
  rw [BitVec.getLsbD_extractLsb', readWindow_getLsbD _ _ _ (by omega), Nat.mul_add_div (by decide),
    Nat.div_eq_of_lt hi, Nat.mul_add_mod, Nat.mod_eq_of_lt hi]
  simp [hi]

theorem le32_getElem (v : Word) (j : Nat) (hj : j < (le32 v).length) : (le32 v)[j] = v.extractLsb' (8 * j) 8 := by
  rw [le32_length] at hj
  interval_cases j <;> rfl

theorem Memory.readBytes_drop_take (m : Memory) {a k j n : Nat} (h : j + n ≤ k) :
    ((m.readBytes a k).drop j).take n = m.readBytes (a + j) n := by
  apply List.ext_getElem
  · simp only [List.length_take, List.length_drop, Memory.readBytes_length]
    omega
  · intro i _ _
    rw [List.getElem_take, List.getElem_drop, Memory.readBytes_getElem, Memory.readBytes_getElem, Nat.add_assoc]

/-- Word k of a block is the number of its eight bytes (R10). -/
theorem Memory.readBlock_getElem (m : Memory) (b k : Nat) (hk : k < 128) :
    (m.readBlock b)[k] = BitVec.ofNat 64 (leNat (m.readBytes (1024 * b + 8 * k) 8)) := by
  simp only [Memory.readBlock, blockOf, leWords, Vector.getElem_ofFn]
  rw [Memory.readBytes_drop_take _ (by omega)]

theorem Memory.readBlock_getLsbD (m : Memory) (b k i : Nat) (hk : k < 128) (hi : i < 64) :
    (m.readBlock b)[k].getLsbD i = (m.readByte (1024 * b + 8 * k + i / 8)).getLsbD (i % 8) := by
  rw [Memory.readBlock_getElem _ _ _ hk, BitVec.getLsbD_ofNat, leNat_readBytes_testBit _ _ _ _ hi]
  simp [hi]

/-- Word k of a block through the window: its low half at its offset, its high half four bytes above (R10, R62). -/
theorem readWindow_block (s : State) (b k : Nat) (hk : k < 128) :
    readWindow s (1024 * b + 8 * k) = lo32 ((s.lmem.readBlock b)[k]) ∧
      readWindow s (1024 * b + 8 * k + 4) = hi32 ((s.lmem.readBlock b)[k]) := by
  constructor <;> apply BitVec.eq_of_getLsbD_eq <;> intro i hi
  · rw [readWindow_getLsbD _ _ _ hi, lo32, BitVec.getLsbD_extractLsb', Memory.readBlock_getLsbD _ _ _ _ hk (by omega)]
    simp [hi]
  · have e : (32 + i) / 8 = 4 + i / 8 ∧ (32 + i) % 8 = i % 8 := by omega
    rw [readWindow_getLsbD _ _ _ hi, hi32, BitVec.getLsbD_extractLsb', Memory.readBlock_getLsbD _ _ _ _ hk (by omega),
      e.1, e.2]
    simp [hi, Nat.add_assoc]

theorem State.Inv.lmemBytes_le (h : s.Inv) : s.lmemBytes ≤ 2 ^ 31 := by
  have := h.capacity_le
  simp only [State.lmemBytes, Config.lmemBlocksMax] at *
  omega

/-- A host write to the LMEM window stores the bytes of its word, least significant first, and no other (R62). -/
theorem writeWindow_bytes (s : State) (o : Nat) (v : Word) :
    (∀ j, j < 4 → (writeWindow s o v).lmem.readByte (o + j) = v.extractLsb' (8 * j) 8) ∧
      SameOutside s (writeWindow s o v) o 4 := by
  refine ⟨fun j hj => ?_, fun x hx => Memory.readByte_writeBytes_out s.lmem o (le32 v) x hx⟩
  exact (Memory.readByte_writeBytes_in s.lmem o (le32 v) j hj).trans (le32_getElem v j hj)

/-- Settles O21, byte by byte and, for the blocks, bit by bit. -/
theorem lmemWindowIsLittleEndian : Obligations.LmemWindowIsLittleEndian := by
  refine ⟨fun s o v rest hs hb ho hlen => ?_, readWindow_block⟩
  have htarget := hostTarget_lmem s.lmemBytes o (by omega) hs.lmemBytes_le ho
  obtain ⟨hr, hw⟩ := hostAccess_lmem { s with inputs := rest } _ v o htarget hb
  refine ⟨fun h => ⟨_, (step_host h).trans hr, fun j hj => (readWindow_byte s o j hj).symm⟩, fun h => ?_⟩
  obtain ⟨hin, hout⟩ := writeWindow_bytes { s with inputs := rest } o v
  exact ⟨_, (step_host h).trans hw, hin, hout, rfl⟩

end Sys2Proof.Machine
end

section
/-! PROOFS. FILL depends on the seed blocks alone (R79, R278): two fills of one configuration are run side by side, and the
columns on which they agree grow with every position filled. -/

namespace Sys2Proof.Machine

/-! The block a position is given -/

/-- The new block of position (r, s, l, i) over the matrix in `m` (R272). -/
def fillValue (c : Cfg) (r s l i : Nat) (m : Memory) : Block :=
  let col := s * c.sl.toNat + i
  let prev := m.readBlock (matrixBlock c l (prevColumn c col))
  let J := positionWord c r s l i prev
  let ref := refIndex c r s l i (lo32 J).toNat (hi32 J).toNat
  let N := compress prev (m.readBlock (matrixBlock c ref.lane ref.column))
  if 0 < r then xorBlock N (m.readBlock (matrixBlock c l col)) else N

theorem fillPosition_eq_writeBlock (c : Cfg) (r s l i : Nat) (m : Memory) :
    fillPosition c r s l i m = m.writeBlock (matrixBlock c l (s * c.sl.toNat + i)) (fillValue c r s l i m) := rfl

/-- The block depends on the previous block, the reference block and, after pass 0, the old block (R272). -/
theorem fillValue_congr {c : Cfg} {r s l i : Nat} {m m' : Memory}
    (hprev : m'.readBlock (matrixBlock c l (prevColumn c (s * c.sl.toNat + i)))
      = m.readBlock (matrixBlock c l (prevColumn c (s * c.sl.toNat + i))))
    (href : ∀ J₁ J₂, m'.readBlock (matrixBlock c (refIndex c r s l i J₁ J₂).lane (refIndex c r s l i J₁ J₂).column)
      = m.readBlock (matrixBlock c (refIndex c r s l i J₁ J₂).lane (refIndex c r s l i J₁ J₂).column))
    (hold : 0 < r → m'.readBlock (matrixBlock c l (s * c.sl.toNat + i))
      = m.readBlock (matrixBlock c l (s * c.sl.toNat + i))) :
    fillValue c r s l i m' = fillValue c r s l i m := by
  unfold fillValue
  simp only [hprev, href]
  split
  · rw [hold ‹_›]
  · rfl

variable {c : Cfg} {n r s l i : Nat} {F : Nat → Nat} {m m' : Memory}

/-! The reference place -/

theorem refIndex_lane_lt (hv : c.Valid n) (hl : l < c.p.toNat) (J₁ J₂ : Nat) :
    (refIndex c r s l i J₁ J₂).lane < c.p.toNat := by
  simp only [refIndex, refLane]
  split
  · exact hl
  · exact Nat.mod_lt _ hv.lanes_pos

theorem refIndex_column_lt (hv : c.Valid n) (J₁ J₂ : Nat) : (refIndex c r s l i J₁ J₂).column < c.q.toNat :=
  Nat.mod_lt _ (Nat.lt_of_lt_of_le (by decide) hv.columns_ge)

theorem refRelative_lt {W : Nat} (hW : 0 < W) (J₁ : Nat) : refRelative W J₁ < W := by
  simp only [refRelative]
  omega

/-- In pass 0 the reference area of a position is not empty, and ends before the position in its own lane and before the
slice in another (R228). -/
theorem refArea_first_pass (hv : c.Valid n) (hi : fillStart 0 s ≤ i) (same : Bool) (hs : s = 0 → same = true) :
    0 < refArea c 0 s i same ∧ refArea c 0 s i same ≤ s * c.sl.toNat + if same then i else 0 := by
  have hsl := hv.segment_ge
  rcases Nat.eq_zero_or_pos s with rfl | hpos
  · have h2 : 2 ≤ i := hi
    simp only [refArea, hs rfl, if_true]
    omega
  · have hle : c.sl.toNat ≤ s * c.sl.toNat := Nat.le_mul_of_pos_left _ hpos
    simp only [refArea, if_true, if_neg hpos.ne']
    cases same
    · simp only [Bool.false_eq_true, if_false]
      split <;> omega
    · simp only [if_true]
      omega

/-- In pass 0 a position refers to a column before it in its own lane, or before its slice in another (R228–R232). -/
theorem refIndex_column_first_pass (hv : c.Valid n) (hi : fillStart 0 s ≤ i) (J₁ J₂ : Nat) :
    (refIndex c 0 s l i J₁ J₂).column < s * c.sl.toNat + if (refIndex c 0 s l i J₁ J₂).lane = l then i else 0 := by
  have hsame : s = 0 → decide (refLane c 0 s l J₂ = l) = true := fun h => by simp [refLane, h]
  obtain ⟨hpos, hle⟩ := refArea_first_pass hv hi _ hsame
  have hz := refRelative_lt hpos J₁
  have hst : refStart c 0 s = 0 := if_pos (.inl rfl)
  refine (Nat.mod_le _ _).trans_lt ?_
  simp only [hst, Nat.zero_add]
  exact hz.trans_le (hle.trans_eq (congrArg _ (if_congr decide_eq_true_iff rfl rfl)))

/-! Two matrices that agree on the first columns of each lane -/

/-- The two memories hold the same blocks in the first `F l` columns of each lane l of the matrix. -/
def SameColumns (c : Cfg) (F : Nat → Nat) (m m' : Memory) : Prop :=
  ∀ l col, l < c.p.toNat → col < c.q.toNat → col < F l →
    m'.readBlock (matrixBlock c l col) = m.readBlock (matrixBlock c l col)

theorem SameColumns.mono {G : Nat → Nat} (h : SameColumns c F m m') (hG : ∀ l, l < c.p.toNat → G l ≤ F l) :
    SameColumns c G m m' :=
  fun l col hl hc hcol => h l col hl hc (hcol.trans_le (hG l hl))

/-- The same block written to both at one place: the columns they agree on may grow by that place. -/
theorem SameColumns.writeBlock {G : Nat → Nat} {col : Nat} (h : SameColumns c F m m') (hcol : col < c.q.toNat)
    (hG : ∀ l' k, k < G l' → k < F l' ∨ l' = l ∧ k = col) (B : Block) :
    SameColumns c G (m.writeBlock (matrixBlock c l col) B) (m'.writeBlock (matrixBlock c l col) B) := by
  intro l' k hl' hk hkG
  by_cases he : l' = l ∧ k = col
  · obtain ⟨rfl, rfl⟩ := he
    rw [Memory.readBlock_writeBlock, Memory.readBlock_writeBlock]
  · have hne : matrixBlock c l' k ≠ matrixBlock c l col := fun e => he (matrixBlock_inj hk hcol e)
    rw [Memory.readBlock_writeBlock_ne _ _ _ _ hne, Memory.readBlock_writeBlock_ne _ _ _ _ hne]
    exact h l' k hl' hk ((hG l' k hkG).resolve_right he)

/-- A position filled in both from blocks they agree on: its previous block, whatever block it may refer to and, after
pass 0, its old block. -/
theorem fillPosition_sameColumns {G : Nat → Nat} (h : SameColumns c F m m') (hv : c.Valid n) (hl : l < c.p.toNat)
    (hcol : s * c.sl.toNat + i < c.q.toNat) (hprev : prevColumn c (s * c.sl.toNat + i) < F l)
    (href : ∀ J₁ J₂, (refIndex c r s l i J₁ J₂).column < F (refIndex c r s l i J₁ J₂).lane)
    (hold : 0 < r → s * c.sl.toNat + i < F l)
    (hG : ∀ l' k, k < G l' → k < F l' ∨ l' = l ∧ k = s * c.sl.toNat + i) :
    SameColumns c G (fillPosition c r s l i m) (fillPosition c r s l i m') := by
  have hval : fillValue c r s l i m' = fillValue c r s l i m :=
    fillValue_congr (h _ _ hl (prevColumn_lt hcol) hprev)
      (fun J₁ J₂ => h _ _ (refIndex_lane_lt hv hl J₁ J₂) (refIndex_column_lt hv J₁ J₂) (href J₁ J₂))
      (fun hr => h _ _ hl hcol (hold hr))
  rw [fillPosition_eq_writeBlock, fillPosition_eq_writeBlock, hval]
  exact h.writeBlock hcol hG _

/-- A fold over a range run on two memories side by side, with what relates them before each step. -/
theorem foldl_range'_related (R : Nat → Memory → Memory → Prop) (f : Memory → Nat → Memory) (a k : Nat)
    (h : R a m m') (hf : ∀ i, a ≤ i → i < a + k → ∀ m m', R i m m' → R (i + 1) (f m i) (f m' i)) :
    R (a + k) ((List.range' a k).foldl f m) ((List.range' a k).foldl f m') := by
  induction k with
  | zero => exact h
  | succ k ih =>
    rw [List.range'_1_concat, List.foldl_concat, List.foldl_concat]
    exact hf (a + k) (Nat.le_add_right a k) (Nat.lt_succ_self _) _ _ (ih fun i h₁ h₂ => hf i h₁ (by omega))

theorem foldl_range_related (R : Nat → Memory → Memory → Prop) (f : Memory → Nat → Memory) (k : Nat)
    (h : R 0 m m') (hf : ∀ i, i < k → ∀ m m', R i m m' → R (i + 1) (f m i) (f m' i)) :
    R k ((List.range k).foldl f m) ((List.range k).foldl f m') := by
  have hk := foldl_range'_related R f 0 k h fun i _ hi => hf i (by omega)
  rwa [← List.range_eq_range', Nat.zero_add] at hk

/-! Pass 0: the columns known grow from the two seed columns to all -/

/-- The columns before slice s of pass 0, the seed columns among them. -/
def columnsBefore (c : Cfg) (s : Nat) : Nat := s * c.sl.toNat + fillStart 0 s

theorem fillStart_le (hv : c.Valid n) (r s : Nat) : fillStart r s ≤ c.sl.toNat := by
  have := hv.segment_ge
  simp only [fillStart]
  split <;> omega

theorem columnsBefore_succ (c : Cfg) (s : Nat) : columnsBefore c (s + 1) = s * c.sl.toNat + c.sl.toNat :=
  Nat.succ_mul s _

theorem columnsBefore_pos (hv : c.Valid n) (s : Nat) : 0 < columnsBefore c s := by
  cases s with
  | zero => exact Nat.add_pos_right _ (by decide)
  | succ s =>
    have := hv.segment_ge
    rw [columnsBefore_succ]
    omega

theorem prevColumn_lt_self {col : Nat} (h : 0 < col) : prevColumn c col < col := by
  rw [prevColumn, if_neg h.ne']
  exact Nat.sub_lt h Nat.one_pos

/-- A position of pass 0 whose lane is filled up to it, and the other lanes up to its slice. -/
theorem fillPosition_first_pass_sameColumns (hv : c.Valid n) (hs : s < 4) (hl : l < c.p.toNat)
    (hi : fillStart 0 s ≤ i) (hi' : i < c.sl.toNat) (hF : ∀ l', s * c.sl.toNat ≤ F l')
    (h : SameColumns c (Function.update F l (s * c.sl.toNat + i)) m m') :
    SameColumns c (Function.update F l (s * c.sl.toNat + (i + 1))) (fillPosition c 0 s l i m)
      (fillPosition c 0 s l i m') := by
  refine fillPosition_sameColumns h hv hl (hv.column_lt hs hi') ?_ (fun J₁ J₂ => ?_) (fun hr => absurd hr (lt_irrefl 0))
    fun l' k hk => ?_
  · rw [Function.update_self]
    exact prevColumn_lt_self ((columnsBefore_pos hv s).trans_le (Nat.add_le_add_left hi _))
  · have hcol := refIndex_column_first_pass (l := l) hv hi J₁ J₂
    generalize refIndex c 0 s l i J₁ J₂ = ref at hcol ⊢
    have := hF ref.lane
    by_cases hlane : ref.lane = l
    · simpa [hlane] using hcol
    · simp only [if_neg hlane, Function.update_of_ne hlane] at hcol ⊢
      omega
  · by_cases hlane : l' = l
    · subst hlane
      rw [Function.update_self] at hk ⊢
      exact (Nat.lt_succ_iff_lt_or_eq.1 hk).imp_right fun e => ⟨rfl, e⟩
    · simp only [Function.update_of_ne hlane] at hk ⊢
      exact .inl hk

/-- A segment of pass 0 in one lane. -/
theorem fillSegment_first_pass_sameColumns (hv : c.Valid n) (hs : s < 4) (hl : l < c.p.toNat)
    (hF : ∀ l', s * c.sl.toNat ≤ F l') (hFl : F l = columnsBefore c s) (h : SameColumns c F m m') :
    SameColumns c (Function.update F l (columnsBefore c (s + 1))) (fillSegment c 0 s l m) (fillSegment c 0 s l m') := by
  have hle := fillStart_le hv 0 s
  have hfold := foldl_range'_related (m := m) (m' := m')
    (fun i => SameColumns c (Function.update F l (s * c.sl.toNat + i))) (fun m i => fillPosition c 0 s l i m)
    (fillStart 0 s) (c.sl.toNat - fillStart 0 s) (by rwa [← columnsBefore, ← hFl, Function.update_eq_self])
    fun i hi hi' m m' hm => fillPosition_first_pass_sameColumns hv hs hl hi (by omega) hF hm
  rwa [Nat.add_sub_cancel' hle, ← columnsBefore_succ] at hfold

/-- The columns known in a slice of pass 0 with the lanes below `k` filled. -/
def columnsInSlice (c : Cfg) (s k l : Nat) : Nat := columnsBefore c (if l < k then s + 1 else s)

theorem columnsInSlice_succ (c : Cfg) (s k : Nat) :
    columnsInSlice c s (k + 1) = Function.update (columnsInSlice c s k) k (columnsBefore c (s + 1)) := by
  funext l
  by_cases hl : l = k
  · simp [columnsInSlice, hl]
  · simp [columnsInSlice, hl, le_iff_lt_or_eq]

theorem le_columnsInSlice (c : Cfg) (s k l : Nat) : s * c.sl.toNat ≤ columnsInSlice c s k l := by
  simp only [columnsInSlice]
  split
  · rw [columnsBefore_succ]
    exact Nat.le_add_right _ _
  · exact Nat.le_add_right _ _

theorem fillSlice_first_pass_sameColumns (hv : c.Valid n) (hs : s < 4)
    (h : SameColumns c (fun _ => columnsBefore c s) m m') :
    SameColumns c (fun _ => columnsBefore c (s + 1)) (fillSlice c 0 s (List.range c.p.toNat) m)
      (fillSlice c 0 s (List.range c.p.toNat) m') := by
  have hfold := foldl_range_related (m := m) (m' := m') (fun k => SameColumns c (columnsInSlice c s k))
    (fun m l => fillSegment c 0 s l m) c.p.toNat (h.mono fun l _ => by simp [columnsInSlice])
    fun k hk m m' hm => ?_
  · exact hfold.mono fun l hl => by simp [columnsInSlice, hl]
  · rw [columnsInSlice_succ]
    exact fillSegment_first_pass_sameColumns hv hs hk (le_columnsInSlice c s k) (by simp [columnsInSlice]) hm

theorem fillPass_first_sameColumns (hv : c.Valid n) (h : SameColumns c (fun _ => 2) m m') :
    SameColumns c (fun _ => c.q.toNat) (fillPass c 0 m) (fillPass c 0 m') := by
  have hfold := foldl_range_related (m := m) (m' := m') (fun s => SameColumns c fun _ => columnsBefore c s)
    (fun m s => fillSlice c 0 s (List.range c.p.toNat) m) 4 (h.mono fun _ _ => by simp [columnsBefore, fillStart])
    fun s hs m m' hm => fillSlice_first_pass_sameColumns hv hs hm
  exact hfold.mono fun l _ => hv.columns.le

/-! Later passes: every column stays known -/

/-- Filling keeps the whole matrix known, whatever the pass. -/
theorem fillPass_sameColumns (hv : c.Valid n) (h : SameColumns c (fun _ => c.q.toNat) m m') :
    SameColumns c (fun _ => c.q.toNat) (fillPass c r m) (fillPass c r m') := by
  refine foldl_range_related (fun _ => SameColumns c fun _ => c.q.toNat) _ 4 h fun s hs _ _ h => ?_
  refine foldl_range_related (fun _ => SameColumns c fun _ => c.q.toNat) _ _ h fun l hl _ _ h => ?_
  refine foldl_range'_related (fun _ => SameColumns c fun _ => c.q.toNat) _ _ _ h fun i _ hi _ _ h => ?_
  have hle := fillStart_le hv r s
  have hcol := hv.column_lt hs (i := i) (by omega)
  exact fillPosition_sameColumns h hv hl hcol (prevColumn_lt hcol) (fun J₁ J₂ => refIndex_column_lt hv J₁ J₂)
    (fun _ => hcol) fun _ _ hk => .inl hk

/-- All passes, the first from the two seed columns of every lane. -/
theorem fillAll_sameColumns (hv : c.Valid n) (h : SameColumns c (fun _ => 2) m m') :
    SameColumns c (fun _ => c.q.toNat) (fillAll c m) (fillAll c m') := by
  have hfold := foldl_range_related (m := m) (m' := m')
    (fun r => SameColumns c fun _ => if r = 0 then 2 else c.q.toNat) (fun m r => fillPass c r m) c.t.toNat h
    fun r _ m m' hm => ?_
  · exact hfold.mono fun l _ => (if_neg (Nat.one_le_iff_ne_zero.1 hv.passes_pos)).ge
  · rcases r with _ | r
    · exact fillPass_first_sameColumns hv hm
    · exact fillPass_sameColumns hv hm

theorem exec_fill_lmem {s t : State} (hk : s.status.cfgok = true) (h : exec .fill s = .next t) :
    t.lmem = fillAll s.cfg s.lmem := by
  simp only [exec, execFill, hk] at h
  cases h
  rfl

/-- Settles O49: the fills agree on the two seed columns of every lane, so on the whole matrix. -/
theorem fillDependsOnlyOnTheSeeds : Obligations.FillDependsOnlyOnTheSeeds := by
  intro s s' t t' hs _ hk hk' hcfg hseed ht ht' b hb
  have hv := hs.cfg_valid hk
  obtain ⟨l, col, hl, hcol, rfl⟩ := hv.exists_place hb
  rw [exec_fill_lmem hk ht, exec_fill_lmem hk' ht', hcfg]
  exact fillAll_sameColumns hv (fun l col hl _ hc => hseed l col hl hc) l col hl hcol hcol

end Sys2Proof.Machine
end

section
/-! PROOFS. The decoder and the encoder of command words (R90–R97). -/

namespace Sys2Proof.Machine

/-! The opcode map (R92) -/

theorem opcodeTable_opcodeOf (i : Instr) : opcodeTable (opcodeOf i) = some i := by cases i <;> rfl

/-- No byte maps to a command but its opcode. -/
theorem opcodeOf_of_opcodeTable {o : BitVec 8} {i : Instr} (h : opcodeTable o = some i) : opcodeOf i = o := by
  unfold opcodeTable at h
  split at h <;> cases h
  all_goals exact BitVec.eq_of_toNat_eq (Eq.symm ‹_›)

theorem opcodeTable_eq_some_iff (o : BitVec 8) (i : Instr) : opcodeTable o = some i ↔ opcodeOf i = o :=
  ⟨opcodeOf_of_opcodeTable, fun h => h ▸ opcodeTable_opcodeOf i⟩

/-- The bytes without a command are those R94 lists. -/
theorem opcodeTable_eq_none_iff (o : BitVec 8) : opcodeTable o = none ↔ reservedOpcode o = true := by
  have ho := o.isLt
  simp only [reservedOpcode, Bool.or_eq_true, Bool.and_eq_true, decide_eq_true_eq, BitVec.le_def, BitVec.reduceToNat]
  unfold opcodeTable
  split <;> simp only [reduceCtorEq, false_iff, true_iff]
  case h_15 => simp only [imp_false] at *; omega
  all_goals omega

/-! The fields of a command word (R91) -/

theorem rsvField_append_opcField (w : Word) : rsvField w ++ opcField w = w := by
  rw [rsvField, opcField, BitVec.extractLsb'_append_extractLsb'_eq_extractLsb' (by decide)]
  exact BitVec.extractLsb'_eq_self

@[simp] theorem rsvField_encode (i : Instr) : rsvField (encode i) = 0#24 := BitVec.extractLsb'_append_eq_left
@[simp] theorem opcField_encode (i : Instr) : opcField (encode i) = opcodeOf i := BitVec.extractLsb'_append_eq_right

theorem decode_of_rsvField {w : Word} (h : rsvField w = 0#24) : decode w = opcodeTable (opcField w) := if_pos h

theorem decode_of_rsvField_ne {w : Word} (h : rsvField w ≠ 0#24) : decode w = none := if_neg h

/-- Decoding gives every command back from its word. -/
theorem decode_encode (i : Instr) : decode (encode i) = some i := by
  rw [decode_of_rsvField (rsvField_encode i), opcField_encode, opcodeTable_opcodeOf]

/-- A word that decodes to a command is the word of that command. -/
theorem encode_of_decode {w : Word} {i : Instr} (h : decode w = some i) : encode i = w := by
  by_cases hr : rsvField w = 0#24
  · rw [decode_of_rsvField hr] at h
    calc encode i = rsvField w ++ opcField w := by rw [encode, opcodeOf_of_opcodeTable h, hr]
      _ = w := rsvField_append_opcField w
  · rw [decode_of_rsvField_ne hr] at h
    cases h

/-- The illegal words are those with a reserved bit set or a reserved opcode (R94). -/
theorem decode_eq_none_iff (w : Word) : decode w = none ↔ commandWordWf w = false := by
  have hwf : commandWordWf w = (rsvField w == 0#24 && !reservedOpcode (opcField w)) := rfl
  by_cases hr : rsvField w = 0#24
  · rw [decode_of_rsvField hr, opcodeTable_eq_none_iff, hwf, hr]
    simp
  · simp [decode_of_rsvField_ne hr, hwf, hr]

/-! A word written to CMD while no command runs -/

theorem step_write_cmd {s : State} {rest : List Input} {w : Word} (hb : s.busy = false)
    (h : s.inputs = .host (.write 0x00000008#32 w) :: rest) :
    step s = .next ({ s with inputs := rest }.accept w) := by
  rw [step_write_csr (c := .cmd) h, writeCsr_cmd]
  exact congrArg _ (if_neg (Bool.not_eq_true _ ▸ hb))

/-- SEQ executes the command of the record. -/
theorem seqStep_of_decode {s : State} {r : Latch} {i : Instr} (hl : s.latch = some r) (hd : decode r.word = some i) :
    seqStep s = exec i s := by
  simp only [seqStep, hl, hd]

/-- SEQ completes an illegal word with ILLEGAL_CMD (R94). -/
theorem seqStep_of_illegal {s : State} {r : Latch} (hl : s.latch = some r) (hd : decode r.word = none) :
    seqStep s = .next (s.raiseError .illegalCmd) := by
  simp only [seqStep, hl, hd]

/-! The statements on the encoding -/

/-- Settles O1: the two round trips. -/
theorem decodeAndEncodeAgree : Obligations.DecodeAndEncodeAgree := fun _ i _ =>
  ⟨encode_of_decode, fun h => h ▸ decode_encode i⟩

/-- Settles O2: the two forms of the opcode map agree on every byte. -/
theorem decodeFollowsTheOpcodeMap : Obligations.DecodeFollowsTheOpcodeMap := by
  refine fun w => ⟨decode_of_rsvField_ne, fun h => (decode_of_rsvField h).trans ?_⟩
  change opcodeTable (opcField w) = List.lookup (opcField w).toNat _
  unfold opcodeTable
  split
  case h_15 =>
    simp only [imp_false] at *
    exact (List.lookup_eq_none_iff.2 (by simp [*])).symm
  all_goals next heq => rw [heq]; rfl

/-- Settles O3: the host's write is accepted, and SEQ completes the word with the error. -/
theorem illegalWordsCompleteWithIllegalCmd : Obligations.IllegalWordsCompleteWithIllegalCmd := by
  refine fun w => ⟨decode_eq_none_iff w, fun hw s rest hl hi => ?_⟩
  have hb : s.busy = false := by simp [State.busy, hl]
  have h₁ := step_write_cmd hb hi
  have h₂ : step ({ s with inputs := .seq :: rest }.accept w)
      = .next (State.raiseError ({ s with inputs := rest }.accept w) .illegalCmd) := by
    rw [step_seq rfl]
    exact seqStep_of_illegal rfl hw
  refine (run_succ 1 h₁).trans ((run_succ 0 h₂).trans ?_)
  simp only [hl]
  rfl

/-- Settles O4, from the round trip and R94's list. -/
theorem sampleWordsDecode : Obligations.SampleWordsDecode :=
  ⟨decode_encode .nop, decode_encode .config, decode_encode .hprime, decode_encode .perm, decode_encode .addrgen,
    decode_encode .final, (decode_eq_none_iff _).2 rfl, (decode_eq_none_iff _).2 rfl⟩

end Sys2Proof.Machine
end

section
/-! PROOFS. Script runs as runs of the machine, and the statements WAIT and CHECK (R110, R113). -/

namespace Sys2Proof.Machine

variable {s t : State} {b b' c : Bus} {w : Word}

/-! A script is a run of the machine -/

theorem runScript_reaches {p : List Stmt} {rs : List StmtResult} (h : runScript p b = .next (b', rs)) :
    b.Reaches b' := by
  induction p generalizing b rs with
  | nil => cases h; exact .refl _
  | cons st p ih =>
    obtain ⟨x, hx, h⟩ := andThen_eq_next h
    split at h
    · cases h; exact Stmt.run_reaches hx
    · obtain ⟨y, hy, h⟩ := andThen_eq_next h
      cases h
      exact (Stmt.run_reaches hx).trans (ih hy)

/-- Settles O54, by induction over the script. -/
theorem scriptRunsAreRunsOfTheMachine : Obligations.ScriptRunsAreRunsOfTheMachine :=
  fun _ _ _ _ h => runScript_reaches h

/-! The completion that is still to come -/

/-- What SEQ does depends on no word the host port has returned. -/
theorem seqStep_reads (ws : List Word) (h : seqStep s = .next t) :
    seqStep { s with reads := ws } = .next { t with reads := ws } := by
  obtain ⟨hl, rfl⟩ | ⟨r, i, hl, hd, he⟩ | ⟨r, hl, hd, rfl⟩ := seqStep_cases h
  · simp only [seqStep, hl]
  · have hk := exec_inputs_reads i s.inputs ws he
    refine (seqStep_of_decode (s := { s with reads := ws }) hl hd).trans (hk.trans ?_)
    rw [(exec_keeps_host he).inputs]
  · exact seqStep_of_illegal hl hd

/-- A read of STATUS, before or after the completion, leaves the same completed state but for the word returned. -/
theorem Bus.read_status_seqStep (hr : b.read (csrAddress .status) = .next (c, w)) (ht : seqStep b.machine = .next t) :
    seqStep c.machine = .next { t with reads := c.machine.reads } := by
  obtain ⟨c', hc, hm, -, -⟩ := b.read_status_eq ht
  obtain ⟨rfl, -⟩ := Prod.mk.inj (Host.Outcome.next.inj (hc.symm.trans hr))
  rw [hm]
  split
  · exact seqStep_reads _ ht
  · obtain ⟨u, hu, hb, -⟩ := seqStep_completes b.machine
    obtain rfl : u = t := Host.Outcome.next.inj (hu.symm.trans ht)
    exact seqStep_idle hb

/-! WAIT -/

/-- `b'` is reached from `b` by reads of STATUS, of which `last` is the first with BUSY = 0 and `busyReads`, latest first,
are those before it; the machine is that of `b` with its command completed. -/
structure Bus.Polled (b b' : Bus) (last : Word) (busyReads : List Word) : Prop where
  reads : b'.machine.reads = last :: busyReads ++ b.machine.reads
  trace : transactions b'.trace
    = transactions b.trace ++ List.replicate (busyReads.length + 1) (.read (csrAddress .status))
  busy : ∀ w ∈ busyReads, w.getLsbD 0 = true
  done : last.getLsbD 0 = false
  idle : b'.machine.busy = false
  machine : ∀ t, seqStep b.machine = .next t → b'.machine = { t with reads := b'.machine.reads }
  once : b.machine.busy = false → busyReads = []
  held : b.machine.busy = true → ∀ n, b.schedule = List.replicate n false → busyReads.length = n

/-- One read that shows BUSY = 0 ends the polling. -/
theorem Bus.polled_of_read (hr : b.read (csrAddress .status) = .next (c, w)) (hw : w.getLsbD 0 = false) :
    b.Polled c w [] := by
  obtain ⟨c', w', hc, hreads, htr, -, hbit, hbusy⟩ := b.read_status
  obtain ⟨rfl, rfl⟩ := Prod.mk.inj (Host.Outcome.next.inj (hc.symm.trans hr))
  rw [hw] at hbit
  refine ⟨hreads, htr, by simp, hw, hbit.symm, fun t ht => ?_, fun _ => rfl, fun hb n hs => ?_⟩
  · exact Host.Outcome.next.inj ((seqStep_idle hbit.symm).symm.trans (Bus.read_status_seqStep hr ht))
  · cases n with
    | zero => rfl
    | succ n => simp [hs, hb, ← hbit, List.replicate_succ] at hbusy

/-- A read that shows BUSY = 1 is one more busy read before the polling that follows. -/
theorem Bus.Polled.cons {last : Word} {ws : List Word} (hr : b.read (csrAddress .status) = .next (c, w))
    (hw : w.getLsbD 0 = true) (h : c.Polled b' last ws) : b.Polled b' last (ws ++ [w]) := by
  obtain ⟨c', w', hc, hreads, htr, hs, hbit, hbusy⟩ := b.read_status
  obtain ⟨rfl, rfl⟩ := Prod.mk.inj (Host.Outcome.next.inj (hc.symm.trans hr))
  rw [hw] at hbit
  rw [← hbit] at hbusy
  obtain ⟨hb, hh⟩ := Bool.and_eq_true_iff.1 hbusy.symm
  constructor
  case reads => simp [h.reads, hreads]
  case trace => simp [h.trace, htr, List.replicate_succ]
  case busy => simpa [or_imp, forall_and, hw] using h.busy
  case done => exact h.done
  case idle => exact h.idle
  case machine => exact fun t ht => (h.machine _ (Bus.read_status_seqStep hr ht) :)
  case once => simp [hb]
  case held =>
    rintro - (_ | n) hn
    · simp [hn] at hh
    · simp [h.held hbit.symm n (by simp [hs, hn])]

/-- WAIT ends under every schedule: after the last entry a running command completes. -/
theorem Bus.poll_polled (n : Nat) (b : Bus) (hn : b.schedule.length = n) :
    ∃ b' last ws, Bus.poll n b = .next b' ∧ b.Polled b' last ws := by
  induction n generalizing b with
  | zero =>
    obtain ⟨c, w, hr, -, -, -, hbit, hbusy⟩ := b.read_status
    have hw : w.getLsbD 0 = false := by
      rw [hbit, hbusy, List.eq_nil_of_length_eq_zero hn]
      exact Bool.and_false _
    exact ⟨c, w, [], by simp only [Bus.poll, hr, andThen_next], Bus.polled_of_read hr hw⟩
  | succ n ih =>
    obtain ⟨c, w, hr, -, -, hs, -, -⟩ := b.read_status
    simp only [Bus.poll, hr, andThen_next]
    by_cases hw : w.getLsbD 0 = true
    · obtain ⟨b', last, ws, hp, h⟩ := ih c (by simp [hs, hn])
      exact ⟨b', last, ws ++ [w], by rw [if_pos hw, hp], h.cons hr hw⟩
    · exact ⟨c, w, [], if_neg hw, Bus.polled_of_read hr (Bool.eq_false_of_not_eq_true hw)⟩

theorem Bus.wait_polled (b : Bus) : ∃ b' last ws, b.wait = .next b' ∧ b.Polled b' last ws :=
  Bus.poll_polled _ b rfl

/-- Settles O55, from the polling of `Bus.Polled`. -/
theorem waitStopsAtTheFirstIdleRead : Obligations.WaitStopsAtTheFirstIdleRead := by
  intro b
  obtain ⟨b', last, ws, hw, h⟩ := b.wait_polled
  exact ⟨b', last, ws, hw, h.reads, h.trace, h.busy, h.done, h.idle, h.once, h.held⟩

/-! CHECK -/

/-- A write of 0x2 to STATUS clears DONE and nothing else (R29). -/
theorem acknowledge_two (x : Status) : x.acknowledge 0x2#32 = { x with done := false } := by
  simp [Status.acknowledge]

theorem checkPasses_statusWord (s : State) : checkPasses s.statusWord = !s.status.err := by
  rw [checkPasses, statusWord_getLsbD]
  rfl

/-- CHECK with ERR = 1 and no command running. -/
theorem Bus.check_fails (hb : b.machine.busy = false) (he : b.machine.status.err = true) :
    ∃ b', b.check = .next (b', .failed) ∧ b'.machine = b.machine.returned b.machine.statusWord ∧
      transactions b'.trace = transactions b.trace ++ [.read (csrAddress .status)] := by
  obtain ⟨c, hr, hm, htr, -⟩ := b.read_idle _ hb (hostAccess_read_csr b.machine .status)
  refine ⟨c, ?_, hm, htr⟩
  rw [Bus.check, hr, andThen_next, readCsr, checkPasses_statusWord, he]
  rfl

/-- CHECK with ERR = 0 and no command running. -/
theorem Bus.check_passes (hb : b.machine.busy = false) (he : b.machine.status.err = false) :
    ∃ b', b.check = .next (b', .none) ∧
      b'.machine
        = { b.machine.returned b.machine.statusWord with status := { b.machine.status with done := false } } ∧
      transactions b'.trace
        = transactions b.trace ++ [.read (csrAddress .status), .write (csrAddress .status) 0x2#32] := by
  obtain ⟨c, hr, hm, htr, -⟩ := b.read_idle _ hb (hostAccess_read_csr b.machine .status)
  obtain ⟨d, hd, hm', htr', -⟩ := c.access_idle _ (by rw [hm]; exact hb)
    (hostAccess_write_csr c.machine .status 0x2#32)
  refine ⟨d, ?_, ?_, by simp [htr', htr]⟩
  · rw [Bus.check, hr, andThen_next, readCsr, checkPasses_statusWord, he]
    simp only [Bool.not_false, if_true, hd, andThen_next]
  · rw [hm', hm, writeCsr, acknowledge_two]
    rfl

/-- Settles O56, by ERR. -/
theorem checkEndsAFailingScript : Obligations.CheckEndsAFailingScript := by
  refine fun b p hb => ⟨fun he => ?_, fun he => ?_⟩
  · obtain ⟨b', hc, hm, htr⟩ := Bus.check_fails hb he
    exact ⟨b', by rw [runScript, Stmt.run, hc]; rfl, hm, htr⟩
  · obtain ⟨b', hc, hm, htr⟩ := Bus.check_passes hb he
    exact ⟨b', by rw [runScript, Stmt.run, hc]; rfl, hm, htr⟩

end Sys2Proof.Machine
end

section
/-! PROOFS. The writes of a script statement while no command runs, and the command statement (R111, R113). -/

namespace Sys2Proof.Machine

variable {s t : State} {b : Bus}

/-! Writes while no command runs -/

/-- The host writes `xs` take the machine from `s` to `t`, and no command runs before any of them. -/
inductive WritesTo : List (Word × Word) → State → State → Prop where
  | nil (s : State) : WritesTo [] s s
  | cons {s u t : State} {x : Word × Word} {xs : List (Word × Word)} (hb : s.busy = false)
      (hx : hostAccess s (.write x.1 x.2) = .next u) (h : WritesTo xs u t) : WritesTo (x :: xs) s t

theorem step_of_hostAccess {x : Access} (rest : List Input) (h : hostAccess s x = .next t) :
    step { s with inputs := .host x :: rest } = .next { t with inputs := rest } :=
  hostAccess_inputs (s := s) rest h

/-- As steps of the machine: one step a write. -/
theorem WritesTo.run {xs : List (Word × Word)} (h : WritesTo xs s t) (rest : List Input) :
    Sys2Proof.core.run xs.length { s with inputs := xs.map (fun x => .host (.write x.1 x.2)) ++ rest }
      = .next { t with inputs := rest } := by
  induction h with
  | nil s => rfl
  | cons _ hx _ ih => exact (run_succ _ (step_of_hostAccess _ hx)).trans ih

/-- As transactions of a host at work, under any schedule. -/
theorem WritesTo.bus {xs : List (Word × Word)} (h : WritesTo xs b.machine t) :
    ∃ b', Bus.writes xs b = .next b' ∧ b'.machine = t ∧
      transactions b'.trace = transactions b.trace ++ xs.map fun x => .write x.1 x.2 := by
  generalize hs : b.machine = s at h
  induction h generalizing b with
  | nil s => exact ⟨b, rfl, hs, (List.append_nil _).symm⟩
  | cons hb hx _ ih =>
    subst hs
    obtain ⟨c, hc, hm, htr, -⟩ := b.access_idle _ hb hx
    obtain ⟨b', hb', ht, htr'⟩ := ih hm
    exact ⟨b', by rw [Bus.writes, hc, andThen_next, hb'], ht, by simp [htr', htr]⟩

/-! The writes of a command statement -/

/-- The operand registers after the writes of operand and value pairs, in order. -/
def Args.putAll (x : Args) (ks : List (Fin 6 × Word)) : Args := ks.foldl (fun x k => x.put k.1 k.2) x

theorem Args.putAll_cons (x : Args) (k : Fin 6 × Word) (ks : List (Fin 6 × Word)) :
    x.putAll (k :: ks) = (x.put k.1 k.2).putAll ks := rfl

/-- A register that is not written keeps its value. -/
theorem Args.get_putAll_of_notMem (x : Args) {ks : List (Fin 6 × Word)} {j : Fin 6} (h : ∀ k ∈ ks, k.1 ≠ j) :
    (x.putAll ks).get j = x.get j := by
  induction ks generalizing x with
  | nil => rfl
  | cons k ks ih =>
    rw [List.forall_mem_cons] at h
    rw [putAll_cons, ih _ h.2, get_put_ne _ _ _ _ h.1.symm]

/-- Values put into distinct registers in order: each register holds its value, or its old one where there is none. -/
theorem Args.get_putAll_zip (x : Args) {l : List (Fin 6)} (hl : l.Nodup) (vs : List Word) (j : Nat)
    (hj : j < l.length) : (x.putAll (l.zip vs)).get l[j] = vs.getD j (x.get l[j]) := by
  induction l generalizing x vs j with
  | nil => exact absurd hj (Nat.not_lt_zero j)
  | cons a l ih =>
    obtain ⟨ha, hl⟩ := List.nodup_cons.1 hl
    cases vs with
    | nil => rfl
    | cons v vs =>
      rw [List.zip_cons_cons, putAll_cons]
      cases j with
      | zero =>
        have hnew : ∀ k ∈ l.zip vs, k.1 ≠ a := fun k hk e => ha (e ▸ (List.of_mem_zip hk).1)
        exact (get_putAll_of_notMem _ hnew).trans (get_put x a v)
      | succ j =>
        have hj' : j < l.length := Nat.lt_of_succ_lt_succ hj
        have hne : l[j] ≠ a := fun e => ha (e ▸ List.getElem_mem hj')
        rw [List.getElem_cons_succ, ih _ hl vs j hj', get_put_ne _ _ _ _ hne, List.getD_cons_succ]

/-- ARG0, ARG1, … after a command statement: the operands given, and above them the old values (R111). -/
def Args.withOperands (x : Args) (ops : List Word) : Args := x.putAll ((List.finRange 6).zip ops)

theorem Args.get_withOperands (x : Args) (ops : List Word) (k : Fin 6) :
    (x.withOperands ops).get k = ops.getD k.val (x.get k) := by
  rw [withOperands]
  simpa using x.get_putAll_zip (List.nodup_finRange 6) ops k.val (by simp)

/-- Writes to ARG registers and then a word to CMD: the word is accepted with those operands. -/
theorem writesTo_args_cmd (ks : List (Fin 6 × Word)) (w : Word) (hb : s.busy = false) :
    WritesTo (ks.map (fun x => (csrAddress (.arg x.1), x.2)) ++ [(csrAddress .cmd, w)]) s
      ({ s with args := s.args.putAll ks }.accept w) := by
  induction ks generalizing s with
  | nil =>
    refine .cons hb ?_ (.nil _)
    rw [hostAccess_write_csr, writeCsr_cmd, hb]
    rfl
  | cons k ks ih =>
    have hrest := ih (s := { s with args := s.args.put k.1 k.2 }) hb
    exact .cons hb (hostAccess_write_csr s (.arg k.1) k.2) hrest

/-- The machine after the writes of a command statement (R111). -/
def State.commanded (s : State) (i : Instr) (ops : List Word) : State :=
  { s with args := s.args.withOperands ops }.accept (encode i)

theorem writesTo_commandWrites (i : Instr) (ops : List Word) (hb : s.busy = false) :
    WritesTo (commandWrites i ops) s (s.commanded i ops) :=
  writesTo_args_cmd _ _ hb

theorem seqStep_commanded (s : State) (i : Instr) (ops : List Word) :
    seqStep (s.commanded i ops) = exec i (s.commanded i ops) :=
  seqStep_of_decode (r := ⟨encode i, s.args.withOperands ops⟩) rfl (decode_encode i)

theorem commandWrites_length (i : Instr) {ops : List Word} (h : ops.length ≤ 6) :
    (commandWrites i ops).length = ops.length + 1 := by
  simp [commandWrites, h]

/-- A command statement while no command runs: its writes, then reads of STATUS until the command has completed. -/
theorem Stmt.run_command (i : Instr) (ops : List Word) (hb : b.machine.busy = false)
    (ht : exec i (b.machine.commanded i ops) = .next t) :
    ∃ b' n, (Stmt.command i ops).run b = .next (b', .none) ∧ b'.machine = { t with reads := b'.machine.reads } ∧
      transactions b'.trace = transactions b.trace ++ (commandWrites i ops).map (fun x => .write x.1 x.2)
        ++ List.replicate (n + 1) (.read (csrAddress .status)) := by
  obtain ⟨c, hc, hm, htr⟩ := (writesTo_commandWrites i ops hb).bus
  obtain ⟨b', last, ws, hw, hp⟩ := c.wait_polled
  refine ⟨b', ws.length, ?_, hp.machine t ?_, ?_⟩
  · rw [Stmt.run, hc, andThen_next, hw, andThen_next]
  · rw [hm, seqStep_commanded, ht]
  · rw [hp.trace, htr]

/-- Settles O23: the writes as steps, and then the statement with its WAIT under any schedule. -/
theorem commandStatementIssuesItsCommand : Obligations.CommandStatementIssuesItsCommand := by
  refine ⟨fun s i ops rest hb hops hi => ?_, fun b i ops hb _ => ?_⟩
  · have hr := (writesTo_commandWrites i ops hb).run rest
    rw [← hi, commandWrites_length i hops] at hr
    exact ⟨_, hr, rfl, rfl, rfl, s.args.get_withOperands ops, rfl, rfl, rfl, rfl⟩
  · obtain ⟨t, ht, -⟩ := exec_ends i (b.machine.commanded i ops)
    obtain ⟨b', n, hr, hm, htr⟩ := Stmt.run_command i ops hb ht
    exact ⟨b', _, t, n, hr, b.machine.args.get_withOperands ops, ht, hm, htr⟩

end Sys2Proof.Machine
end

section
/-! PROOFS. The data statements LOADW, LOADB and READB (R112): the words of the host and the bytes of LMEM. -/

namespace Sys2Proof.Machine

variable {s : State} {b : Bus} {o : Nat}

/-! Writes side by side -/

theorem Memory.writeBytes_nil {m : Memory} (h : m.wf = true) (a : Nat) : m.writeBytes a [] = m :=
  ext_of_wf (writeBytes_wf _ _ _ h) h rfl fun x => lookup_writeBytes_out m a [] x (lt_or_ge x a)

/-- A write, and one right above it, are one write. -/
theorem Memory.writeBytes_append {m : Memory} (h : m.wf = true) (a : Nat) (S T : Bytes) :
    (m.writeBytes a S).writeBytes (a + S.length) T = m.writeBytes a (S ++ T) := by
  refine ext_of_wf (writeBytes_wf _ _ _ (writeBytes_wf _ _ _ h)) (writeBytes_wf _ _ _ h) rfl fun x => ?_
  have hlen : (S ++ T).length = S.length + T.length := List.length_append
  by_cases hx : a ≤ x ∧ x < a + (S ++ T).length
  · obtain ⟨j, rfl⟩ := Nat.exists_eq_add_of_le hx.1
    rw [lookup_writeBytes_in m a (S ++ T) j (by omega)]
    by_cases hj : j < S.length
    · rw [lookup_writeBytes_out _ _ _ _ (by omega), lookup_writeBytes_in _ _ _ _ hj, List.getElem_append_left hj]
    · obtain ⟨i, rfl⟩ := Nat.exists_eq_add_of_le (Nat.le_of_not_lt hj)
      rw [← Nat.add_assoc, lookup_writeBytes_in _ _ _ _ (by omega), writeBytes_background,
        List.getElem_append_right (by omega)]
      simp
  · rw [lookup_writeBytes_out _ _ _ _ (by omega), lookup_writeBytes_out _ _ _ _ (by omega),
      lookup_writeBytes_out _ _ _ _ (by omega)]

/-! Words and bytes -/

theorem flatMap_le32_length (vs : List Word) : (vs.flatMap le32).length = 4 * vs.length := by
  simp [List.length_flatMap, Nat.mul_comm]

/-- The bytes of the number of four bytes are those bytes (R9, R62). -/
theorem le32_leNat {S : Bytes} (h : S.length = 4) : le32 (BitVec.ofNat 32 (leNat S)) = S := by
  apply List.ext_getElem (by simp [h])
  intro j hj hj'
  rw [le32_getElem]
  apply BitVec.eq_of_getLsbD_eq
  intro i hi
  have e : (8 * j + i) / 8 = j ∧ (8 * j + i) % 8 = i := by omega
  rw [BitVec.getLsbD_extractLsb', BitVec.getLsbD_ofNat, leNat_testBit, e.1, e.2, List.getElem?_eq_getElem hj']
  rw [le32_length] at hj
  simp only [hi, show 8 * j + i < 32 by omega, decide_true, Bool.true_and]

theorem le32_readWindow (s : State) (o : Nat) : le32 (readWindow s o) = s.lmem.readBytes o 4 :=
  le32_leNat (Memory.readBytes_length _ _ _)

/-- A byte string cut into its first `k` pieces of four bytes, and put together again. -/
theorem flatMap_range_take_four (S : Bytes) (k : Nat) :
    (List.range k).flatMap (fun j => (S.drop (4 * j)).take 4) = S.take (4 * k) := by
  induction k with
  | zero => rfl
  | succ k ih => rw [List.range_succ, List.flatMap_append, ih, Nat.mul_succ, List.take_add, List.flatMap_singleton]

/-- The words of LOADB are its bytes and the zeros up to the next multiple of 4 (R112). -/
theorem paddedWords_bytes (S : Bytes) :
    (paddedWords S).flatMap le32 = S ++ zeros (4 * ((S.length + 3) / 4) - S.length) := by
  have hword : ∀ j ∈ List.range ((S.length + 3) / 4),
      le32 (BitVec.ofNat 32 (leNat (((S ++ zeros 3).drop (4 * j)).take 4))) = ((S ++ zeros 3).drop (4 * j)).take 4 := by
    intro j hj
    rw [List.mem_range] at hj
    exact le32_leNat (by simp; omega)
  rw [paddedWords, List.flatMap_map, List.flatMap_congr hword, flatMap_range_take_four, List.take_append,
    List.take_of_length_le (by omega), zeros, List.take_replicate, zeros]
  congr 2
  omega

/-! The window of LMEM to a host at work -/

theorem hostTarget_lmemAddress {n : Nat} (hn : n ≤ 2 ^ 31) (ho : o % 4 = 0) (h : o < n) :
    hostTarget n (lmemAddress o) = .lmem o :=
  hostTarget_lmem n o h hn ho

/-- Words written to consecutive places are one write of their bytes (R112). -/
theorem writesTo_wordWrites (vs : List Word) (hb : s.busy = false) (hm : s.lmem.wf = true) (hn : s.lmemBytes ≤ 2 ^ 31)
    (ho : o % 4 = 0) (h : o + 4 * vs.length ≤ s.lmemBytes) :
    WritesTo (wordWrites o vs) s (s.withLmem (s.lmem.writeBytes o (vs.flatMap le32))) := by
  induction vs generalizing s o with
  | nil =>
    rw [List.flatMap_nil, Memory.writeBytes_nil hm]
    exact .nil s
  | cons v vs ih =>
    rw [List.length_cons] at h
    have hx := (hostAccess_lmem s _ v o (hostTarget_lmemAddress hn ho (by omega)) hb).2
    have hrest := ih (s := writeWindow s o v) (o := o + 4) hb (Memory.writeBytes_wf _ _ _ hm) hn (by omega)
      (Nat.le_trans (by omega) h)
    refine .cons hb hx ?_
    rw [List.flatMap_cons, ← Memory.writeBytes_append hm]
    exact hrest

/-- Reads of places of LMEM return their words and change nothing else (R62, R68). -/
theorem Bus.reads_lmem (os : List Nat) (hb : b.machine.busy = false) (hn : b.machine.lmemBytes ≤ 2 ^ 31)
    (h : ∀ o ∈ os, o % 4 = 0 ∧ o < b.machine.lmemBytes) :
    ∃ b', Bus.reads (os.map lmemAddress) b = .next (b', os.map (readWindow b.machine)) ∧
      b'.machine = { b.machine with reads := b'.machine.reads } := by
  induction os generalizing b with
  | nil => exact ⟨b, rfl, rfl⟩
  | cons o os ih =>
    rw [List.forall_mem_cons] at h
    obtain ⟨⟨ho, hlt⟩, hos⟩ := h
    obtain ⟨c, hc, hm, -, -⟩ := b.read_idle _ hb
      (hostAccess_lmem b.machine _ 0 o (hostTarget_lmemAddress hn ho hlt) hb).1
    obtain ⟨b', hb', hm'⟩ := ih (b := c) (by rw [hm]; exact hb) (by rw [hm]; exact hn) (by rw [hm]; exact hos)
    rw [hm] at hb' hm'
    exact ⟨b', by rw [List.map_cons, Bus.reads, hc, andThen_next, hb']; rfl, hm'⟩

/-! The statements -/

/-- LOADW while no command runs, inside LMEM. -/
theorem Bus.writeStmt_words (vs : List Word) (hs : b.machine.Inv) (hb : b.machine.busy = false) (ho : o % 4 = 0)
    (h : o + 4 * vs.length ≤ b.machine.lmemBytes) :
    ∃ b', b.writeStmt (wordWrites o vs) = .next (b', .none) ∧
      b'.machine.lmem.readBytes o (4 * vs.length) = vs.flatMap le32 ∧
      SameOutside b.machine b'.machine o (4 * vs.length) ∧ b'.machine = { b.machine with lmem := b'.machine.lmem } := by
  obtain ⟨b', hw, hm, -⟩ := (writesTo_wordWrites vs hb hs.lmem_wf hs.lmemBytes_le ho h).bus
  refine ⟨b', by rw [Bus.writeStmt, hw, andThen_next], ?_⟩
  rw [hm, ← flatMap_le32_length]
  exact ⟨Memory.readBytes_writeBytes _ _ _, fun x hx => Memory.readByte_writeBytes_out _ _ _ x hx, rfl⟩

/-- The byte offsets of the words READB reads. -/
def readOffsets (o n : Nat) : List Nat := (List.range ((n + 3) / 4)).map fun j => o + 4 * j

theorem readAddresses_eq (o n : Nat) : readAddresses o n = (readOffsets o n).map lmemAddress := by
  rw [readOffsets, List.map_map]
  rfl

/-- The result of READB from the words at its places: the `n` bytes at `o` (R112). -/
theorem bytesRead_readWindow (s : State) (o n : Nat) :
    bytesRead n ((readOffsets o n).map (readWindow s)) = s.lmem.readBytes o n := by
  have hword : ∀ j ∈ List.range ((n + 3) / 4), le32 (readWindow s (o + 4 * j))
      = ((s.lmem.readBytes o (4 * ((n + 3) / 4))).drop (4 * j)).take 4 := by
    intro j hj
    rw [List.mem_range] at hj
    rw [le32_readWindow, Memory.readBytes_drop_take _ (by omega)]
  have hn : 0 + n ≤ 4 * ((n + 3) / 4) := by omega
  calc bytesRead n ((readOffsets o n).map (readWindow s))
      = ((s.lmem.readBytes o (4 * ((n + 3) / 4))).take (4 * ((n + 3) / 4))).take n := by
        rw [bytesRead, readOffsets, List.flatMap_map, List.flatMap_map, List.flatMap_congr hword,
          flatMap_range_take_four]
    _ = (s.lmem.readBytes o (4 * ((n + 3) / 4))).take n := by rw [List.take_take, Nat.min_eq_left (by omega)]
    _ = s.lmem.readBytes o n := Memory.readBytes_drop_take _ hn

/-- Settles O57. LOADB is LOADW of its padded words. -/
theorem dataStatementsMoveTheirBytes : Obligations.DataStatementsMoveTheirBytes := by
  refine fun b hs hb o ho => ⟨fun vs h => b.writeStmt_words vs hs hb ho h, fun S h => ?_, fun n h => ?_⟩
  · have hlen : (paddedWords S).length = (S.length + 3) / 4 := by simp [paddedWords]
    have hw := b.writeStmt_words (paddedWords S) hs hb ho (by rw [hlen]; exact h)
    rw [hlen, paddedWords_bytes] at hw
    exact hw
  · have hbytes : b.machine.lmemBytes = 1024 * b.machine.lmemBlocks := rfl
    obtain ⟨b', hr, hm⟩ := b.reads_lmem (readOffsets o n) hb hs.lmemBytes_le
      (by simp only [readOffsets, List.forall_mem_map, List.mem_range]; omega)
    exact ⟨b', by rw [Stmt.run, readAddresses_eq, hr, andThen_next, bytesRead_readWindow], hm⟩

end Sys2Proof.Machine
end

section
/-! PROOFS. The control commands NOP, CONFIG and ZEROIZE (R120–R126). -/

namespace Sys2Proof.Machine

variable {s : State} {r : Latch}

/-! NOP -/

theorem exec_nop (s : State) : exec .nop s = .next s.complete := rfl

/-- A command word written to CMD while no command runs is accepted, and SEQ's next step executes it. -/
theorem run_write_cmd_seq {t : State} {rest : List Input} {w : Word} {i : Instr} (hb : s.busy = false)
    (hi : s.inputs = .host (.write 0x00000008#32 w) :: .seq :: rest) (hd : decode w = some i)
    (ht : exec i ({ s with inputs := rest }.accept w) = .next t) : Sys2Proof.core.run 2 s = .next t := by
  have h₁ := step_write_cmd hb hi
  have h₂ : step ({ s with inputs := .seq :: rest }.accept w) = .next t := by
    rw [step_seq rfl]
    exact (seqStep_of_decode (State.accept_latch _ w) hd).trans ht
  exact (run_succ 1 h₁).trans (run_succ 0 h₂)

/-- Settles O30. From reset, no command runs when the word is written. -/
theorem nopOnlyCompletes : Obligations.NopOnlyCompletes :=
  ⟨rfl, exec_nop, _, run_write_cmd_seq rfl rfl (decode_encode .nop) (exec_nop _), rfl⟩

/-! CONFIG: the parameter bounds, the geometry, and the three ways it ends -/

/-- The bounds of R121 and R123. -/
theorem paramsOk_iff (p m t : Nat) :
    paramsOk p m t = true ↔ 1 ≤ p ∧ p ≤ 2 ^ 24 - 1 ∧ 1 ≤ t ∧ 8 * p ≤ m := by
  simp only [paramsOk, Bool.and_eq_true, decide_eq_true_eq, and_assoc]
  rfl

/-- The segment length of a valid configuration, from m′ and p (R122). -/
theorem Cfg.Valid.segment_eq_blocks {c : Cfg} {n : Nat} (h : c.Valid n) :
    c.sl.toNat = c.mp.toNat / (4 * c.p.toNat) := by
  rw [h.segment_eq, h.columns_eq, Nat.div_div_eq_div_mul, Nat.mul_comm]

/-- CONFIG out of bounds (R123, R124). -/
theorem exec_config_invalid (hl : s.latch = some r)
    (hp : paramsOk r.args.arg0.toNat r.args.arg1.toNat r.args.arg2.toNat = false) :
    exec .config s = .next ((s.withCfgok false).raiseError .invalidParams) := by
  simp only [exec, execConfig, State.operand_of_latch hl, Args.get, hp, Bool.not_false, if_true]

/-- CONFIG in bounds with a matrix that does not fit (R124). -/
theorem exec_config_exhausted (hl : s.latch = some r)
    (hp : paramsOk r.args.arg0.toNat r.args.arg1.toNat r.args.arg2.toNat = true)
    (hn : s.lmemBlocks < roundedBlocks r.args.arg0.toNat r.args.arg1.toNat) :
    exec .config s = .next ((s.withCfgok false).raiseError .resourceExhausted) := by
  simp only [exec, execConfig, State.operand_of_latch hl, Args.get, hp, hn, Bool.not_true, Bool.false_eq_true, if_false,
    if_true]

/-- CONFIG in bounds with a matrix that fits (R121). -/
theorem exec_config_ok (hl : s.latch = some r)
    (hp : paramsOk r.args.arg0.toNat r.args.arg1.toNat r.args.arg2.toNat = true)
    (hn : roundedBlocks r.args.arg0.toNat r.args.arg1.toNat ≤ s.lmemBlocks) :
    exec .config s
      = .next ((s.withCfg (configured r.args.arg0 r.args.arg1 r.args.arg2)).withCfgok true).complete := by
  simp only [exec, execConfig, State.operand_of_latch hl, State.argl_of_latch hl, Args.get, hp, Nat.not_lt.2 hn,
    Bool.not_true, Bool.false_eq_true, if_false]

/-- Settles O31: the registers are those of `configured`, whose invariant gives m′, q and SL. -/
theorem configLatchesTheGeometry : Obligations.ConfigLatchesTheGeometry := by
  intro s r hl p m t hp₁ hp₂ ht hm hn
  have hp : paramsOk p m t = true := (paramsOk_iff p m t).2 ⟨hp₁, hp₂, ht, hm⟩
  have he := exec_config_ok hl hp hn
  have hv := configured_valid r.args.arg0 r.args.arg1 r.args.arg2 s.lmemBlocks hp hn
  have hmp : (configured r.args.arg0 r.args.arg1 r.args.arg2).mp.toNat = 4 * p * (m / (4 * p)) := hv.blocks_eq
  refine ⟨_, he, rfl, rfl, rfl, hmp, ?_, ?_, hv, rfl, rfl, rfl, rfl, exec_keeps_host he⟩
  · exact hv.columns_eq.trans (congrArg (· / p) hmp)
  · exact hv.segment_eq_blocks.trans (congrArg (· / (4 * p)) hmp)

/-- Settles O32: outside the bounds the first check answers, inside them the second. -/
theorem configRejectsAndClearsCfgok : Obligations.ConfigRejectsAndClearsCfgok := by
  intro s r hl p m t bad
  have hbad : bad ↔ ¬paramsOk p m t = true := by
    rw [paramsOk_iff]
    change p = 0 ∨ 2 ^ 24 - 1 < p ∨ t = 0 ∨ m < 8 * p ↔ _
    omega
  refine ⟨fun h => ?_, fun h hn => ?_⟩
  · exact exec_config_invalid hl (Bool.eq_false_of_not_eq_true (hbad.1 h))
  · exact exec_config_exhausted hl (not_not.1 (mt hbad.2 h)) hn

/-! ZEROIZE -/

theorem exec_zeroize (s : State) :
    exec .zeroize s = .next ((s.withLmem Memory.allZero).withRes Res.zero).complete := rfl

theorem Res.zero_get (k : Fin 4) : Res.zero.get k = 0 := by
  revert k
  decide

/-- Settles O33: LMEM and RES become the zero memory and the zero registers; the rest is the frame of a command. -/
theorem zeroizeClearsLmemAndResults : Obligations.ZeroizeClearsLmemAndResults := by
  refine ⟨rfl, fun s => ⟨_, exec_zeroize s, Memory.allZero_readByte, Res.zero_get, ?_, ⟨rfl, rfl⟩, ?_⟩⟩
  · exact (exec_frame (exec_zeroize s)).1 (by decide)
  · exact exec_keeps_host (exec_zeroize s)

end Sys2Proof.Machine
end

section
/-! PROOFS. The key expander: HASH and HPRIME write their result over dst and nothing else (R175, R178), and what H′ is
(R165–R167). -/

namespace Sys2Proof.Machine

/-! A command that stores a byte string and completes -/

variable {s : State} {r : Latch}

/-- Writing `S` at `a` and completing leaves `S` readable there, also where `S` was computed from those bytes (R67), and
changes nothing else but BUSY and DONE (R303). -/
theorem exec_stores {i : Instr} {a n : Nat} {S : Bytes} (hn : S.length = n)
    (h : exec i s = .next (s.withLmem (s.lmem.writeBytes a S)).complete) :
    ∃ t, exec i s = .next t ∧ t.lmem.readBytes a n = S ∧ SameOutside s t a n ∧ t.res = s.res ∧ t.cfg = s.cfg ∧
      CompletesOk s t ∧ KeepsHost s t := by
  subst hn
  refine ⟨_, h, Memory.readBytes_writeBytes s.lmem a S, ?_, rfl, rfl, ⟨rfl, rfl⟩, exec_keeps_host h⟩
  exact fun x hx => Memory.readByte_writeBytes_out s.lmem a S x hx

/-! HASH and HPRIME past their checks -/

/-- HASH with nn in bounds and both ranges in LMEM (R175). -/
theorem exec_hash_ok (hl : s.latch = some r) (h₁ : 1 ≤ r.args.arg3.toNat) (h₂ : r.args.arg3.toNat ≤ 64)
    (hsrc : r.args.arg0.toNat + r.args.arg1.toNat ≤ s.lmemBytes)
    (hdst : r.args.arg2.toNat + r.args.arg3.toNat ≤ s.lmemBytes) :
    exec .hash s = .next (s.withLmem (s.lmem.writeBytes r.args.arg2.toNat
      (blake2b r.args.arg3.toNat (s.lmem.readBytes r.args.arg0.toNat r.args.arg1.toNat)))).complete := by
  have hnn : (decide (r.args.arg3.toNat < 1) || decide (64 < r.args.arg3.toNat)) = false := by
    simp only [Nat.not_lt.2 h₁, Nat.not_lt.2 h₂, decide_false, Bool.or_self]
  simp only [exec, execHash, State.operand_of_latch hl, Args.get, hnn, State.rangeOk_iff.2 hsrc,
    State.rangeOk_iff.2 hdst, Bool.and_self, Bool.not_true, Bool.false_eq_true, if_false]

/-- HPRIME with τ ≥ 1 and both ranges in LMEM (R178). -/
theorem exec_hprime_ok (hl : s.latch = some r) (h₁ : 1 ≤ r.args.arg3.toNat)
    (hsrc : r.args.arg0.toNat + r.args.arg1.toNat ≤ s.lmemBytes)
    (hdst : r.args.arg2.toNat + r.args.arg3.toNat ≤ s.lmemBytes) :
    exec .hprime s = .next (s.withLmem (s.lmem.writeBytes r.args.arg2.toNat
      (hprime r.args.arg3.toNat (s.lmem.readBytes r.args.arg0.toNat r.args.arg1.toNat)))).complete := by
  simp only [exec, execHprime, State.operand_of_latch hl, Args.get, Nat.one_le_iff_ne_zero.1 h₁,
    State.rangeOk_iff.2 hsrc, State.rangeOk_iff.2 hdst, Bool.and_self, Bool.not_true, Bool.false_eq_true, if_false]

/-- Settles O34: past its checks HASH stores the digest, which has nn bytes. -/
theorem hashWritesTheDigest : Obligations.HashWritesTheDigest := by
  intro s r hl src len dst nn h₁ h₂ hsrc hdst
  exact exec_stores (blake2b_length nn _ h₂) (exec_hash_ok hl h₁ h₂ hsrc hdst)

/-- Settles O35: past its checks HPRIME stores H′, which has τ bytes. -/
theorem hprimeWritesItsOutput : Obligations.HprimeWritesItsOutput := by
  intro s r hl src len dst tau h₁ hsrc hdst
  exact exec_stores (hprime_length tau _) (exec_hprime_ok hl h₁ hsrc hdst)

/-! What H′ is -/

/-- One hash up to 64 bytes (R165). -/
theorem hprime_of_le {τ : Nat} (h : τ ≤ 64) (X : Bytes) :
    hprime τ X = blake2b τ (le32 (BitVec.ofNat 32 τ) ++ X) := if_pos h

/-- The chain above 64 bytes, which starts from V[1] (R166). -/
theorem hprime_of_gt {τ : Nat} (h : 64 < τ) (X : Bytes) :
    hprime τ X = hprimeChain (τ - 32 * ((τ + 31) / 32 - 2)) ((τ + 31) / 32 - 2 - 1)
      (blake2b 64 (le32 (BitVec.ofNat 32 τ) ++ X)) := if_neg (Nat.not_le.2 h)

/-- The chain from V[j], `k` more values being chained after it: the first halves of V[j] … V[j + k], then the final hash of
V[j + k], for V[i] the i-fold 64-byte hash of `A` (R166). -/
theorem hprimeChain_iterate (last k j : Nat) (A : Bytes) :
    hprimeChain last k ((blake2b 64)^[j] A)
      = (List.range' j (k + 1)).flatMap (fun i => ((blake2b 64)^[i] A).take 32)
        ++ blake2b last ((blake2b 64)^[j + k] A) := by
  induction k generalizing j with
  | zero => simp only [hprimeChain_zero, Nat.zero_add, List.range'_one, List.flatMap_singleton, Nat.add_zero]
  | succ k ih =>
    have hnext := ih (j + 1)
    rw [Function.iterate_succ_apply', Nat.add_right_comm j 1 k] at hnext
    rw [hprimeChain_succ, List.range'_succ, List.flatMap_cons, List.append_assoc, ← Nat.add_assoc j k 1, hnext]

/-- The chain's output begins with the first half of the value it starts from. -/
theorem hprimeChain_take (last k : Nat) {V : Bytes} (hV : V.length = 64) :
    (hprimeChain last k V).take 32 = V.take 32 := by
  have hhalf : (V.take 32).length = 32 := by rw [List.length_take, hV]; rfl
  cases k with
  | zero => rw [hprimeChain_zero, List.take_left' hhalf]
  | succ k => rw [hprimeChain_succ, List.take_left' hhalf]

/-- Settles O36: above 64 bytes r ≥ 1, and the chain starts from V[1]. -/
theorem hprimeIsTheChainOfHashes : Obligations.HprimeIsTheChainOfHashes := by
  refine fun τ X => ⟨fun _ h => hprime_of_le h X, ?_⟩
  intro h V r
  have hr : r - 1 + 1 = r := Nat.sub_add_cancel (by omega)
  have hchain := hprimeChain_iterate (τ - 32 * r) (r - 1) 1 (le32 (BitVec.ofNat 32 τ) ++ X)
  rw [hr, Nat.add_comm 1, hr] at hchain
  exact (hprime_of_gt h X).trans hchain

/-- Settles O37: H′ has τ bytes, the final digest length is arithmetic, and the chain begins with half of V[1]. -/
theorem hprimeHasTheLengthAsked : Obligations.HprimeHasTheLengthAsked := by
  refine fun τ X _ => ⟨hprime_length τ X, fun h => ⟨by omega, by omega, by omega, ?_⟩⟩
  rw [hprime_of_gt h, hprimeChain_take _ _ (blake2b_length 64 _ le_rfl)]

end Sys2Proof.Machine
end

section
/-! PROOFS. The block mixer: fBlaMka on numbers, where the row and column steps put the words of P, what G depends on, and
the block that G, GX and PERM write (R190–R202). -/

namespace Sys2Proof.Machine

/-! fBlaMka -/

/-- `lo32` as a number (R8). -/
theorem lo32_toNat (x : U64) : (lo32 x).toNat = x.toNat % 2 ^ 32 := by
  rw [lo32, BitVec.extractLsb'_toNat, Nat.shiftRight_zero]

/-- R190 on numbers. -/
theorem fBlaMka_toNat (x y : U64) :
    (fBlaMka x y).toNat = (x.toNat + y.toNat + 2 * (x.toNat % 2 ^ 32) * (y.toNat % 2 ^ 32)) % 2 ^ 64 := by
  have hlo (v : U64) : ((lo32 v).setWidth 64).toNat = v.toNat % 2 ^ 32 := by
    rw [BitVec.toNat_setWidth_of_le (by decide), lo32_toNat]
  have htwo : (2 : U64).toNat = 2 := rfl
  simp only [fBlaMka, BitVec.toNat_add, BitVec.toNat_mul, hlo, htwo, Nat.mul_mod_mod, Nat.mod_add_mod, Nat.add_mod_mod,
    Nat.mul_assoc]

/-- Settles O38: the equation on numbers, and the examples evaluated. -/
theorem fBlaMkaIsTheStatedSum : Obligations.FBlaMkaIsTheStatedSum :=
  ⟨fBlaMka_toNat, by decide⟩

/-! The row and column steps -/

/-- Word `w` after the row step: P of its row, at its place in the row (R194). -/
theorem rowStep_getElem (B : Block) (w : Nat) (h : w < 128) :
    (rowStep B)[w] = (permP (gridRow B ⟨w / 16, by omega⟩))[w % 16] := by
  simp only [rowStep, Vector.getElem_ofFn]

/-- Word `w` after the column step: P of its column, at its place in the column (R195). -/
theorem columnStep_getElem (B : Block) (w : Nat) (h : w < 128) :
    (columnStep B)[w] = (permP (gridColumn B ⟨w % 16 / 2, by omega⟩))[2 * (w / 16) + w % 2] := by
  simp only [columnStep, Vector.getElem_ofFn]

/-- Settles O39: row i holds the words 16i + k, column j the words 16k + 2j + b. -/
theorem rowAndColumnStepsApplyP : Obligations.RowAndColumnStepsApplyP := by
  refine fun B => ⟨fun i k hi hk => ?_, fun j k b hj hk hb => ?_⟩
  · have hrow : (16 * i + k) / 16 = i := by omega
    have hword : (16 * i + k) % 16 = k := by omega
    rw [rowStep_getElem]
    simp only [hrow, hword]
    rfl
  · have hcol : (16 * k + 2 * j + b) % 16 / 2 = j := by omega
    have hword : 2 * ((16 * k + 2 * j + b) / 16) + (16 * k + 2 * j + b) % 2 = 2 * k + b := by omega
    rw [columnStep_getElem]
    simp only [hcol, hword]
    rfl

/-! Perm and G -/

/-- G depends on the XOR of its inputs only (R198). -/
theorem compress_congr {X Y X' Y' : Block} (h : xorBlock X Y = xorBlock X' Y') : compress X Y = compress X' Y' := by
  rw [compress, compress, h]

@[simp] theorem xorBlock_zeroBlock (B : Block) : xorBlock B zeroBlock = B := by
  apply Vector.ext
  intro k hk
  rw [xorBlock_getElem B zeroBlock k hk, zeroBlock_getElem k hk]
  exact BitVec.xor_zero

theorem permP_zero : permP (Vector.replicate 16 0) = Vector.replicate 16 0 := by decide

theorem gridRow_zeroBlock (i : Fin 8) : gridRow zeroBlock i = Vector.replicate 16 0 := by
  apply Vector.ext
  intro k hk
  simp [gridRow]

theorem gridColumn_zeroBlock (j : Fin 8) : gridColumn zeroBlock j = Vector.replicate 16 0 := by
  apply Vector.ext
  intro k hk
  simp [gridColumn]

/-- Perm leaves ZERO: its rows and columns are zero, and P leaves the zero vector (R198). -/
theorem permute_zeroBlock : permute zeroBlock = zeroBlock := by
  have hrows : rowStep zeroBlock = zeroBlock := by
    apply Vector.ext
    intro w hw
    rw [rowStep_getElem _ w hw, gridRow_zeroBlock, permP_zero, Vector.getElem_replicate, zeroBlock_getElem w hw]
  apply Vector.ext
  intro w hw
  rw [permute, hrows, columnStep_getElem _ w hw, gridColumn_zeroBlock, permP_zero, Vector.getElem_replicate,
    zeroBlock_getElem w hw]

/-- G(R, ZERO) is R ⊕ Perm(R) (R202). -/
theorem compress_zeroBlock (R : Block) : compress R zeroBlock = xorBlock R (permute R) := by
  rw [compress, xorBlock_zeroBlock]

theorem compress_self (X : Block) : compress X X = zeroBlock := by
  rw [compress, xorBlock_self, permute_zeroBlock, xorBlock_self]

/-- Word 0 of R200's example, G of the block of the words 0 … 127 and ZERO. -/
theorem compress_iota_zeroBlock :
    (compress (Vector.ofFn fun k : Fin 128 => BitVec.ofNat 64 k.val) zeroBlock)[0] = 0xC1B5682006CAB594#64 := by
  decide

/-- Settles O40: everything but the example follows from the definition through R = X ⊕ Y. -/
theorem compressionDependsOnTheXor : Obligations.CompressionDependsOnTheXor :=
  ⟨fun _ => rfl, fun _ _ => rfl, compress_zeroBlock, fun X Y => compress_congr (xorBlock_comm X Y), compress_self,
    permute_zeroBlock, fun _ _ _ _ => compress_congr, compress_iota_zeroBlock⟩

/-! G, GX and PERM -/

variable {s : State} {r : Latch}

/-- Writing block `d` and completing leaves `B` there, also where `B` was computed from that block (R67), and changes
nothing else but BUSY and DONE (R303). -/
theorem exec_stores_block {i : Instr} {d : Nat} {B : Block}
    (h : exec i s = .next (s.withLmem (s.lmem.writeBlock d B)).complete) :
    ∃ t, exec i s = .next t ∧ t.lmem.readBlock d = B ∧ SameOutside s t (1024 * d) 1024 ∧ t.res = s.res ∧
      t.cfg = s.cfg ∧ CompletesOk s t ∧ KeepsHost s t := by
  obtain ⟨t, ht, hread, hrest⟩ := exec_stores (bytesOf_length B) h
  exact ⟨t, ht, by rw [Memory.readBlock, hread, blockOf_bytesOf], hrest⟩

/-- PERM with its indices in LMEM, whatever ARG1 is (R202). -/
theorem exec_perm_ok (hl : s.latch = some r) (hx : r.args.arg0.toNat < s.lmemBlocks)
    (hd : r.args.arg2.toNat < s.lmemBlocks) :
    exec .perm s = .next (s.withLmem (s.lmem.writeBlock r.args.arg2.toNat
      (permute (s.lmem.readBlock r.args.arg0.toNat)))).complete := by
  simp only [exec, execPerm, State.operand_of_latch hl, Args.get, State.blockOk_iff.2 hx, State.blockOk_iff.2 hd,
    Bool.and_self, Bool.not_true, Bool.false_eq_true, if_false]

section
variable (hl : s.latch = some r) (hx : r.args.arg0.toNat < s.lmemBlocks) (hy : r.args.arg1.toNat < s.lmemBlocks)
  (hd : r.args.arg2.toNat < s.lmemBlocks)
include hl hx hy hd

/-- G with its indices in LMEM (R200). -/
theorem exec_g_ok :
    exec .g s = .next (s.withLmem (s.lmem.writeBlock r.args.arg2.toNat
      (compress (s.lmem.readBlock r.args.arg0.toNat) (s.lmem.readBlock r.args.arg1.toNat)))).complete := by
  simp only [exec, execG, State.operand_of_latch hl, Args.get, State.blockOk_iff.2 hx, State.blockOk_iff.2 hy,
    State.blockOk_iff.2 hd, Bool.and_self, Bool.not_true, Bool.false_eq_true, if_false]

/-- GX with its indices in LMEM (R201). -/
theorem exec_gx_ok :
    exec .gx s = .next (s.withLmem (s.lmem.writeBlock r.args.arg2.toNat (xorBlock (s.lmem.readBlock r.args.arg2.toNat)
      (compress (s.lmem.readBlock r.args.arg0.toNat) (s.lmem.readBlock r.args.arg1.toNat))))).complete := by
  simp only [exec, execGx, State.operand_of_latch hl, Args.get, State.blockOk_iff.2 hx, State.blockOk_iff.2 hy,
    State.blockOk_iff.2 hd, Bool.and_self, Bool.not_true, Bool.false_eq_true, if_false]

end

/-- Settles O41: past its range check each command writes its block. -/
theorem blockCommandsWriteOneBlock : Obligations.BlockCommandsWriteOneBlock := by
  intro s r hl x y d blk hx hd
  refine ⟨exec_stores_block (exec_perm_ok hl hx hd), fun hy => ⟨?_, ?_⟩⟩
  · exact exec_stores_block (exec_g_ok hl hx hy hd)
  · exact exec_stores_block (exec_gx_ok hl hx hy hd)

end Sys2Proof.Machine
end

section
/-! PROOFS. Addressing: where the reference area of a position ends, that every reference is eligible, and what REFIDX and
ADDRGEN leave (R220–R241). -/

namespace Sys2Proof.Machine

section
variable {c : Cfg} {n r s l i : Nat}

/-! The domain and the reference area -/

/-- The domain of RefIndex (R232). -/
theorem positionOk_iff :
    positionOk c r s l i = true ↔ s < 4 ∧ l < c.p.toNat ∧ i < c.sl.toNat ∧ ¬(r = 0 ∧ s = 0 ∧ i < 2) := by
  simp only [positionOk, Bool.and_eq_true, Bool.not_eq_true', ← Bool.not_eq_true, decide_eq_true_eq, and_assoc]

/-- The table of R228, row by row. -/
theorem refArea_table (c : Cfg) (r s i : Nat) (same : Prop) [Decidable same] :
    refArea c r s i (decide same) =
      if r = 0 ∧ s = 0 then i - 1
      else if r = 0 ∧ same then s * c.sl.toNat + i - 1
      else if r = 0 then s * c.sl.toNat - if i = 0 then 1 else 0
      else if same then c.q.toNat - c.sl.toNat + i - 1
      else c.q.toNat - c.sl.toNat - if i = 0 then 1 else 0 := by
  by_cases hr : r = 0
  · by_cases hs : s = 0
    · simp [refArea, hr, hs]
    · simp [refArea, hr, hs]
  · simp [refArea, hr]

/-- The cases of R230. -/
theorem refStart_table (c : Cfg) (r s : Nat) :
    refStart c r s = if r = 0 then 0 else if s = 3 then 0 else (s + 1) * c.sl.toNat := by
  by_cases hr : r = 0 <;> simp [refStart, hr]

theorem refIndex_column (c : Cfg) (r s l i J₁ J₂ : Nat) :
    (refIndex c r s l i J₁ J₂).column = ((refIndex c r s l i J₁ J₂).start
      + refRelative (refIndex c r s l i J₁ J₂).area J₁) % c.q.toNat := rfl

/-- The columns of a lane that a position may refer to wherever it stands in its segment: those of the slices before it in
pass 0, all but its own segment in a later pass (R228). -/
def finishedColumns (c : Cfg) (r s : Nat) : Nat := if r = 0 then s * c.sl.toNat else c.q.toNat - c.sl.toNat

/-- R228 in two rows: the own lane adds the blocks before the previous one, another lane loses its last block at i = 0. -/
theorem refArea_eq {same : Bool} (h : r = 0 → s = 0 → same = true) :
    refArea c r s i same
      = if same then finishedColumns c r s + i - 1 else finishedColumns c r s - if i = 0 then 1 else 0 := by
  by_cases hr : r = 0
  · by_cases hs : s = 0
    · simp [refArea, finishedColumns, hr, hs, h hr hs]
    · simp [refArea, finishedColumns, hr, hs]
  · simp [refArea, finishedColumns, hr]

/-- The finished columns fill at least one segment, but in slice 0 of pass 0, and never the whole lane. -/
theorem finishedColumns_bounds (hv : c.Valid n) (hs : s < 4) :
    (¬(r = 0 ∧ s = 0) → c.sl.toNat ≤ finishedColumns c r s) ∧ finishedColumns c r s + c.sl.toNat ≤ c.q.toNat := by
  have hq := hv.columns
  have hle : s * c.sl.toNat ≤ 3 * c.sl.toNat := Nat.mul_le_mul_right _ (by omega)
  have hge : s ≠ 0 → c.sl.toNat ≤ s * c.sl.toNat := fun h => Nat.le_mul_of_pos_left _ (Nat.pos_of_ne_zero h)
  unfold finishedColumns
  split <;> omega

/-- The finished columns end where the slice of the position begins, counted round the lane after pass 0 (R230). -/
theorem refStart_finishedColumns (hv : c.Valid n) (hs : s < 4) :
    refStart c r s = 0 ∧ finishedColumns c r s = s * c.sl.toNat ∨
      0 < r ∧ refStart c r s = s * c.sl.toNat + c.sl.toNat ∧ refStart c r s < c.q.toNat ∧
        refStart c r s + finishedColumns c r s = c.q.toNat + s * c.sl.toNat := by
  have hq := hv.columns
  have hge := hv.segment_ge
  by_cases hr : r = 0
  · exact .inl ⟨if_pos (.inl hr), if_pos hr⟩
  · by_cases h3 : s = 3
    · refine .inl ⟨if_pos (.inr h3), ?_⟩
      rw [finishedColumns, if_neg hr, h3]
      omega
    · have hst : refStart c r s = s * c.sl.toNat + c.sl.toNat :=
        (if_neg (not_or.2 ⟨hr, h3⟩)).trans (Nat.succ_mul s _)
      have hle : s * c.sl.toNat ≤ 2 * c.sl.toNat := Nat.mul_le_mul_right _ (by omega)
      refine .inr ⟨Nat.pos_of_ne_zero hr, hst, ?_⟩
      rw [finishedColumns, if_neg hr, hst]
      omega

/-- A column counted from the start: one within the finished columns and `k` more, `a` columns before their end, lies `a`
columns before position `k` of the slice, or, after pass 0, behind the slice. -/
theorem refStart_add_mod (hv : c.Valid n) (hs : s < 4) {z a k : Nat} (hz : z + a < finishedColumns c r s + k)
    (hk : k ≤ c.sl.toNat) :
    (refStart c r s + z) % c.q.toNat + a < s * c.sl.toNat + k ∨
      0 < r ∧ s * c.sl.toNat + c.sl.toNat ≤ (refStart c r s + z) % c.q.toNat ∧
        (refStart c r s + z) % c.q.toNat + a < c.q.toNat + (s * c.sl.toNat + k) := by
  have hfin := (finishedColumns_bounds (r := r) hv hs).2
  have hzq : z < c.q.toNat := by omega
  obtain ⟨hst, hend⟩ | ⟨hr, hst, hlt, hend⟩ := refStart_finishedColumns (r := r) hv hs
  · left
    rw [hst, Nat.zero_add, Nat.mod_eq_of_lt hzq]
    omega
  · by_cases hwrap : refStart c r s + z < c.q.toNat
    · right
      rw [Nat.mod_eq_of_lt hwrap]
      omega
    · left
      rw [Nat.mod_eq_sub_mod (Nat.not_lt.1 hwrap), Nat.mod_eq_of_lt (by omega)]
      omega

theorem refStart_lt (hv : c.Valid n) (hs : s < 4) : refStart c r s < c.q.toNat := by
  have := hv.columns_ge
  obtain ⟨h, -⟩ | ⟨-, -, h, -⟩ := refStart_finishedColumns (r := r) hv hs <;> omega

/-! The reference of a position -/

section
variable (hv : c.Valid n) (hp : positionOk c r s l i = true) (J₁ J₂ : Nat)
include hv hp

/-- The area of a position is not empty; it ends before the previous block in the own lane, with the finished columns in
another (R228, R233 (a)). -/
theorem refIndex_area_bounds :
    1 ≤ (refIndex c r s l i J₁ J₂).area ∧
      ((refIndex c r s l i J₁ J₂).lane = l → (refIndex c r s l i J₁ J₂).area + 1 = finishedColumns c r s + i) ∧
      ((refIndex c r s l i J₁ J₂).lane ≠ l → (refIndex c r s l i J₁ J₂).area ≤ finishedColumns c r s) := by
  obtain ⟨hs, -, -, hdom⟩ := positionOk_iff.1 hp
  have hsl := hv.segment_ge
  have hfin := (finishedColumns_bounds (r := r) hv hs).1
  have hown : r = 0 → s = 0 → decide (refLane c r s l J₂ = l) = true :=
    fun hr hs => decide_eq_true (if_pos ⟨hr, hs⟩)
  simp only [refIndex, refArea_eq hown, decide_eq_true_eq]
  by_cases hlane : refLane c r s l J₂ = l
  · rw [if_pos hlane]
    omega
  · have hlater : ¬(r = 0 ∧ s = 0) := fun h => hlane (if_pos h)
    rw [if_neg hlane]
    split <;> omega

theorem refIndex_area_lt : (refIndex c r s l i J₁ J₂).area < c.q.toNat := by
  obtain ⟨hs, -, hi, -⟩ := positionOk_iff.1 hp
  have hfin := (finishedColumns_bounds (r := r) hv hs).2
  have hsl := hv.segment_ge
  obtain ⟨-, hown, hother⟩ := refIndex_area_bounds hv hp J₁ J₂
  by_cases hlane : (refIndex c r s l i J₁ J₂).lane = l
  · have := hown hlane
    omega
  · have := hother hlane
    omega

/-- The reference column in the own lane: before the previous block, or, after pass 0, behind the segment and not in the
last column when that holds the previous block. -/
theorem refIndex_column_own (h : (refIndex c r s l i J₁ J₂).lane = l) :
    (refIndex c r s l i J₁ J₂).column + 1 < s * c.sl.toNat + i ∨
      0 < r ∧ s * c.sl.toNat + c.sl.toNat ≤ (refIndex c r s l i J₁ J₂).column ∧
        (refIndex c r s l i J₁ J₂).column + 1 < c.q.toNat + (s * c.sl.toNat + i) := by
  obtain ⟨hs, -, hi, -⟩ := positionOk_iff.1 hp
  obtain ⟨hpos, hown, -⟩ := refIndex_area_bounds hv hp J₁ J₂
  have hz : refRelative (refIndex c r s l i J₁ J₂).area J₁ + 1 < finishedColumns c r s + i :=
    (Nat.succ_lt_succ (refRelative_lt hpos J₁)).trans_eq (hown h)
  exact refStart_add_mod hv hs hz hi.le

/-- The reference column in another lane: before the slice, or, after pass 0, behind it. -/
theorem refIndex_column_other (h : (refIndex c r s l i J₁ J₂).lane ≠ l) :
    (refIndex c r s l i J₁ J₂).column < s * c.sl.toNat ∨
      0 < r ∧ s * c.sl.toNat + c.sl.toNat ≤ (refIndex c r s l i J₁ J₂).column := by
  obtain ⟨hs, -, -, -⟩ := positionOk_iff.1 hp
  obtain ⟨hpos, -, hother⟩ := refIndex_area_bounds hv hp J₁ J₂
  have hz := (refRelative_lt hpos J₁).trans_le (hother h)
  exact (refStart_add_mod hv hs (a := 0) (k := 0) hz (Nat.zero_le _)).imp_right fun ⟨hr, hbehind, _⟩ => ⟨hr, hbehind⟩

end
end

/-- Settles O43: where the reference column lies in the own lane and in another gives every clause. -/
theorem referencesAreAlwaysEligible : Obligations.ReferencesAreAlwaysEligible := by
  intro c n r s l i J₁ J₂ hv hp _ x SL col
  obtain ⟨hs, hl, hi, -⟩ := positionOk_iff.1 hp
  have hpos : 1 ≤ x.area := (refIndex_area_bounds hv hp J₁ J₂).1
  have hcol : col < c.q.toNat := hv.column_lt hs hi
  have hi' : i < SL := hi
  have hown : x.lane = l → x.column + 1 < col ∨ 0 < r ∧ s * SL + SL ≤ x.column ∧ x.column + 1 < c.q.toNat + col :=
    refIndex_column_own hv hp J₁ J₂
  have hother : x.lane ≠ l → x.column < s * SL ∨ 0 < r ∧ s * SL + SL ≤ x.column := refIndex_column_other hv hp J₁ J₂
  have hdef : col = s * SL + i := rfl
  refine ⟨hpos, refRelative_lt hpos J₁, refIndex_lane_lt hv hl J₁ J₂, refIndex_column_lt hv J₁ J₂, ?_, ?_, ?_, ?_, ?_, ?_⟩
  · rintro ⟨hlane, hx⟩
    have := hown hlane
    omega
  · intro hlane
    have := hown hlane
    unfold prevColumn
    split <;> omega
  · intro hr hlane
    have := hown hlane
    omega
  · intro hr hlane
    have := hother hlane
    omega
  · intro hlane
    have := hother hlane
    omega
  · intro hlane hge hlt
    have := hown hlane
    omega

/-! REFIDX -/

/-- A number below a register's value is not cut to 32 bits. -/
theorem toNat_ofNat_of_lt_word {x : Nat} {w : Word} (h : x < w.toNat) : (BitVec.ofNat 32 x).toNat = x :=
  (BitVec.toNat_ofNat x 32).trans (Nat.mod_eq_of_lt (h.trans w.isLt))

variable {s : State} {rec : Latch}

/-- REFIDX at a position of its domain (R240). -/
theorem exec_refidx_ok (hl : s.latch = some rec) (hk : s.status.cfgok = true)
    (hp : positionOk s.cfg rec.args.arg0.toNat rec.args.arg1.toNat rec.args.arg2.toNat rec.args.arg3.toNat = true) :
    let x := refIndex s.cfg rec.args.arg0.toNat rec.args.arg1.toNat rec.args.arg2.toNat rec.args.arg3.toNat
      rec.args.arg4.toNat rec.args.arg5.toNat
    exec .refidx s = .next (s.withRes ⟨BitVec.ofNat 32 x.lane, BitVec.ofNat 32 x.column, BitVec.ofNat 32 x.area,
      BitVec.ofNat 32 x.start⟩).complete := by
  simp only [exec, execRefidx, State.operand_of_latch hl, Args.get, hk, hp, Bool.not_true, Bool.false_eq_true, if_false]

/-- Settles O42: the four results are those of RefIndex, and all fit a register. -/
theorem refidxAnswersTheReference : Obligations.RefidxAnswersTheReference := by
  intro s rec hinv hl hk r sl l i J1 J2 p q SL hsl hlp hi hdom rl one W z st
  have hv := hinv.cfg_valid hk
  have hs : sl < 4 := Nat.lt_succ_of_le hsl
  have hp : positionOk s.cfg r sl l i = true := positionOk_iff.2 ⟨hs, hlp, hi, hdom⟩
  have hW : (refIndex s.cfg r sl l i J1 J2).area = W := refArea_table s.cfg r sl i _
  have hst : (refIndex s.cfg r sl l i J1 J2).start = st := refStart_table s.cfg r sl
  have hcol : (refIndex s.cfg r sl l i J1 J2).column = (st + z) % q := by
    rw [refIndex_column, hW, hst]
    rfl
  have ht := exec_refidx_ok hl hk hp
  refine ⟨_, ht, ?_, ?_, ?_, ?_, rfl, rfl, ⟨rfl, rfl⟩, exec_keeps_host ht⟩
  · exact toNat_ofNat_of_lt_word (refIndex_lane_lt hv hlp J1 J2)
  · exact (toNat_ofNat_of_lt_word (refIndex_column_lt hv J1 J2)).trans hcol
  · exact (toNat_ofNat_of_lt_word (refIndex_area_lt hv hp J1 J2)).trans hW
  · exact (toNat_ofNat_of_lt_word (refStart_lt hv hs)).trans hst

/-! ADDRGEN -/

/-- The words of the address input block (R223). -/
theorem addrInput_toList (c : Cfg) (r s l k : Nat) :
    (addrInput c r s l k).toList = [BitVec.ofNat 64 r, BitVec.ofNat 64 l, BitVec.ofNat 64 s, c.mp.setWidth 64,
      c.t.setWidth 64, 2, BitVec.ofNat 64 k] ++ List.replicate 121 0 := by
  apply List.ext_getElem
  · simp
  · intro w hw _
    have hw' : w < 128 := by simpa using hw
    simp only [Vector.getElem_toList, addrInput, Vector.getElem_ofFn]
    by_cases h : w < 7
    · rw [dif_pos h, List.getElem_append_left h]
      interval_cases w <;> simp [Config.argon2Type]
    · rw [dif_neg h, List.getElem_append_right (Nat.not_lt.1 h), List.getElem_replicate]

/-- ADDRGEN with its block in LMEM (R241). -/
theorem exec_addrgen_ok (hl : s.latch = some rec) (hk : s.status.cfgok = true)
    (hd : rec.args.arg4.toNat < s.lmemBlocks) :
    exec .addrgen s = .next (s.withLmem (s.lmem.writeBlock rec.args.arg4.toNat (addrBlock s.cfg rec.args.arg0.toNat
      rec.args.arg1.toNat rec.args.arg2.toNat rec.args.arg3.toNat))).complete := by
  simp only [exec, execAddrgen, State.operand_of_latch hl, Args.get, hk, State.blockOk_iff.2 hd, Bool.not_true,
    Bool.false_eq_true, if_false]

/-- Settles O44: past its checks ADDRGEN stores the address block, and Z is the input block of R223. -/
theorem addrgenWritesTheAddressBlock : Obligations.AddrgenWritesTheAddressBlock := by
  intro s rec hl hk d hd
  obtain ⟨t, ht, hrest⟩ := exec_stores_block (exec_addrgen_ok hl hk hd)
  refine ⟨t, addrInput s.cfg _ _ _ _, ht, ?_, hrest⟩
  simp only [addrInput_toList, BitVec.ofNat_toNat]

end Sys2Proof.Machine
end

section
/-! PROOFS. The fill (R271–R277, R291, R292): what a position reads is none of the places still to be filled in its slice,
so a segment leaves the equation of R272 over its own matrix, and the lanes of a slice may be filled in any order or
interleaved. -/

namespace Sys2Proof.Machine

variable {c : Cfg} {n r s l l' i k : Nat} {m : Memory}

/-! What the block of a position is computed from -/

/-- G of the previous block and the reference block of position (r, s, l, i) over the matrix in `m` (R272). -/
def mixedBlock (c : Cfg) (r s l i : Nat) (m : Memory) : Block :=
  let prev := m.readBlock (matrixBlock c l (prevColumn c (s * c.sl.toNat + i)))
  let J := positionWord c r s l i prev
  let ref := refIndex c r s l i (lo32 J).toNat (hi32 J).toNat
  compress prev (m.readBlock (matrixBlock c ref.lane ref.column))

theorem fillValue_eq_mixedBlock (c : Cfg) (r s l i : Nat) (m : Memory) :
    fillValue c r s l i m = if 0 < r then
      xorBlock (mixedBlock c r s l i m) (m.readBlock (matrixBlock c l (s * c.sl.toNat + i)))
    else mixedBlock c r s l i m := rfl

/-- The two sources of J (R220, R225). -/
theorem positionWord_eq (c : Cfg) (r s l i : Nat) (prev : Block) :
    positionWord c r s l i prev
      = if r = 0 ∧ s < 2 then (addrBlock c r s l (i / 128 + 1))[i % 128] else prev[0] := by
  simp only [positionWord, dataIndependent, independentWord, Bool.and_eq_true, decide_eq_true_eq]

/-- The positions a segment computes lie in the domain of R232. -/
theorem positionOk_of_fillStart_le (hs : s < 4) (hl : l < c.p.toNat) (hi : fillStart r s ≤ i) (hi' : i < c.sl.toNat) :
    positionOk c r s l i = true := by
  refine positionOk_iff.2 ⟨hs, hl, hi', fun ⟨hr, hs0, hlt⟩ => ?_⟩
  rw [fillStart, if_pos ⟨hr, hs0⟩] at hi
  omega

/-- The previous column of a position is none of the columns from it to the end of its segment. -/
theorem prevColumn_ne (hv : c.Valid n) (hk : k < c.sl.toNat) (hik : i ≤ k) :
    prevColumn c (s * c.sl.toNat + i) ≠ s * c.sl.toNat + k := by
  have hq := hv.columns
  unfold prevColumn
  split <;> omega

/-- The reference of a position is no block of its slice in another lane, and none from it on in its own (R233). -/
theorem refIndex_column_ne (hv : c.Valid n) (hp : positionOk c r s l i = true) (hk : k < c.sl.toNat) {J₁ J₂ : Nat}
    (hik : (refIndex c r s l i J₁ J₂).lane = l → i ≤ k) :
    (refIndex c r s l i J₁ J₂).column ≠ s * c.sl.toNat + k := by
  by_cases hlane : (refIndex c r s l i J₁ J₂).lane = l
  · have := refIndex_column_own hv hp J₁ J₂ hlane
    have := hik hlane
    omega
  · have := refIndex_column_other hv hp J₁ J₂ hlane
    omega

/-- A block written to another place of the matrix. -/
theorem Memory.readBlock_writeBlock_place {col col' : Nat} (hc : col < c.q.toNat) (hc' : col' < c.q.toNat)
    (h : l = l' → col ≠ col') (B : Block) :
    (m.writeBlock (matrixBlock c l' col') B).readBlock (matrixBlock c l col) = m.readBlock (matrixBlock c l col) :=
  readBlock_writeBlock_ne _ _ _ _ fun e => h (matrixBlock_inj hc hc' e).1 (matrixBlock_inj hc hc' e).2

/-- What a position reads stays when its slice is filled in another lane, or in its own lane from the position on. -/
theorem mixedBlock_writeBlock (hv : c.Valid n) (hp : positionOk c r s l i = true) (hk : k < c.sl.toNat)
    (hik : l = l' → i ≤ k) (B : Block) :
    mixedBlock c r s l i (m.writeBlock (matrixBlock c l' (s * c.sl.toNat + k)) B) = mixedBlock c r s l i m := by
  obtain ⟨hs, -, hi, -⟩ := positionOk_iff.1 hp
  have hcol := hv.column_lt hs hk
  have href : ∀ J₁ J₂, (refIndex c r s l i J₁ J₂).lane = l' → (refIndex c r s l i J₁ J₂).column ≠ s * c.sl.toNat + k :=
    fun J₁ J₂ h => refIndex_column_ne hv hp hk fun hl => hik (hl.symm.trans h)
  simp only [mixedBlock]
  rw [Memory.readBlock_writeBlock_place (prevColumn_lt (hv.column_lt hs hi)) hcol
      (fun h => prevColumn_ne hv hk (hik h)),
    Memory.readBlock_writeBlock_place (refIndex_column_lt hv _ _) hcol (href _ _)]

/-! One segment -/

/-- A property kept by block writes at the positions of a segment is kept by the segment. -/
theorem fillSegment_keeps_of {Q : Memory → Prop} (h : Q m)
    (hQ : ∀ i m B, fillStart r s ≤ i → i < c.sl.toNat → Q m →
      Q (m.writeBlock (matrixBlock c l (s * c.sl.toNat + i)) B)) :
    Q (fillSegment c r s l m) :=
  foldl_keeps Q _ _ _ h fun i hi _ hm => by
    have := List.mem_range'_1.1 hi
    exact hQ i _ _ this.1 (by omega) hm

/-- `m'` is `m` with the segment filled up to index `k`: the positions below `k` satisfy R272 over `m'`, the old block
taken from `m`, and those from `k` on are as they were. -/
structure SegmentFilled (c : Cfg) (r s l : Nat) (m : Memory) (k : Nat) (m' : Memory) : Prop where
  filled : ∀ i, fillStart r s ≤ i → i < k → m'.readBlock (matrixBlock c l (s * c.sl.toNat + i))
    = if 0 < r then xorBlock (mixedBlock c r s l i m') (m.readBlock (matrixBlock c l (s * c.sl.toNat + i)))
      else mixedBlock c r s l i m'
  untouched : ∀ i, k ≤ i → i < c.sl.toNat →
    m'.readBlock (matrixBlock c l (s * c.sl.toNat + i)) = m.readBlock (matrixBlock c l (s * c.sl.toNat + i))

theorem SegmentFilled.succ {m' : Memory} (hv : c.Valid n) (hs : s < 4) (hl : l < c.p.toNat) (hk : fillStart r s ≤ k)
    (hk' : k < c.sl.toNat) (h : SegmentFilled c r s l m k m') :
    SegmentFilled c r s l m (k + 1) (fillPosition c r s l k m') := by
  have hother : ∀ i, i < c.sl.toNat → i ≠ k →
      (fillPosition c r s l k m').readBlock (matrixBlock c l (s * c.sl.toNat + i))
        = m'.readBlock (matrixBlock c l (s * c.sl.toNat + i)) := fun i hi hne =>
    Memory.readBlock_writeBlock_place (hv.column_lt hs hi) (hv.column_lt hs hk') (fun _ => by omega) _
  have hmixed : ∀ i, fillStart r s ≤ i → i ≤ k →
      mixedBlock c r s l i (fillPosition c r s l k m') = mixedBlock c r s l i m' := fun i hi hik =>
    mixedBlock_writeBlock hv (positionOk_of_fillStart_le hs hl hi (by omega)) hk' (fun _ => hik) _
  refine ⟨fun i hi hik => ?_, fun i hik hi => ?_⟩
  · rw [hmixed i hi (by omega)]
    rcases Nat.lt_succ_iff_lt_or_eq.1 hik with hlt | rfl
    · rw [hother i (by omega) (by omega), h.filled i hi hlt]
    · rw [fillPosition_eq_writeBlock, Memory.readBlock_writeBlock, fillValue_eq_mixedBlock,
        h.untouched i (le_refl i) hk']
  · rw [hother i hi (by omega), h.untouched i (by omega) hi]

/-- A segment leaves the equation of R272 at each of its positions. -/
theorem fillSegment_segmentFilled (hv : c.Valid n) (hs : s < 4) (hl : l < c.p.toNat) (m : Memory) :
    SegmentFilled c r s l m c.sl.toNat (fillSegment c r s l m) := by
  have hle := fillStart_le hv r s
  have hfold := foldl_range'_related (m := m) (m' := m) (fun k _ m' => SegmentFilled c r s l m k m')
    (fun m i => fillPosition c r s l i m) (fillStart r s) (c.sl.toNat - fillStart r s)
    ⟨fun i hi hlt => absurd hi (by omega), fun _ _ _ => rfl⟩
    fun i hi hi' _ _ hm => hm.succ hv hs hl hi (by omega)
  rwa [Nat.add_sub_cancel' hle] at hfold

/-! FILLSEG -/

/-- FILLSEG with r, s and l in bounds (R291). -/
theorem exec_fillseg_ok {s : State} {rec : Latch} (hlatch : s.latch = some rec) (hk : s.status.cfgok = true)
    (hr : rec.args.arg0.toNat < s.cfg.t.toNat) (hs : rec.args.arg1.toNat ≤ 3)
    (hl : rec.args.arg2.toNat < s.cfg.p.toNat) :
    exec .fillseg s = .next (s.withLmem
      (fillSegment s.cfg rec.args.arg0.toNat rec.args.arg1.toNat rec.args.arg2.toNat s.lmem)).complete := by
  simp only [exec, execFillseg, State.operand_of_latch hlatch, Args.get, hk, Nat.not_le.2 hr, Nat.not_lt.2 hs,
    Nat.not_le.2 hl, decide_false, Bool.or_self, Bool.not_true, Bool.false_eq_true, if_false]

/-- Settles O46: the segment leaves the equation at its positions and writes only their blocks. -/
theorem fillsegFillsItsSegment : Obligations.FillsegFillsItsSegment := by
  intro s rec hinv hlatch hk r sl l q SL st hr hsl hl
  have hv := hinv.cfg_valid hk
  have ht := exec_fillseg_ok hlatch hk hr hsl hl
  refine ⟨_, ht, fun i hi hi' => ?_, fun x hx => ?_, rfl, rfl, ⟨rfl, rfl⟩, exec_keeps_host ht⟩
  · have heq := (fillSegment_segmentFilled (r := r) hv (Nat.lt_succ_of_le hsl) hl s.lmem).filled i hi hi'
    simp only [mixedBlock, positionWord_eq] at heq
    exact heq
  · refine fillSegment_keeps_of (Q := fun m => m.readByte x = s.lmem.readByte x) rfl fun i m B hi hi' hm => ?_
    have hst : st ≤ i := hi
    have hSL : i < SL := hi'
    have hblock : matrixBlock s.cfg l (sl * s.cfg.sl.toNat + i) = l * q + (sl * SL + i) := rfl
    exact (Memory.readByte_writeBlock_out _ _ _ _ (by rw [hblock]; omega)).trans hm

/-! Lanes commute -/

theorem fillPosition_wf (h : m.wf = true) : (fillPosition c r s l i m).wf = true := Memory.writeBlock_wf _ _ _ h

/-- A position is given the same block before and after a position of its slice in another lane is filled. -/
theorem fillValue_writeBlock_of_ne (hv : c.Valid n) (hp : positionOk c r s l i = true) (hk : k < c.sl.toNat)
    (hne : l ≠ l') (B : Block) :
    fillValue c r s l i (m.writeBlock (matrixBlock c l' (s * c.sl.toNat + k)) B) = fillValue c r s l i m := by
  obtain ⟨hs, -, hi, -⟩ := positionOk_iff.1 hp
  rw [fillValue_eq_mixedBlock, fillValue_eq_mixedBlock, mixedBlock_writeBlock hv hp hk fun h => absurd h hne,
    Memory.readBlock_writeBlock_place (hv.column_lt hs hi) (hv.column_lt hs hk) fun h => absurd h hne]

/-- Positions of one slice in different lanes may be filled in either order (R277). -/
theorem fillPosition_comm (hv : c.Valid n) (hp : positionOk c r s l i = true) (hp' : positionOk c r s l' k = true)
    (hne : l ≠ l') (hm : m.wf = true) :
    fillPosition c r s l i (fillPosition c r s l' k m) = fillPosition c r s l' k (fillPosition c r s l i m) := by
  obtain ⟨hs, -, hi, -⟩ := positionOk_iff.1 hp
  obtain ⟨-, -, hk, -⟩ := positionOk_iff.1 hp'
  have hplace : matrixBlock c l' (s * c.sl.toNat + k) ≠ matrixBlock c l (s * c.sl.toNat + i) := fun e =>
    hne (matrixBlock_inj (hv.column_lt hs hk) (hv.column_lt hs hi) e).1.symm
  simp only [fillPosition_eq_writeBlock]
  rw [fillValue_writeBlock_of_ne hv hp hk hne, fillValue_writeBlock_of_ne hv hp' hi hne.symm,
    Memory.writeBlock_comm _ _ _ _ _ hm hplace]

/-- `k` positions of one lane, from index `i` on. -/
def fillRun (c : Cfg) (r s l i k : Nat) (m : Memory) : Memory :=
  (List.range' i k).foldl (fun m i => fillPosition c r s l i m) m

theorem fillRun_succ (c : Cfg) (r s l i k : Nat) (m : Memory) :
    fillRun c r s l i (k + 1) m = fillRun c r s l (i + 1) k (fillPosition c r s l i m) := rfl

theorem fillSegment_eq_fillRun (c : Cfg) (r s l : Nat) (m : Memory) :
    fillSegment c r s l m = fillRun c r s l (fillStart r s) (c.sl.toNat - fillStart r s) m := rfl

theorem fillRun_wf (h : m.wf = true) : (fillRun c r s l i k m).wf = true :=
  foldl_keeps (fun m : Memory => m.wf = true) _ _ _ h fun _ _ _ hm => fillPosition_wf hm

/-- Filling a position commutes with the positions of another lane of its slice. -/
theorem fillRun_fillPosition_comm {j : Nat} (hv : c.Valid n) (hl : l < c.p.toNat) (hi : fillStart r s ≤ i)
    (hik : i + k ≤ c.sl.toNat) (hp : positionOk c r s l' j = true) (hne : l ≠ l') (hm : m.wf = true) :
    fillRun c r s l i k (fillPosition c r s l' j m) = fillPosition c r s l' j (fillRun c r s l i k m) := by
  induction k generalizing i m with
  | zero => rfl
  | succ k ih =>
    have hpi := positionOk_of_fillStart_le (positionOk_iff.1 hp).1 hl hi (by omega)
    rw [fillRun_succ, fillRun_succ, fillPosition_comm hv hpi hp hne hm,
      ih (by omega) (by omega) (fillPosition_wf hm)]

/-! Any interleaving of a slice -/

/-- The lanes of `L` one after the other, each from where the lanes in `filled` leave it, over as many positions as it
occurs in `todo`. -/
def fillLanes (c : Cfg) (r s : Nat) (filled todo L : List Nat) (m : Memory) : Memory :=
  L.foldl (fun m l => fillRun c r s l (fillStart r s + filled.count l) (todo.count l) m) m

theorem fillLanes_cons (c : Cfg) (r s : Nat) (filled todo L : List Nat) (l : Nat) (m : Memory) :
    fillLanes c r s filled todo (l :: L) m = fillLanes c r s filled todo L
      (fillRun c r s l (fillStart r s + filled.count l) (todo.count l) m) := rfl

/-- The next position of a lane that is not among `L` does not matter to the lanes of `L`. -/
theorem fillLanes_of_notMem {filled todo L : List Nat} (h : l ∉ L) :
    fillLanes c r s (l :: filled) todo L m = fillLanes c r s filled (l :: todo) L m :=
  List.foldl_ext _ _ _ fun _ l' hl' => by
    have hne : l ≠ l' := fun e => h (e ▸ hl')
    rw [List.count_cons_of_ne hne, List.count_cons_of_ne hne]

/-- Filling the next position of a lane first is filling it when its lane comes. -/
theorem fillLanes_fillPosition {filled todo L : List Nat} (hv : c.Valid n) (hs : s < 4) (hL : L.Nodup)
    (hp : ∀ l ∈ L, l < c.p.toNat) (hl : l ∈ L)
    (hb : ∀ l', fillStart r s + filled.count l' + (l :: todo).count l' ≤ c.sl.toNat) (hm : m.wf = true) :
    fillLanes c r s (l :: filled) todo L (fillPosition c r s l (fillStart r s + filled.count l) m)
      = fillLanes c r s filled (l :: todo) L m := by
  induction L generalizing m with
  | nil => cases hl
  | cons l' L ih =>
    obtain ⟨hnot, hL⟩ := List.nodup_cons.1 hL
    obtain ⟨hl', hp⟩ := List.forall_mem_cons.1 hp
    rw [fillLanes_cons, fillLanes_cons]
    by_cases he : l = l'
    · subst he
      rw [List.count_cons_self, List.count_cons_self, ← Nat.add_assoc, ← fillRun_succ, fillLanes_of_notMem hnot]
    · have hmem : l ∈ L := (List.mem_cons.1 hl).resolve_left he
      have hb' := hb l'
      have hbl := hb l
      rw [List.count_cons_self] at hbl
      rw [List.count_cons_of_ne he] at hb' ⊢
      have hpos := positionOk_of_fillStart_le hs (hp l hmem) (Nat.le_add_right (fillStart r s) (filled.count l))
        (by omega)
      rw [List.count_cons_of_ne he, fillRun_fillPosition_comm hv hl' (Nat.le_add_right _ _) hb' hpos (Ne.symm he) hm]
      exact ih hL hp hmem (fillRun_wf hm)

/-- A schedule of lanes fills what its lanes fill one after the other. -/
theorem fillInterleaved_eq_fillLanes {filled todo L : List Nat} (hv : c.Valid n) (hs : s < 4) (hL : L.Nodup)
    (hp : ∀ l ∈ L, l < c.p.toNat) (hsub : ∀ l ∈ todo, l ∈ L)
    (hb : ∀ l, fillStart r s + filled.count l + todo.count l ≤ c.sl.toNat) (hm : m.wf = true) :
    fillInterleaved c r s todo filled m = fillLanes c r s filled todo L m := by
  induction todo generalizing filled m with
  | nil => exact (List.foldl_fixed L).symm
  | cons l todo ih =>
    obtain ⟨hl, hsub⟩ := List.forall_mem_cons.1 hsub
    have hb' : ∀ l', fillStart r s + (l :: filled).count l' + todo.count l' ≤ c.sl.toNat := fun l' => by
      have := hb l'
      rw [List.count_cons] at this ⊢
      omega
    rw [fillInterleaved, ih hsub hb' (fillPosition_wf hm), fillLanes_fillPosition hv hs hL hp hl hb hm]

theorem count_flatMap_replicate (L : List Nat) (k a : Nat) :
    (L.flatMap fun l => List.replicate k l).count a = k * L.count a := by
  induction L with
  | nil => rfl
  | cons l L ih =>
    rw [List.flatMap_cons, List.count_append, ih, List.count_replicate, List.count_cons]
    split <;> ring

/-- Any interleaving of a slice is its lanes one after the other, in any order (R277). -/
theorem fillInterleaved_eq_fillSlice {schedule L : List Nat} (hv : c.Valid n) (hs : s < 4)
    (hsched : schedule.Perm
      ((List.range c.p.toNat).flatMap fun l => List.replicate (c.sl.toNat - fillStart r s) l))
    (hL : L.Perm (List.range c.p.toNat)) (hm : m.wf = true) :
    fillInterleaved c r s schedule [] m = fillSlice c r s L m := by
  have hnodup : L.Nodup := hL.nodup_iff.2 List.nodup_range
  have hcount : ∀ l, schedule.count l = (c.sl.toNat - fillStart r s) * L.count l := fun l => by
    rw [hsched.count_eq, count_flatMap_replicate, hL.count_eq]
  have hmem : ∀ l ∈ L, schedule.count l = c.sl.toNat - fillStart r s := fun l hl => by
    rw [hcount, List.count_eq_one_of_mem hnodup hl, Nat.mul_one]
  have hsub : ∀ l ∈ schedule, l ∈ L := fun l hl => by
    obtain ⟨l', hl', hrep⟩ := List.mem_flatMap.1 (hsched.mem_iff.1 hl)
    exact List.eq_of_mem_replicate hrep ▸ hL.mem_iff.2 hl'
  have hb : ∀ l, fillStart r s + ([] : List Nat).count l + schedule.count l ≤ c.sl.toNat := fun l => by
    have hone := Nat.mul_le_mul_left (c.sl.toNat - fillStart r s) (List.nodup_iff_count_le_one.1 hnodup l)
    have hle := fillStart_le hv r s
    rw [hcount, List.count_nil]
    omega
  rw [fillInterleaved_eq_fillLanes hv hs hnodup (fun l hl => List.mem_range.1 (hL.mem_iff.1 hl)) hsub hb hm]
  refine List.foldl_ext _ _ _ fun m l hl => ?_
  rw [hmem l hl]
  rfl

/-- Settles O48: the model's order is one of the orders. -/
theorem laneInterleavingIsNotObservable : Obligations.LaneInterleavingIsNotObservable :=
  fun _ _ _ _ _ _ hv hs hm hsched => fillInterleaved_eq_fillSlice hv hs hsched (.refl _) hm

/-- The lanes of a slice in any order leave what they leave in ascending order (R277). -/
theorem fillSlice_perm {L : List Nat} (hv : c.Valid n) (hs : s < 4) (hL : L.Perm (List.range c.p.toNat))
    (hm : m.wf = true) : fillSlice c r s L m = fillSlice c r s (List.range c.p.toNat) m :=
  (fillInterleaved_eq_fillSlice hv hs (.refl _) hL hm).symm.trans
    (fillInterleaved_eq_fillSlice hv hs (.refl _) (.refl _) hm)

/-! FILL -/

theorem exec_fill_ok {s : State} (hk : s.status.cfgok = true) :
    exec .fill s = .next (s.withLmem (fillAll s.cfg s.lmem)).complete := by
  simp only [exec, execFill, hk, Bool.not_true, Bool.false_eq_true, if_false]

/-- One FILLSEG command is one segment (R291). -/
theorem afterFillseg_eq {s : State} (hk : s.status.cfgok = true) {sl : Nat} (hr : r < s.cfg.t.toNat) (hs : sl < 4)
    (hl : l < s.cfg.p.toNat) : afterFillseg s m (r, sl, l) = fillSegment s.cfg r sl l m := by
  have er : (BitVec.ofNat 32 r).toNat = r := toNat_ofNat_of_lt_word hr
  have el : (BitVec.ofNat 32 l).toNat = l := toNat_ofNat_of_lt_word hl
  have es : (BitVec.ofNat 32 sl).toNat = sl := (BitVec.toNat_ofNat sl 32).trans (Nat.mod_eq_of_lt (by omega))
  have hexec := exec_fillseg_ok (s := { s with
      lmem := m
      latch := some ⟨encode .fillseg, ⟨BitVec.ofNat 32 r, BitVec.ofNat 32 sl, BitVec.ofNat 32 l, 0, 0, 0⟩⟩ })
    rfl hk (er.trans_lt hr) (es.trans_le (Nat.le_of_lt_succ hs)) (el.trans_lt hl)
  simp only [afterFillseg, hexec, State.complete_lmem, State.withLmem_lmem, er, es, el]

/-- Two folds whose steps agree where a property holds that the second keeps. -/
theorem foldl_congr_of_keeps {α β : Type} (Q : β → Prop) {f g : β → α → β} {L : List α} {b : β} (hb : Q b)
    (hkeeps : ∀ x ∈ L, ∀ y, Q y → Q (g y x)) (h : ∀ x ∈ L, ∀ y, Q y → f y x = g y x) : L.foldl f b = L.foldl g b := by
  induction L generalizing b with
  | nil => rfl
  | cons x L ih =>
    obtain ⟨hx, hL⟩ := List.forall_mem_cons.1 h
    obtain ⟨hkx, hkL⟩ := List.forall_mem_cons.1 hkeeps
    rw [List.foldl_cons, List.foldl_cons, hx b hb]
    exact ih (hkx b hb) hkL hL

/-- FILLSEG commands slice by slice, the lanes of each in any order, are the whole fill (R275, R277). -/
theorem foldl_afterFillseg {s : State} (hv : s.cfg.Valid n) (hk : s.status.cfgok = true) {order : Nat → Nat → List Nat}
    (ho : ∀ r sl, (order r sl).Perm (List.range s.cfg.p.toNat)) (hm : m.wf = true) :
    (segmentsInOrder s.cfg.t.toNat order).foldl (afterFillseg s) m = fillAll s.cfg m := by
  have hslice : ∀ r sl m, r < s.cfg.t.toNat → sl < 4 → m.wf = true →
      ((order r sl).map fun l => (r, sl, l)).foldl (afterFillseg s) m
        = fillSlice s.cfg r sl (List.range s.cfg.p.toNat) m := fun r sl m hr hs hm => by
    rw [← fillSlice_perm hv hs (ho r sl) hm, List.foldl_map]
    exact List.foldl_ext _ _ _ fun m l hl =>
      afterFillseg_eq hk hr hs (List.mem_range.1 ((ho r sl).mem_iff.1 hl))
  have hwf := keptByWrites_wf s.cfg.mp.toNat
  rw [segmentsInOrder, List.foldl_flatMap]
  refine foldl_congr_of_keeps (fun m => m.wf = true) hm (fun r _ _ => fillPass_keeps hv hwf) fun r hr m hm => ?_
  rw [List.foldl_flatMap]
  refine foldl_congr_of_keeps (fun m => m.wf = true) hm (fun sl hs _ => ?_) fun sl hs m hm => ?_
  · exact fillSlice_keeps hv hwf (List.mem_range.1 hs) fun l hl => List.mem_range.1 hl
  · exact hslice r sl m (List.mem_range.1 hr) (List.mem_range.1 hs) hm

theorem two_le_columnsBefore (hv : c.Valid n) (s : Nat) : 2 ≤ columnsBefore c s := by
  cases s with
  | zero => exact Nat.le_add_left 2 _
  | succ s =>
    have := hv.segment_ge
    rw [columnsBefore_succ]
    omega

/-- Pass 0 leaves the two seed columns of every lane (R274). -/
theorem fillPass_first_keeps_seeds (hv : c.Valid n) (m : Memory) : SameColumns c (fun _ => 2) m (fillPass c 0 m) := by
  refine foldl_keeps (SameColumns c (fun _ => 2) m) _ _ _ (fun _ _ _ _ _ => rfl) fun s hs _ h => ?_
  refine foldl_keeps (SameColumns c (fun _ => 2) m) _ _ _ h fun l _ _ h => ?_
  refine fillSegment_keeps_of h fun i m' B hi hi' h l' col hl' hq hcol => ?_
  have hcol : col < 2 := hcol
  have hseed := two_le_columnsBefore hv s
  rw [columnsBefore] at hseed
  exact (Memory.readBlock_writeBlock_place hq (hv.column_lt (List.mem_range.1 hs) hi') (fun _ => by omega) B).trans
    (h l' col hl' hq hcol)

/-- Settles O47: the segments in any lane order are the fill, whose writes lie in the matrix. -/
theorem fillIsItsSegmentsInAnyLaneOrder : Obligations.FillIsItsSegmentsInAnyLaneOrder := by
  intro s hinv hk p q
  have hv := hinv.cfg_valid hk
  have ht := exec_fill_ok hk
  refine ⟨_, ht, fun order ho => foldl_afterFillseg hv hk ho hinv.lmem_wf, fun x hx => ?_, fun h1 l col hl hc => ?_, rfl,
    rfl, ⟨rfl, rfl⟩, exec_keeps_host ht⟩
  · exact fillAll_keeps hv (keptByWrites_above _ x _ (by omega)) rfl
  · have hq : col < s.cfg.q.toNat := hc.trans_le ((by decide : 2 ≤ 8).trans hv.columns_ge)
    have hpass : fillAll s.cfg s.lmem = fillPass s.cfg 0 s.lmem := by rw [fillAll, h1]; rfl
    rw [State.complete_lmem, State.withLmem_lmem, hpass]
    exact fillPass_first_keeps_seeds hv s.lmem l col hl hq hc

end Sys2Proof.Machine
end

section
/-! PROOFS. The two ends of the fill: SEED writes the seed blocks of every lane (R270, R290), FINAL the pre-key (R279,
R293). -/

namespace Sys2Proof.Machine

variable {c : Cfg} {n l k : Nat} {m : Memory} {s : State} {rec : Latch}

/-! SEED -/

theorem seedLane_eq (c : Cfg) (H0 : Bytes) (m : Memory) (l : Nat) :
    seedLane c H0 m l
      = (m.writeBlock (matrixBlock c l 0) (seedBlock H0 l 0)).writeBlock (matrixBlock c l 1) (seedBlock H0 l 1) := rfl

/-- The seed places of a lane hold its seed blocks. -/
theorem seedLane_readBlock (H0 : Bytes) {col : Nat} (hcol : col < 2) :
    (seedLane c H0 m l).readBlock (matrixBlock c l col) = seedBlock H0 l col := by
  rw [seedLane_eq]
  rcases Nat.le_one_iff_eq_zero_or_eq_one.1 (Nat.le_of_lt_succ hcol) with rfl | rfl
  · have hne : matrixBlock c l 0 ≠ matrixBlock c l 1 := fun e => absurd (Nat.add_left_cancel e) (by decide)
    rw [Memory.readBlock_writeBlock_ne _ _ _ _ hne, Memory.readBlock_writeBlock]
  · rw [Memory.readBlock_writeBlock]

/-- Seeding a lane leaves every other lane. -/
theorem seedLane_readBlock_of_ne (hv : c.Valid n) (H0 : Bytes) {l' col : Nat} (hcol : col < 2) (hne : l' ≠ l) :
    (seedLane c H0 m l).readBlock (matrixBlock c l' col) = m.readBlock (matrixBlock c l' col) := by
  have hq := hv.columns_ge
  have hplace : ∀ k, k < 2 → matrixBlock c l' col ≠ matrixBlock c l k := fun k hk e =>
    hne (matrixBlock_inj (by omega) (by omega) e).1
  rw [seedLane_eq, Memory.readBlock_writeBlock_ne _ _ _ _ (hplace 1 (by decide)),
    Memory.readBlock_writeBlock_ne _ _ _ _ (hplace 0 (by decide))]

/-- The lanes below `k` hold their seed blocks. -/
def SeededBelow (c : Cfg) (H0 : Bytes) (k : Nat) (m : Memory) : Prop :=
  ∀ l col, l < k → col < 2 → m.readBlock (matrixBlock c l col) = seedBlock H0 l col

theorem SeededBelow.succ {H0 : Bytes} (hv : c.Valid n) (h : SeededBelow c H0 k m) :
    SeededBelow c H0 (k + 1) (seedLane c H0 m k) := by
  intro l col hl hcol
  rcases Nat.lt_succ_iff_lt_or_eq.1 hl with hlt | rfl
  · rw [seedLane_readBlock_of_ne hv H0 hcol hlt.ne, h l col hlt hcol]
  · exact seedLane_readBlock H0 hcol

/-- SEED seeds every lane (R290). -/
theorem seedAll_seeded (hv : c.Valid n) (H0 : Bytes) (m : Memory) :
    SeededBelow c H0 c.p.toNat (seedAll c H0 m) :=
  foldl_range_related (m := m) (m' := m) (fun k _ m => SeededBelow c H0 k m) (seedLane c H0) _
    (fun _ _ hl => absurd hl (Nat.not_lt_zero _)) fun _ _ _ _ h => h.succ hv

/-- A byte of no seed block stays. -/
theorem seedAll_readByte_out (H0 : Bytes) {x : Nat} (hx : ∀ l col, l < c.p.toNat → col < 2 →
    x < 1024 * matrixBlock c l col ∨ 1024 * matrixBlock c l col + 1024 ≤ x) :
    (seedAll c H0 m).readByte x = m.readByte x := by
  refine foldl_keeps (fun m' => Memory.readByte m' x = m.readByte x) _ _ _ rfl fun l hl m' h => ?_
  have hl := List.mem_range.1 hl
  rw [seedLane_eq, Memory.readByte_writeBlock_out _ _ _ _ (hx l 1 hl (by decide)),
    Memory.readByte_writeBlock_out _ _ _ _ (hx l 0 hl (by decide)), h]

/-- SEED with its H0 in LMEM (R290). -/
theorem exec_seed_ok (hl : s.latch = some rec) (hk : s.status.cfgok = true)
    (hh : rec.args.arg0.toNat + 64 ≤ s.lmemBytes) :
    exec .seed s
      = .next (s.withLmem (seedAll s.cfg (s.lmem.readBytes rec.args.arg0.toNat 64) s.lmem)).complete := by
  simp only [exec, execSeed, State.operand_of_latch hl, Args.get, hk, State.rangeOk_iff.2 hh, Bool.not_true,
    Bool.false_eq_true, if_false]

/-- Settles O45: past its checks SEED seeds every lane from the H0 it read first. -/
theorem seedWritesTwoBlocksPerLane : Obligations.SeedWritesTwoBlocksPerLane := by
  intro s rec hinv hl hk h H0 hh
  have ht := exec_seed_ok hl hk hh
  exact ⟨_, ht, seedAll_seeded (hinv.cfg_valid hk) H0 s.lmem, fun x hx => seedAll_readByte_out H0 hx, rfl, rfl,
    ⟨rfl, rfl⟩, exec_keeps_host ht⟩

/-! FINAL -/

/-- Word k of an XOR of blocks is the XOR of their words k. -/
theorem foldl_xorBlock_getElem (f : Nat → Block) (L : List Nat) (B : Block) (hk : k < 128) :
    (L.foldl (fun C l => xorBlock C (f l)) B)[k] = B[k] ^^^ (L.map fun l => (f l)[k]).foldr (· ^^^ ·) 0 := by
  induction L generalizing B with
  | nil => exact BitVec.xor_zero.symm
  | cons l L ih => rw [List.foldl_cons, ih, xorBlock_getElem, BitVec.xor_assoc, List.map_cons, List.foldr_cons]

theorem preKey_getElem (c : Cfg) (m : Memory) (hk : k < 128) :
    (preKey c m)[k] = ((List.range c.p.toNat).map fun l =>
      (m.readBlock (matrixBlock c l (c.q.toNat - 1)))[k]).foldr (· ^^^ ·) 0 := by
  rw [preKey, foldl_xorBlock_getElem _ _ _ hk, zeroBlock_getElem]
  exact BitVec.zero_xor

/-- FINAL with its block in LMEM (R293). -/
theorem exec_final_ok (hl : s.latch = some rec) (hk : s.status.cfgok = true)
    (hd : rec.args.arg0.toNat < s.lmemBlocks) :
    exec .final s
      = .next (s.withLmem (s.lmem.writeBlock rec.args.arg0.toNat (preKey s.cfg s.lmem))).complete := by
  simp only [exec, execFinal, State.operand_of_latch hl, Args.get, hk, State.blockOk_iff.2 hd, Bool.not_true,
    Bool.false_eq_true, if_false]

/-- Settles O50: past its checks FINAL stores the pre-key. -/
theorem finalWritesThePreKey : Obligations.FinalWritesThePreKey := by
  intro s rec hl hk d q hd
  obtain ⟨t, ht, hread, hrest⟩ := exec_stores_block (exec_final_ok hl hk hd)
  refine ⟨t, ht, fun k hk => ?_, hrest⟩
  rw [hread, preKey_getElem]
  rfl

end Sys2Proof.Machine
end

section
/-! PROOFS. The host's derivation (R281, R282): the length of the H0 input, and that the run of its script ends with LMEM
and RES zeroized on every path. -/

namespace Sys2Proof.Machine

variable {s : State} {b : Bus}

/-! The H0 input -/

/-- Settles O51: ten LE32 words and the four strings. -/
theorem h0InputHasTheStatedLength : Obligations.H0InputHasTheStatedLength := by
  intro p τ m t P S K X
  refine ⟨?_, rfl⟩
  simp only [h0Input, List.length_append, le32_length]
  omega

/-! Transactions that start no command -/

/-- An access other than a write to CMD starts no command, and while none runs it is answered. -/
theorem hostAccess_keepsIdle {x : Access} (hb : s.busy = false) (hx : ∀ v, x ≠ .write (csrAddress .cmd) v) :
    ∃ t, hostAccess s x = .next t ∧ t.busy = false := by
  obtain ⟨t, ht⟩ := hostAccess_next_of_dutiful (s := s) (x := x) (by rw [hb, Bool.false_and])
  obtain ⟨-, -, -, hl | ⟨⟨v, hv⟩, -⟩⟩ := hostAccess_frame ht
  · exact ⟨t, ht, (congrArg Option.isSome hl).trans hb⟩
  · exact absurd hv (hx v)

theorem Bus.access_keepsIdle {x : Access} (hb : b.machine.busy = false) (hx : ∀ v, x ≠ .write (csrAddress .cmd) v) :
    ∃ b', b.access x = .next b' ∧ b'.machine.busy = false := by
  obtain ⟨t, ht, hidle⟩ := hostAccess_keepsIdle hb hx
  obtain ⟨b', hb', rfl, -⟩ := b.access_idle x hb ht
  exact ⟨b', hb', hidle⟩

theorem Bus.writes_keepsIdle {xs : List (Word × Word)} (hb : b.machine.busy = false)
    (hx : ∀ x ∈ xs, x.1 ≠ csrAddress .cmd) : ∃ b', Bus.writes xs b = .next b' ∧ b'.machine.busy = false := by
  induction xs generalizing b with
  | nil => exact ⟨b, rfl, hb⟩
  | cons x xs ih =>
    obtain ⟨hx, hxs⟩ := List.forall_mem_cons.1 hx
    obtain ⟨c, hc, hidle⟩ := b.access_keepsIdle (x := .write x.1 x.2) hb fun v e => hx (Access.write.inj e).1
    obtain ⟨b', hb', hidle'⟩ := ih hidle hxs
    exact ⟨b', by rw [Bus.writes, hc, andThen_next, hb'], hidle'⟩

theorem Bus.reads_keepsIdle (as : List Word) (hb : b.machine.busy = false) :
    ∃ b' ws, Bus.reads as b = .next (b', ws) ∧ b'.machine.busy = false := by
  induction as generalizing b with
  | nil => exact ⟨b, [], rfl, hb⟩
  | cons a as ih =>
    obtain ⟨c, hc, hidle⟩ := b.access_keepsIdle (x := .read a) hb fun _ => Access.noConfusion
    obtain ⟨b', ws, hb', hidle'⟩ := ih hidle
    exact ⟨b', _, by rw [Bus.reads, Bus.read, hc, andThen_next, andThen_next, hb']; rfl, hidle'⟩

/-- The address of a well-formed offset is that of no register. -/
theorem lmemAddress_ne_csrAddress {o : Nat} (ho : Config.lmemBase + o < 2 ^ 32) (c : Csr) :
    lmemAddress o ≠ csrAddress c := by
  intro e
  have hoff := c.offset_lt.1
  have hnat := congrArg BitVec.toNat e
  simp only [lmemAddress, csrAddress, BitVec.toNat_ofNat, Config.lmemBase, Config.csrBase] at hnat ho
  omega

/-- The words of a data statement have the addresses of their offsets. -/
theorem wordWrites_address {o : Nat} {vs : List Word} {x : Word × Word} (h : x ∈ wordWrites o vs) :
    ∃ j, j < vs.length ∧ x.1 = lmemAddress (o + 4 * j) := by
  induction vs generalizing o with
  | nil => cases h
  | cons v vs ih =>
    rcases List.mem_cons.1 h with rfl | h
    · exact ⟨0, Nat.succ_pos _, rfl⟩
    · obtain ⟨j, hj, hx⟩ := ih h
      exact ⟨j + 1, Nat.succ_lt_succ hj, by rw [hx]; congr 1; omega⟩

/-! Statements that leave the machine idle -/

/-- From an idle machine the statement ends, under every schedule, and leaves the machine idle. -/
def Stmt.KeepsIdle (st : Stmt) : Prop :=
  ∀ b : Bus, b.machine.busy = false → ∃ b' x, st.run b = .next (b', x) ∧ b'.machine.busy = false

theorem Stmt.keepsIdle_command (i : Instr) (ops : List Word) : (Stmt.command i ops).KeepsIdle := by
  intro b hb
  obtain ⟨t, ht, hends⟩ := exec_ends i (b.machine.commanded i ops)
  have hidle : t.busy = false := by obtain ⟨_, _, rfl, -⟩ | ⟨_, _, _, _, rfl, -⟩ := hends <;> rfl
  obtain ⟨b', -, hr, hm, -⟩ := Stmt.run_command i ops hb ht
  exact ⟨b', .none, hr, by rw [hm]; exact hidle⟩

theorem Stmt.keepsIdle_check : Stmt.check.KeepsIdle := by
  intro b hb
  cases he : b.machine.status.err
  · obtain ⟨b', hc, hm, -⟩ := Bus.check_passes hb he
    exact ⟨b', _, hc, by rw [hm]; exact hb⟩
  · obtain ⟨b', hc, hm, -⟩ := Bus.check_fails hb he
    exact ⟨b', _, hc, by rw [hm]; exact hb⟩

theorem Stmt.keepsIdle_loadb {o : Nat} {S : Bytes} (h : (Stmt.loadb o S).wf = true) : (Stmt.loadb o S).KeepsIdle := by
  intro b hb
  simp only [Stmt.wf, Bool.and_eq_true, decide_eq_true_eq] at h
  obtain ⟨hmod, hlt⟩ := h
  obtain ⟨b', hw, hidle⟩ := Bus.writes_keepsIdle (xs := wordWrites o (paddedWords S)) hb fun x hx => by
    obtain ⟨j, hj, hx⟩ := wordWrites_address hx
    rw [paddedWords, List.length_map, List.length_range] at hj
    rw [hx]
    exact lmemAddress_ne_csrAddress (by rw [Config.lmemBase] at hlt ⊢; omega) .cmd
  exact ⟨b', .none, by rw [Stmt.run, Bus.writeStmt, hw, andThen_next], hidle⟩

theorem Stmt.keepsIdle_readb (o n : Nat) : (Stmt.readb o n).KeepsIdle := by
  intro b hb
  obtain ⟨b', ws, hr, hidle⟩ := Bus.reads_keepsIdle (readAddresses o n) hb
  exact ⟨b', _, by rw [Stmt.run, hr, andThen_next], hidle⟩

/-! Scripts that end with ZEROIZE -/

/-- No command runs, and every LMEM byte and result register is 0 (R125). -/
structure State.Zeroized (s : State) : Prop where
  idle : s.busy = false
  lmem : ∀ x, s.lmem.readByte x = 0
  res : ∀ k, s.res.get k = 0

/-- ZEROIZE and its CHECK from any idle machine: no error is left for the CHECK to find. -/
theorem runScript_cleanup (hb : b.machine.busy = false) :
    ∃ b', runScript cleanupScript b = .next (b', [.none, .none]) ∧ b'.machine.Zeroized := by
  obtain ⟨c, -, hr, hm, -⟩ := Stmt.run_command .zeroize [] hb (exec_zeroize _)
  obtain ⟨b', hc, hm', -⟩ := Bus.check_passes (b := c) (by rw [hm]; rfl) (by rw [hm]; rfl)
  have hcheck : Stmt.check.run c = .next (b', .none) := hc
  refine ⟨b', by simp only [cleanupScript, runScript, hr, hcheck, andThen_next, reduceCtorEq, if_false], ?_⟩
  rw [hm', hm]
  exact ⟨rfl, Memory.allZero_readByte, Res.zero_get⟩

/-- A script that ends with ZEROIZE and its CHECK: it ends idle, and zeroized unless a CHECK stopped it before. -/
theorem runScript_append_cleanup {p : List Stmt} (hp : ∀ st ∈ p, st.KeepsIdle) (hb : b.machine.busy = false) :
    ∃ b' rs, runScript (p ++ cleanupScript) b = .next (b', rs) ∧ b'.machine.busy = false ∧
      (scriptFailed rs = false → b'.machine.Zeroized) := by
  induction p generalizing b with
  | nil =>
    obtain ⟨b', hr, hz⟩ := runScript_cleanup hb
    exact ⟨b', _, hr, hz.idle, fun _ => hz⟩
  | cons st p ih =>
    obtain ⟨hst, hp⟩ := List.forall_mem_cons.1 hp
    obtain ⟨c, x, hc, hidle⟩ := hst b hb
    rw [List.cons_append, runScript, hc, andThen_next]
    by_cases hx : x = .failed
    · exact ⟨c, _, if_pos hx, hidle, fun h => absurd h (by decide)⟩
    · obtain ⟨b', rs, hr, hidle', hz⟩ := ih hp hidle
      refine ⟨b', x :: rs, by rw [if_neg hx, hr, andThen_next], hidle', fun h => hz ?_⟩
      simpa [scriptFailed, Ne.symm hx] using h

/-! The derivation -/

/-- The statements of a derivation before its last ZEROIZE (R282). -/
def Derivation.body (d : Derivation) : List Stmt := d.script.take 16

theorem Derivation.script_eq (d : Derivation) : d.script = d.body ++ cleanupScript := rfl

theorem Derivation.body_keepsIdle {d : Derivation} (h : d.script.all Stmt.wf = true) :
    ∀ st ∈ d.body, st.KeepsIdle := by
  rw [List.all_eq_true] at h
  have hload := h (.loadb d.a.toNat (h0Input d.p d.τ d.m d.t d.P d.S d.K d.X)) (by simp [Derivation.script])
  simp only [body, script, List.take_succ_cons, List.take_zero, List.forall_mem_cons, Stmt.keepsIdle_command,
    Stmt.keepsIdle_check, Stmt.keepsIdle_loadb hload, Stmt.keepsIdle_readb, List.not_mem_nil, false_implies,
    implies_true, and_self]

/-- Settles O58: the script zeroizes unless a CHECK stops it, and then the cleanup does. -/
theorem derivationZeroizesOnEveryPath : Obligations.DerivationZeroizesOnEveryPath := by
  intro d b hwf hb
  obtain ⟨c, rs, hr, hidle, hz⟩ := runScript_append_cleanup (Derivation.body_keepsIdle hwf) hb
  rw [← Derivation.script_eq] at hr
  rw [Derivation.run, hr, andThen_next]
  cases hf : scriptFailed rs
  · exact ⟨c, _, if_neg Bool.false_ne_true, hidle, (hz hf).lmem, (hz hf).res⟩
  · obtain ⟨b', hr', hz'⟩ := runScript_cleanup hidle
    exact ⟨b', none, by rw [if_pos rfl, hr', andThen_next], hz'.idle, hz'.lmem, hz'.res⟩

end Sys2Proof.Machine
end

section
/-! PROOFS. Errors, completion and acceptance over all commands: the order of the checks, what a completion leaves of
STATUS, the IRQ output, the overrun, and what SEQ runs (R300–R308). -/

namespace Sys2Proof.Machine

variable {s t : State} {r : Latch}

/-! The checks of a command -/

/-- An index outside LMEM, as R301's table writes it (R65). -/
theorem State.not_blockOk (s : State) (b : Nat) : (!s.blockOk b) = decide (s.cap.toNat ≤ b) :=
  decide_not.symm.trans (decide_eq_decide.2 Nat.not_lt)

/-- A byte range that leaves LMEM, as R301's table writes it (R65). -/
theorem State.not_rangeOk (s : State) (a n : Nat) : (!s.rangeOk a n) = decide (1024 * s.cap.toNat < a + n) :=
  decide_not.symm.trans (decide_eq_decide.2 Nat.not_le)

/-- The code of the first failing check of a list: what `firstError` takes of the checks of a command. -/
def firstFailing (checks : List (Bool × ErrCode)) : Option ErrCode := (checks.find? fun x => x.1).map fun x => x.2

/-- A meaning that tests `p` first, then does what the checks `l` say, does what the checks `(c, e) :: l` say. -/
theorem answers_check {c : Bool} {p : Prop} [Decidable p] {e : ErrCode} {l : List (Bool × ErrCode)}
    {f : ErrCode → State} {o : Host.Outcome State Fault Refusal} (hc : c = true ↔ p)
    (ho : o = .next ((firstFailing l).elim t f)) :
    (if p then .next (f e) else o) = .next ((firstFailing ((c, e) :: l)).elim t f) := by
  by_cases hp : p
  · rw [if_pos hp, firstFailing, List.find?_cons_of_pos (hc.2 hp)]
    rfl
  · rw [if_neg hp, ho, firstFailing, firstFailing, List.find?_cons_of_neg (mt hc.1 hp)]

/-- The state after command `i` completes with error `e`: CONFIG alone clears CFGOK (R124, R301). -/
def State.failed (s : State) (i : Instr) (e : ErrCode) : State :=
  (s.withCfgok (if i = .config then false else s.status.cfgok)).raiseError e

/-- Every command answers as R301's table says: with its first failing check, or completed without an error. Each meaning
tests the checks of its row in that order; only CONFIG, HPRIME and REFIDX write a condition in another form. -/
theorem exec_firstError (i : Instr) (hl : s.latch = some r) :
    ∃ t, exec i s = .next ((firstError s r i).elim t (s.failed i)) ∧ t.latch = none ∧ t.status.done = true ∧
      t.status.err = s.status.err ∧ t.status.errcode = s.status.errcode := by
  cases i <;>
    simp only [exec, execNop, execConfig, execZeroize, execHash, execHprime, execG, execGx, execPerm, execRefidx,
      execAddrgen, execSeed, execFillseg, execFill, execFinal, State.operand_of_latch hl, Args.get, Bool.not_and,
      State.not_blockOk, State.not_rangeOk]
  case nop | zeroize => exact ⟨_, rfl, rfl, rfl, rfl, rfl⟩
  case config =>
    refine ⟨_, answers_check ?_ (answers_check decide_eq_true_iff rfl), rfl, rfl, rfl, rfl⟩
    rw [Bool.not_eq_true', ← Bool.not_eq_true, paramsOk_iff]
    simp only [Bool.or_eq_true, decide_eq_true_eq]
    omega
  case hprime => exact ⟨_, answers_check decide_eq_true_iff (answers_check .rfl rfl), rfl, rfl, rfl, rfl⟩
  case refidx =>
    refine ⟨_, answers_check .rfl (answers_check ?_ rfl), rfl, rfl, rfl, rfl⟩
    rw [Bool.not_eq_true', ← Bool.not_eq_true, positionOk_iff]
    simp only [Bool.or_eq_true, Bool.and_eq_true, decide_eq_true_eq]
    omega
  case g | gx | perm | fill => exact ⟨_, answers_check .rfl rfl, rfl, rfl, rfl, rfl⟩
  case hash | addrgen | seed | fillseg | final =>
    exact ⟨_, answers_check .rfl (answers_check .rfl rfl), rfl, rfl, rfl, rfl⟩

/-- Settles O29, from the answer of `exec_firstError`. -/
theorem errorsAreReportedInTheStatedOrder : Obligations.ErrorsAreReportedInTheStatedOrder := by
  intro i s r hl
  obtain ⟨t, ht, hok⟩ := exec_firstError i hl
  refine ⟨fun e he => ?_, fun he => ?_⟩
  · rw [he] at ht
    exact ⟨_, ht, rfl, rfl, rfl, rfl, exec_keeps_host ht, rfl⟩
  · rw [he] at ht
    exact ⟨t, ht, hok⟩

/-! Completion -/

/-- What a completion leaves of STATUS, whether with an error or without (R303). -/
theorem exec_status {i : Instr} (h : exec i s = .next t) :
    t.busy = false ∧ t.status.done = true ∧ t.status.ovr = s.status.ovr ∧ t.status.hbe = s.status.hbe ∧
      (i ≠ .config → t.status.cfgok = s.status.cfgok) := by
  obtain ⟨e, b, rfl, -, hb⟩ | ⟨m, x, c, b, rfl, hc, -⟩ := ends_of_exec h
  · exact ⟨rfl, rfl, rfl, rfl, fun hi => hb.resolve_right fun hconfig => hi hconfig.1⟩
  · exact ⟨rfl, rfl, rfl, rfl, fun hi => (hc hi).2⟩

/-- Settles O24, from the two ways a command ends. -/
theorem everyCommandCompletes : Obligations.EveryCommandCompletes := by
  intro i s
  obtain ⟨t, ht, -⟩ := exec_ends i s
  obtain ⟨hbusy, hdone, hovr, hhbe, hcfgok⟩ := exec_status ht
  exact ⟨t, ht, hbusy, hdone, exec_keeps_host ht, hovr, hhbe, hcfgok⟩

/-! IRQ and the overrun -/

/-- With DONE = 0 and ERR = 0 the IRQ output is 0, whatever is enabled (R45). -/
theorem State.irq_eq_false (hd : s.status.done = false) (he : s.status.err = false) : s.irq = false := by
  simp only [irq, hd, he, Bool.false_and, Bool.or_self]

/-- Settles O20: a completion sets DONE and keeps IRQEN; acceptance, the write and RST clear DONE and ERR. -/
theorem irqRisesAtCompletionAndFalls : Obligations.IrqRisesAtCompletionAndFalls := by
  refine ⟨fun i s t h => ?_, fun s t v rest hi hb h => ?_, fun s t rest hi h => ?_, fun s t rest hi h => ?_⟩
  · obtain ⟨-, hdone, -⟩ := exec_status h
    rw [State.irq, hdone, (exec_keeps_host h).irqen, Bool.true_and]
  · cases (step_write_cmd hb hi).symm.trans h
    exact State.irq_eq_false rfl rfl
  · cases (step_write_status hi).symm.trans h
    exact State.irq_eq_false (Bool.and_false _) (Bool.and_false _)
  · cases (step_rst hi).symm.trans h
    exact State.irq_eq_false rfl rfl

/-- Settles O12: the write reaches CMD and finds the engine busy, and OVR falls only as `step_keepsErrors` says. -/
theorem commandWriteWhileBusyIsDropped : Obligations.CommandWriteWhileBusyIsDropped := by
  refine ⟨fun s v rest hi hb => ⟨?_, rfl⟩, fun s t h hs ht => ?_⟩
  · rw [step_write_csr (c := .cmd) hi, writeCsr_cmd]
    exact congrArg _ (if_pos hb)
  · obtain ⟨hk, -⟩ | ⟨rest, hi | ⟨v, hi, hv⟩⟩ := step_keepsErrors h
    · exact absurd (hk hs) (by simp [ht])
    · exact ⟨rest, .inl hi⟩
    · refine ⟨rest, .inr ⟨v, hi, ?_⟩⟩
      rw [hv, acknowledge_ovr, hs] at ht
      simpa using ht

/-! Acceptance and the step of SEQ -/

/-- Settles O5: with SEQ's input or with none left, the step is SEQ's. -/
theorem stepRunsTheDecodedCommand : Obligations.StepRunsTheDecodedCommand := by
  refine fun s r i hl hd _ => ⟨fun rest hi => ?_, fun hi => ?_⟩
  · rw [step_seq hi]
    exact seqStep_of_decode hl hd
  · rw [step_idle hi]
    exact seqStep_of_decode hl hd

/-- Placing the encoding of a command issues it: no bit of the word is cut off (R90). -/
theorem State.withFetchWord_encode (s : State) (i : Instr) :
    s.withFetchWord 32 (encode i).toNat = s.issued (encode i) := by
  rw [withFetchWord, Nat.mod_eq_of_lt (encode i).isLt, BitVec.ofNat_toNat, BitVec.setWidth_eq]

/-- Settles O6: the record holds the encoding of the command and the ARG registers. -/
theorem placedWordRunsNext : Obligations.PlacedWordRunsNext := by
  refine fun s i => ⟨?_, rfl⟩
  rw [State.withFetchWord_encode, step_seq (s.issued_inputs _)]
  exact seqStep_of_decode (s.accept_latch _) (decode_encode i)

/-- Settles O11: `accept`, written out. -/
theorem acceptanceLatchesTheCommand : Obligations.AcceptanceLatchesTheCommand := fun _ _ _ hi hb =>
  step_write_cmd hb hi

end Sys2Proof.Machine
end

section
/-! PROOFS. RST over all states, with the bytes a reset in the middle of a command frees, and where CFGOK comes from
(R340–R343). -/

namespace Sys2Proof.Machine

variable {s t : State} {r : Latch} {i : Instr}

/-! The registers after RST -/

/-- RST leaves the registers that the power-up reset leaves (R341). -/
theorem rst_atReset (s : State) : AtReset (rst s) := resetStateHasTheResetValues.1

/-- With no command running RST leaves LMEM (R340). -/
theorem resetLmem_of_idle (h : s.busy = false) : resetLmem s = s.lmem := by
  have hl : s.latch = none := Option.not_isSome_iff_eq_none.1 (Bool.eq_false_iff.1 h)
  rw [resetLmem, hl]

/-- Settles O9: the registers are those of `State.reset`, and an idle machine abandons nothing. -/
theorem rstBringsTheResetValues : Obligations.RstBringsTheResetValues := by
  intro s rest hi
  refine ⟨_, step_rst hi, rst_atReset _, rfl, rfl, rfl, fun hb x => ?_⟩
  exact congrArg (Memory.readByte · x) (resetLmem_of_idle (s := { s with inputs := rest }) hb)

/-! The bytes RST frees -/

/-- Byte `x` lies in one of the ranges of `l`. -/
def Covers (l : List ByteRange) (x : Nat) : Prop := ∃ R ∈ l, R.1 ≤ x ∧ x < R.1 + R.2

theorem covers_nil (x : Nat) : ¬Covers [] x := by simp [Covers]

theorem covers_cons (R : ByteRange) (l : List ByteRange) (x : Nat) :
    Covers (R :: l) x ↔ (R.1 ≤ x ∧ x < R.1 + R.2) ∨ Covers l x := by simp [Covers]

theorem covers_flatMap {α : Type} (f : α → List ByteRange) (l : List α) (x : Nat) :
    Covers (l.flatMap f) x ↔ ∃ a ∈ l, Covers (f a) x := by
  simp only [Covers, List.mem_flatMap]
  exact ⟨fun ⟨R, ⟨a, ha, hR⟩, hx⟩ => ⟨a, ha, R, hR, hx⟩, fun ⟨a, ha, R, hR, hx⟩ => ⟨R, ⟨a, ha, hR⟩, hx⟩⟩

/-- The bytes of block b are those x with x / 1024 = b (R10). -/
theorem mem_blockRange (b x : Nat) : (blockRange b).1 ≤ x ∧ x < (blockRange b).1 + (blockRange b).2 ↔ x / 1024 = b := by
  simp only [blockRange]
  omega

/-- The bytes of `n` blocks from block b are those of the blocks b + k (R10). -/
theorem mem_blocks (b n x : Nat) : 1024 * b ≤ x ∧ x < 1024 * b + 1024 * n ↔ ∃ k, k < n ∧ x / 1024 = b + k := by
  refine ⟨fun h => ⟨x / 1024 - b, by omega, by omega⟩, ?_⟩
  rintro ⟨k, hk, e⟩
  omega

/-- The ranges of `writeSet` are the rows of R342's table; ZEROIZE, whose row is all of LMEM, has none. -/
theorem covers_writeSet (hl : s.latch = some r) (hz : i ≠ .zeroize) (x : Nat) :
    Covers (writeSet s i) x ↔ InWriteSet s r x i := by
  cases i <;>
    simp only [writeSet, InWriteSet, covers_nil, covers_cons, covers_flatMap, or_false, mem_blockRange, mem_blocks,
      matrixBlock, State.operand_of_latch hl, Args.get]
  case zeroize => exact absurd rfl hz
  case seed =>
    refine ⟨?_, ?_⟩
    · rintro ⟨l, hp, e | e⟩
      · exact ⟨l, 0, List.mem_range.1 hp, by decide, e⟩
      · exact ⟨l, 1, List.mem_range.1 hp, by decide, e⟩
    · rintro ⟨l, c, hp, hc, e⟩
      refine ⟨l, List.mem_range.2 hp, ?_⟩
      omega
  case fillseg => simp only [Nat.add_assoc]
  case fill => omega

/-- An LMEM byte of the range drawn is that of the draw. -/
theorem readByte_drawRange_in (m : Memory) {n d x : Nat} {R : ByteRange} (hn : x < n) (hx : R.1 ≤ x ∧ x < R.1 + R.2) :
    (drawRange n d m R).readByte x = Config.lmemDraw d x := by
  obtain ⟨j, rfl⟩ := Nat.exists_eq_add_of_le hx.1
  rw [drawRange, Memory.drawBytes,
    Memory.readByte_writeBytes_in _ _ _ j (by rw [List.length_map, List.length_range']; omega)]
  simp only [List.getElem_map, List.getElem_range', Nat.one_mul]

/-- A byte outside the range drawn reads as before. -/
theorem readByte_drawRange_out (m : Memory) {n d x : Nat} {R : ByteRange} (hx : ¬(R.1 ≤ x ∧ x < R.1 + R.2)) :
    (drawRange n d m R).readByte x = m.readByte x :=
  Memory.readByte_writeBytes_out _ _ _ x (by rw [List.length_map, List.length_range']; omega)

/-- A byte outside every range drawn reads as before. -/
theorem readByte_drawRanges_out (m : Memory) {n d x : Nat} {l : List ByteRange} (hx : ¬Covers l x) :
    (l.foldl (drawRange n d) m).readByte x = m.readByte x :=
  foldl_keeps (fun m' => Memory.readByte m' x = m.readByte x) _ _ _ rfl fun R hR m' h =>
    (readByte_drawRange_out m' fun hRx => hx ⟨R, hR, hRx⟩).trans h

/-- An LMEM byte of one of the ranges drawn is that of the draw, whichever ranges are drawn over it later. -/
theorem readByte_drawRanges_in (m : Memory) {n d x : Nat} {l : List ByteRange} (hn : x < n) (hx : Covers l x) :
    (l.foldl (drawRange n d) m).readByte x = Config.lmemDraw d x := by
  induction l generalizing m with
  | nil =>
    obtain ⟨R, hR, -⟩ := hx
    exact absurd hR List.not_mem_nil
  | cons R l ih =>
    rw [List.foldl_cons]
    by_cases hl : Covers l x
    · exact ih _ hl
    · obtain ⟨R', hR', hRx⟩ := hx
      obtain rfl | hR' := List.mem_cons.1 hR'
      · rw [readByte_drawRanges_out _ hl, readByte_drawRange_in _ hn hRx]
      · exact absurd ⟨R', hR', hRx⟩ hl

theorem abandonedLmem_of_ne_zeroize (s : State) (hz : i ≠ .zeroize) :
    abandonedLmem s i = (writeSet s i).foldl (drawRange s.lmemBytes s.draws) s.lmem := by
  unfold abandonedLmem
  split
  · exact absurd rfl hz
  · rfl

/-- Abandoning a command frees the LMEM bytes of its row of R342's table. -/
theorem readByte_abandonedLmem_in (hl : s.latch = some r) {x : Nat} (hn : x < s.lmemBytes) (hx : InWriteSet s r x i) :
    (abandonedLmem s i).readByte x = Config.lmemDraw s.draws x := by
  by_cases hz : i = .zeroize
  · subst hz
    exact Memory.allDraw_readByte s.draws x
  · rw [abandonedLmem_of_ne_zeroize s hz]
    exact readByte_drawRanges_in _ hn ((covers_writeSet hl hz x).2 hx)

/-- Abandoning a command leaves the bytes outside its row of R342's table. -/
theorem readByte_abandonedLmem_out (hl : s.latch = some r) {x : Nat} (hx : ¬InWriteSet s r x i) :
    (abandonedLmem s i).readByte x = s.lmem.readByte x := by
  have hz : i ≠ .zeroize := fun e => hx (by rw [e]; trivial)
  rw [abandonedLmem_of_ne_zeroize s hz]
  exact readByte_drawRanges_out _ (mt (covers_writeSet hl hz x).1 hx)

theorem rst_lmem_of_decode (hl : s.latch = some r) (hd : decode r.word = some i) :
    (rst s).lmem = abandonedLmem s i := by
  simp only [rst, resetLmem, hl, hd]

/-- Settles O10: RST abandons the running command, in and outside its row. -/
theorem rstFreesOnlyTheWriteSet : Obligations.RstFreesOnlyTheWriteSet := by
  intro s rest r i hi hl hd
  have e := rst_lmem_of_decode (s := { s with inputs := rest }) hl hd
  refine ⟨_, step_rst hi, fun x hn hx => ?_, fun x hx => ?_⟩ <;> rw [e]
  · exact readByte_abandonedLmem_in hl hn hx
  · exact readByte_abandonedLmem_out hl hx

/-! Where CFGOK comes from -/

/-- No host write to a register moves CFGOK (R29). -/
theorem writeCsr_cfgok (s : State) (v : Word) (c : Csr) : (writeCsr s v c).status.cfgok = s.status.cfgok := by
  cases c with
  | cmd =>
    rw [writeCsr_cmd]
    split <;> rfl
  | _ => rfl

theorem hostAccess_cfgok {x : Access} (h : hostAccess s x = .next t) : t.status.cfgok = s.status.cfgok := by
  obtain ⟨v, rfl⟩ | rfl | rfl | rfl | ⟨c, v, -, rfl⟩ | ⟨o, v, -, -, -, rfl⟩ := hostAccess_cases h
  case inr.inr.inr.inr.inl => exact writeCsr_cfgok s v c
  all_goals rfl

/-- SEQ moves CFGOK only where it completes a CONFIG (R48, R121, R124). -/
theorem seqStep_cfgok (h : seqStep s = .next t) :
    t.status.cfgok = s.status.cfgok ∨ ∃ r, s.latch = some r ∧ decode r.word = some .config := by
  obtain ⟨-, rfl⟩ | ⟨r, i, hl, hd, he⟩ | ⟨r, -, -, rfl⟩ := seqStep_cases h
  · exact .inl rfl
  · by_cases hi : i = .config
    · exact .inr ⟨r, hl, hi ▸ hd⟩
    · obtain ⟨-, -, -, -, hk⟩ := exec_status he
      exact .inl (hk hi)
  · exact .inl rfl

/-- CFGOK rises only where SEQ completes a CONFIG: RST clears it and a host access leaves it (R48, R343). -/
theorem step_cfgok_rises (h : step s = .next t) (hs : s.status.cfgok = false) (ht : t.status.cfgok = true) :
    s.seqNext ∧ ∃ r, s.latch = some r ∧ decode r.word = some .config := by
  obtain ⟨rest, hi, hseq⟩ | ⟨rest, -, rfl⟩ | ⟨rest, x, -, hx⟩ := step_cases h
  · obtain hk | hc := seqStep_cfgok hseq
    · simp [hk, hs] at ht
    · exact ⟨hi.elim (fun e => .inr ⟨rest, e⟩) (fun e => .inl e.1), hc⟩
  · cases ht
  · simp [hostAccess_cfgok hx, hs] at ht

/-- The first check of the six commands that need a configuration (R301, R343). -/
theorem exec_of_not_configured (hi : i ∈ [Instr.refidx, .addrgen, .seed, .fillseg, .fill, .final])
    (hk : s.status.cfgok = false) : exec i s = .next (s.raiseError .notConfigured) := by
  have hc : (!s.status.cfgok) = true := by rw [hk]; rfl
  simp only [List.mem_cons, List.not_mem_nil, or_false] at hi
  obtain rfl | rfl | rfl | rfl | rfl | rfl := hi <;> exact if_pos hc

/-- Settles O28: the rise of CFGOK, and the first check of the six commands. -/
theorem configurationComesOnlyFromConfig : Obligations.ConfigurationComesOnlyFromConfig := by
  refine ⟨fun _ _ => step_cfgok_rises, fun i s hi hk => ?_⟩
  have h := exec_of_not_configured hi hk
  exact ⟨_, h, ⟨rfl, rfl⟩, exec_keeps_host h, rfl, rfl, rfl⟩

end Sys2Proof.Machine
end
